-- ==== Sys2Proof/Word.lean ====
section
/-! DEFINITION. The word types of the IHM codec block (spec/00_scope.md R8, R9): registers of
32 bits, bytes of 8, the 64-bit bitmask. Every value is unsigned (R9). -/

namespace Sys2Proof

/-- A register value, a command word or a system address: `REG_W` = `ADDR_W` = 32 (R8). -/
abbrev Word := BitVec 32

/-- One byte of DB, of the pixel buffer or of a bitstream. -/
abbrev Byte := BitVec 8

/-- The 64-bit bitmask, `MASK_W` = 64 (R8, R11). -/
abbrev Mask := BitVec 64

end Sys2Proof
end

