-- ==== Sys2Proof/Syntax.lean ====
section
/-! DEFINITION. The syntax: the six commands of spec/opcode_table.json, and the acts of the host and
the platform that the model takes as input (spec/60_exceptions.md R198). -/

namespace Sys2Proof

/-- One constructor per row of spec/opcode_table.json (spec/30_encoding.md R92). The command word has
no operand field (R90, R91). -/
inductive Instr where
  | mapBuild
  | readBits
  | writeBits
  | crcInit
  | crcUpdate
  | crcCompute
  deriving DecidableEq, Repr

/-- The width of a host access: 8, 16 or 32 bits (spec/20_memory.md R61, R66, R67). -/
inductive Width where
  | byte
  | half
  | word
  deriving DecidableEq, Repr

/-- The width in bytes. -/
def Width.bytes : Width → Nat
  | .byte => 1
  | .half => 2
  | .word => 4

/-- A block-local host offset, 0x00000 to 0x1FFFF: `HOST_WINDOW` of spec/00_scope.md R8. -/
abbrev Offset := BitVec 17

/-- What happens outside the block, one act each (spec/20_memory.md R73, spec/60_exceptions.md R198).
The order in which they and the block's completion happen is the order of the list that holds them
(log 2). -/
inductive Event where
  /-- The block engine has the turn: it completes a pending command. -/
  | block
  /-- A host read of the block's window. -/
  | read (w : Width) (off : Offset)
  /-- A host write to the block's window; the low bits of `v`, as many as the width has, are
  written. -/
  | write (w : Width) (off : Offset) (v : Word)
  /-- The host's own read of a byte of system memory. -/
  | memRead (a : Word)
  /-- The host's own write of a byte of system memory. -/
  | memWrite (a : Word) (v : Byte)
  /-- The platform asserts and releases the reset input (spec/70_reset_and_hazards.md R210). -/
  | powerOn
  deriving DecidableEq, Repr

end Sys2Proof
end

