-- ==== Sys2Proof/Decode.lean ====
section
/-! DEFINITION. The decoder of the 32-bit command word and, after it, the encoder
(spec/30_encoding.md R90 to R95). The decoder is total and rejects by name. -/

namespace Sys2Proof

/-- Why a command word is illegal (R93). -/
inductive DecodeError where
  /-- A bit of RSVD is 1. -/
  | reservedBitSet
  /-- OP is 0x0 or 0x7 to 0xF. -/
  | reservedOp
  deriving DecidableEq, Repr

/-- OP, bits 3:0 (R90). -/
def opField (w : Word) : BitVec 4 := w.extractLsb' 0 4

/-- RSVD, bits 31:4 (R90). -/
def rsvdField (w : Word) : BitVec 28 := w.extractLsb' 4 28

/-- The command an OP value selects, RSVD being 0 (R92). -/
def opCommand (op : BitVec 4) : Option Instr :=
  if op = 0x1#4 then some .mapBuild
  else if op = 0x2#4 then some .readBits
  else if op = 0x3#4 then some .writeBits
  else if op = 0x4#4 then some .crcInit
  else if op = 0x5#4 then some .crcUpdate
  else if op = 0x6#4 then some .crcCompute
  else none

/-- The decoder: the command of a word, or why the word is illegal (R92, R93). It reads OP and RSVD
only (R95). -/
def decode (w : Word) : Except DecodeError Instr :=
  if rsvdField w ≠ 0 then .error .reservedBitSet
  else match opCommand (opField w) with
    | some i => .ok i
    | none => .error .reservedOp

/-- The decoder's answer for an instruction of spec/opcode_table.json whose bits are `w`, the bits at
`nbits` and above taken as 0. A command is one 32-bit word (R90): a value that does not fit is
none. -/
def decodeTableWord (nbits w : Nat) : Option Instr :=
  if w % 2 ^ nbits < 2 ^ 32 then
    match decode (BitVec.ofNat 32 (w % 2 ^ nbits)) with
    | .ok i => some i
    | .error _ => none
  else none

/-- The command word of an instruction, from the `word` column of R92. -/
def encode : Instr → Word
  | .mapBuild => 0x00000001#32
  | .readBits => 0x00000002#32
  | .writeBits => 0x00000003#32
  | .crcInit => 0x00000004#32
  | .crcUpdate => 0x00000005#32
  | .crcCompute => 0x00000006#32

end Sys2Proof
end

