-- ==== Sys2Proof/Config.lean ====
section
/-! DEFINITION. What the platform or an implementation fixes (spec/00_scope.md R8,
spec/93_implementation_defined.md X9, X11), and the free values of the model (X1 to X4).

The parameters are plain data and `State` carries them unchanged, so that a statement about every
state is a statement about every value of them. A free value is an opaque constant applied to the
model's draw counter: nothing can evaluate it (log 10). -/

namespace Sys2Proof.Config

/-- The `kind` of `bus_error(a, kind)` (spec/20_memory.md R64): MemRead or MemWrite. -/
inductive AccessKind where
  | read
  | write
  deriving DecidableEq, Repr

/-- System addresses `first` to `last` on which the platform answers a master access of this kind
with a bus error. -/
structure BusRange where
  first : Word
  last  : Word
  kind  : AccessKind
  deriving DecidableEq, Repr

/-- The OPEN parameters. `dbTop` is `DB_SIZE` less 1, so that exactly the sizes 1 to 65536 of R8
can be named. `busErrors` is `bus_error(a, kind)` as data: any predicate on the 32-bit addresses is
a finite union of ranges. -/
structure Params where
  dbTop     : BitVec 16
  busErrors : List BusRange
  deriving DecidableEq, Repr

/-- DESIGN CHOICE (log 1): the parameters `State.reset` carries, the suggested `DB_SIZE` of 4096
(R8) and a platform that fails no access. -/
def suggested : Params := { dbTop := 4095#16, busErrors := [] }

/-- X1: the 32-bit value of the n-th draw (spec/10_state.md R44). -/
opaque freeWord : Nat → Word

/-- Byte `t` of the n-th draw: X3 (spec/60_exceptions.md R188, spec/70_reset_and_hazards.md R211), a DB
byte that is read before anything has written it (log 5), and a byte of an owned pixel buffer that
another agent writes (log 8). -/
opaque freeByte : Nat → Nat → Byte

/-- X2: whether element `j` of the n-th draw is the new value rather than the old one; for a STATUS
read (R44), element 0 is the MAP_VALID bit. -/
opaque freeBit : Nat → Nat → Bool

/-- X4: which of the failing accesses the n-th draw picks. -/
opaque freeIndex : Nat → Nat

end Sys2Proof.Config
end

