-- ==== Sys2Proof/Machine/State.lean ====
section
/-! DEFINITION. The machine's state as plain data: every piece of block state of spec/10_state.md
R50, the parameters of spec/00_scope.md R8, the system memory the block reaches, and the model's own
record of the host (INVENTORY.md, State). STATUS.BUSY, STATUS.ERR, CRC_VALUE and irq are computed
from it and have no storage of their own (log 18). -/

namespace Sys2Proof.Machine

/-- A memory: address and byte, addresses strictly rising, no entry equal to what an unlisted
address reads as (`Memory.wf`). -/
abbrev Memory := List Host.Cell

/-- STATUS.ERRCODE (spec/60_exceptions.md R180). Code 7 is reserved and never written, so it has no
name here (spec/93_implementation_defined.md X15). -/
inductive ErrCode where
  | none
  | emptyOffsetMap
  | boundsExceeded
  | paramInvalid
  | illegalCommand
  | dataBounds
  | busError
  deriving DecidableEq, Repr

/-- The operand snapshot L latched at issue (spec/10_state.md R45). -/
structure Snapshot where
  cmd        : Word
  mask       : Mask
  stride     : BitVec 4
  mapWidth   : BitVec 7
  pbBase     : Word
  pbLen      : Word
  startPixel : Word
  dbAddr     : Word
  nbytes     : Word
  deriving DecidableEq, Repr

/-- The command sequencer (spec/10_state.md R21, R46): IDLE, or BUSY with one pending command, which
is `L.CMD` and the snapshot. -/
inductive Sequencer where
  | idle
  | busy (l : Snapshot)
  deriving DecidableEq, Repr

/-- What the bus answered the host. -/
inductive Reply where
  /-- The value read, zero-extended. -/
  | data (v : Word)
  /-- A bus error response (spec/20_memory.md R66, R67). -/
  | busError
  /-- No value: the access breaks a host duty, and a model returns none (spec/20_memory.md R74). -/
  | noValue
  deriving DecidableEq, Repr

/-- What the model records as a fault. A fault is never cleared and never final
(spec/93_implementation_defined.md, treatments): it is put in `State.faults` and the run goes on, so no
step of this model ends in one. -/
inductive Fault where
  /-- Raised by a host access the block does not support: a register-space access that is not an
  aligned 32-bit word, or a misaligned DB-window access (spec/20_memory.md R66, R67; log 6). Safe:
  the rules give its whole effect. -/
  | unsupported (w : Width) (off : Offset)
  /-- Raised by a host read of the DB window and by WRITE_BITS, CRC_UPDATE and CRC_COMPUTE, for each
  DB byte they read that nothing has written since power-on (spec/70_reset_and_hazards.md R212;
  log 5). Safe: the byte read is a free value. -/
  | dbByteUnwritten (k : Nat)
  /-- Raised by the host's own access to system memory inside the pixel buffer that a pending
  READ_BITS or WRITE_BITS owns (spec/20_memory.md R74; log 8). Unsafe: a byte so written is a free
  value at once, but what follows from it is as for any other byte. -/
  | bufferOwned (a : Word)
  deriving DecidableEq, Repr

/-- Why a step has no meaning. -/
inductive Refusal where
  /-- Raised by `exec` for an instruction that has no meaning in this model. Safe: nothing follows
  from it. No instruction of this model is left to it. -/
  | notModelled (mnemonic : String)
  deriving DecidableEq, Repr

/-- The whole state. -/
structure State where
  /-- The OPEN parameters (spec/00_scope.md R8); no step changes them. -/
  params     : Config.Params
  /-- The sequencer and the pending command (R21, R45, R46). -/
  seq        : Sequencer
  /-- CTRL.IE (R23). -/
  ie         : Bool
  /-- STATUS.DONE (R24). -/
  done       : Bool
  /-- STATUS.OVR (R24). -/
  ovr        : Bool
  /-- STATUS.MAP_VALID (R24). -/
  mapValid   : Bool
  /-- STATUS.ERRCODE (R24). -/
  errcode    : ErrCode
  /-- MASK_LO (R26). -/
  maskLo     : Word
  /-- MASK_HI (R26). -/
  maskHi     : Word
  /-- STRIDE, bits 3:0 (R27). -/
  stride     : BitVec 4
  /-- MAP_WIDTH, bits 6:0 (R28). -/
  mapWidth   : BitVec 7
  /-- PB_BASE (R29). -/
  pbBase     : Word
  /-- PB_LEN (R30). -/
  pbLen      : Word
  /-- START_PIXEL (R31). -/
  startPixel : Word
  /-- DB_ADDR (R32). -/
  dbAddr     : Word
  /-- NBYTES (R33). -/
  nbytes     : Word
  /-- CRC_STATE (R34). -/
  crcState   : Word
  /-- MAP_LEN, bits 6:0 (R37). -/
  mapLen     : BitVec 7
  /-- MAP[0] to MAP[63], 6 bits each (R40). -/
  mapFile    : Vector (BitVec 6) 64
  /-- ERR_INFO (R38). -/
  errInfo    : Word
  /-- LAST_CMD (R39). -/
  lastCmd    : Word
  /-- The internal data buffer DB (R48); an unlisted byte has not been written (R212). -/
  db         : Memory
  /-- System memory, which holds the pixel buffer and is not block state (R47). -/
  mem        : Memory
  /-- The model's own: the acts of the host and the platform still to come, oldest first (log 2). -/
  inputs     : List Event
  /-- The model's own: what the bus answered the host, newest first (log 3). -/
  replies    : List Reply
  /-- The model's own: the faults recorded so far, those of the newest access or command first
  (logs 5, 6, 8). -/
  faults     : List Fault
  /-- The model's own: how many draws have been taken (log 10). -/
  draws      : Nat
  deriving DecidableEq, Repr

/-- The machine right after power-on reset (spec/10_state.md R50, spec/70_reset_and_hazards.md R210):
IDLE, every register field 0, no DB byte written. DESIGN CHOICE: the parameters (log 1), system
memory with nothing listed (log 4) and the model's own fields (logs 2, 3, 6, 10). -/
def State.reset : State where
  params     := Config.suggested
  seq        := .idle
  ie         := false
  done       := false
  ovr        := false
  mapValid   := false
  errcode    := .none
  maskLo     := 0
  maskHi     := 0
  stride     := 0
  mapWidth   := 0
  pbBase     := 0
  pbLen      := 0
  startPixel := 0
  dbAddr     := 0
  nbytes     := 0
  crcState   := 0
  mapLen     := 0
  mapFile    := Vector.replicate 64 0
  errInfo    := 0
  lastCmd    := 0
  db         := []
  mem        := []
  inputs     := []
  replies    := []
  faults     := []
  draws      := 0

/-- What one step or one meaning answers. -/
abbrev Result := Host.Outcome State Fault Refusal

end Sys2Proof.Machine
end

