-- ==== Sys2Proof/Machine/Ops.lean ====
section
/-! DEFINITION. The named operations: memories and the two byte stores over them (system memory and
DB), the platform's bus errors, draws, the map register file, completion (spec/60_exceptions.md R186,
the block's only "trap entry") and its acknowledgement (R192). -/

namespace Sys2Proof.Machine

/-! Memories: sorted lists of cells, read and written one byte at a time. -/

/-- The byte listed at an address, if one is. -/
def Memory.lookup : Memory → Nat → Option Byte
  | [], _ => none
  | (b, w) :: r, a => if a = b then some w else Memory.lookup r a

/-- Write one byte and keep the canonical form: `u` is what an unlisted address reads as, and writing
that value removes the entry. -/
def Memory.write (u : Option Byte) : Memory → Nat → Byte → Memory
  | [], a, v => if some v = u then [] else [(a, v)]
  | (b, w) :: r, a, v =>
    if a < b then (if some v = u then (b, w) :: r else (a, v) :: (b, w) :: r)
    else if a = b then (if some v = u then r else (a, v) :: r)
    else (b, w) :: Memory.write u r a v

/-- The canonical form: addresses strictly rising and below `size`, no entry equal to what an
unlisted address reads as. -/
abbrev Memory.wf (u : Option Byte) (size : Nat) (m : Memory) : Prop :=
  m.Pairwise (fun c d => c.1 < d.1) ∧ ∀ c ∈ m, c.1 < size ∧ some c.2 ≠ u

/-- Write the `n` bytes `f 0` to `f (n-1)` at `start` and up. -/
def Memory.fill (u : Option Byte) (m : Memory) (start n : Nat) (f : Nat → Byte) : Memory :=
  (List.range n).foldl (fun d t => Memory.write u d (start + t) (f t)) m

/-! System memory: 2^32 bytes (spec/20_memory.md R60). -/

/-- What a byte of system memory that nothing has written reads as: 0x00. DESIGN CHOICE, unsafe
(log 4). -/
def sysUnlisted : Byte := 0x00#8

/-- The number of system addresses: `ADDR_W` = 32 (spec/00_scope.md R8). -/
def sysSize : Nat := 2 ^ 32

/-- The byte system memory holds at an address (spec/20_memory.md R64). -/
def sysRead (m : Memory) (a : Nat) : Byte := (Memory.lookup m a).getD sysUnlisted

/-- Store a byte to system memory (R64). -/
def sysWrite (m : Memory) (a : Nat) (v : Byte) : Memory := Memory.write (some sysUnlisted) m a v

/-- Clear bit `b` of the byte at `a`, then set it if `d`: the read-modify-write of WRITE_BITS
(spec/41_bit_channel.md R140). -/
def sysSetBit (m : Memory) (a b : Nat) (d : Bool) : Memory :=
  sysWrite m a ((sysRead m a &&& ~~~(1#8 <<< b)) ||| (BitVec.ofNat 8 d.toNat <<< b))

/-- `bus_error(a, kind)` (R64). -/
def busError (p : Config.Params) (a : Nat) (kind : Config.AccessKind) : Bool :=
  p.busErrors.any fun r => r.first.toNat ≤ a && a ≤ r.last.toNat && r.kind == kind

/-! DB: `DB_SIZE` bytes, unwritten after power-on (spec/70_reset_and_hazards.md R212). -/

/-- What a DB byte that nothing has written reads as: no value (R212). -/
def dbUnlisted : Option Byte := none

/-- `DB_SIZE` (spec/00_scope.md R8), from 1 to 65536. -/
def dbSize (s : State) : Nat := s.params.dbTop.toNat + 1

/-- The value of DB[k], if it has been written. -/
def dbRead (d : Memory) (k : Nat) : Option Byte := Memory.lookup d k

/-- Store DB[k] <- v. -/
def dbWrite (d : Memory) (k : Nat) (v : Byte) : Memory := Memory.write dbUnlisted d k v

/-- Store `n` bytes DB[start + t] <- f t. -/
def dbFill (d : Memory) (start n : Nat) (f : Nat → Byte) : Memory :=
  Memory.fill dbUnlisted d start n f

/-- DB[k] as it is read: its value, or a free value of draw `n` if nothing has written it (R212;
log 5). -/
def dbByte (n : Nat) (d : Memory) (k : Nat) : Byte := (dbRead d k).getD (Config.freeByte n k)

/-- The `len` bytes from DB[start] on, as they are read. -/
def dbBytes (n : Nat) (d : Memory) (start len : Nat) : List Byte :=
  (List.range len).map fun t => dbByte n d (start + t)

/-- The indices among the `len` from `start` on whose DB byte nothing has written. -/
def unwritten (d : Memory) (start len : Nat) : List Nat :=
  ((List.range len).map (start + ·)).filter fun k => (dbRead d k).isNone

/-- The faults of a read of the `len` DB bytes from `start` on: one for each byte that nothing has
written, and as many draws taken (R212; log 5). -/
def noteReads (start len : Nat) (s : State) : State :=
  { s with
    faults := (unwritten s.db start len).map .dbByteUnwritten ++ s.faults
    draws := s.draws + (unwritten s.db start len).length }

/-! Draws (spec/93_implementation_defined.md X1 to X4). -/

/-- One of the members of `ks`, chosen by the n-th draw (X4). -/
def pickOne (n : Nat) (ks : List Nat) : Nat := ks.getD (Config.freeIndex n % ks.length) 0

/-- Count a draw as taken, so that the next one is fresh. -/
def takeDraw (s : State) : State := { s with draws := s.draws + 1 }

/-! The map register file (spec/10_state.md R40, spec/40_offset_map.md R115). -/

/-- MAP[k] as a number; an index past the file reads 0 (log 25). -/
def mapEntry (s : State) (k : Nat) : Nat := ((s.mapFile[k]?).getD 0).toNat

/-- `invalidate_map()` of R115. -/
def invalidateMap (s : State) : State :=
  { s with mapFile := Vector.replicate 64 0, mapLen := 0, mapValid := false }

/-- The successful end of R115: MAP[k] <- M[k] or 0, MAP_LEN <- K, MAP_VALID <- 1. -/
def storeMap (M : List Nat) (s : State) : State :=
  { s with
    mapFile := Vector.ofFn fun k => BitVec.ofNat 6 (M.getD k.val 0)
    mapLen := BitVec.ofNat 7 M.length
    mapValid := true }

/-! Completion and its acknowledgement (spec/60_exceptions.md R186, R192). -/

/-- Whether a command is pending: STATUS.BUSY (spec/10_state.md R21, R24). -/
def isBusy (s : State) : Bool :=
  match s.seq with
  | .idle => false
  | .busy _ => true

/-- R186: ERRCODE, ERR_INFO and LAST_CMD are written, BUSY falls, DONE rises, the sequencer is IDLE
and the snapshot is discarded. -/
def finish (l : Snapshot) (code : ErrCode) (info : Word) (s : State) : State :=
  { s with errcode := code, errInfo := info, lastCmd := l.cmd, done := true, seq := .idle }

/-- `complete()` (spec/00_scope.md R13). -/
def complete (l : Snapshot) (s : State) : Result := .next (finish l .none 0 s)

/-- `raise E(info)` (spec/00_scope.md R13): the command ends with E's code and information word. -/
def raise (l : Snapshot) (code : ErrCode) (info : Word) (s : State) : Result :=
  .next (finish l code info s)

/-- The completion step of a command acts on the pending snapshot. With none pending there is nothing
to complete, and the state stays (log 16). -/
def whenPending (s : State) (f : Snapshot → Result) : Result :=
  match s.seq with
  | .idle => .next s
  | .busy l => f l

/-- The host's acknowledgement, the W1C write of spec/10_state.md R24: clear DONE, OVR or both. No
state is restored (R192). -/
def acknowledge (clearDone clearOvr : Bool) (s : State) : State :=
  { s with done := s.done && !clearDone, ovr := s.ovr && !clearOvr }

/-- An information word saturates at 2^32 - 1 (spec/60_exceptions.md R181). -/
def saturate32 (n : Nat) : Word := BitVec.ofNat 32 (min n (2 ^ 32 - 1))

end Sys2Proof.Machine
end

