-- ==== Sys2Proof/Machine/Operands.lean ====
section
/-! DEFINITION. The operands of a command: the snapshot latched at issue (spec/10_state.md R45), the
composite mask (R26), the DB range of a command (spec/42_crc.md R163) and the bits of a bitstream
(spec/00_scope.md R12). -/

namespace Sys2Proof.Machine

/-- MASK = {MASK_HI, MASK_LO} (R26). -/
def maskOf (s : State) : Mask := s.maskHi ++ s.maskLo

/-- The snapshot of the operand registers for command word `w` (R45). -/
def latch (w : Word) (s : State) : Snapshot where
  cmd        := w
  mask       := maskOf s
  stride     := s.stride
  mapWidth   := s.mapWidth
  pbBase     := s.pbBase
  pbLen      := s.pbLen
  startPixel := s.startPixel
  dbAddr     := s.dbAddr
  nbytes     := s.nbytes

/-- The issue of command word `w` (spec/10_state.md R25): the snapshot is latched, BUSY rises and DONE
falls. -/
def issue (w : Word) (s : State) : State := { s with seq := .busy (latch w s), done := false }

/-- The command the pending word selects; an illegal word or no pending command gives none. -/
def pendingCommand (s : State) : Option Instr :=
  match s.seq with
  | .idle => none
  | .busy l =>
    match decode l.cmd with
    | .ok i => some i
    | .error _ => none

/-- `L.DB_ADDR + L.NBYTES`, without wrap: the DB end the command asks for. -/
def dbEnd (l : Snapshot) : Nat := l.dbAddr.toNat + l.nbytes.toNat

/-- The information word of DATA_BOUNDS (spec/60_exceptions.md R181). -/
def dbEndInfo (l : Snapshot) : Word := saturate32 (dbEnd l)

/-- The data of a command, DB[L.DB_ADDR] to DB[L.DB_ADDR + N - 1], as it is read. -/
def dataBytes (s : State) (l : Snapshot) : List Byte :=
  dbBytes s.draws s.db l.dbAddr.toNat l.nbytes.toNat

/-- The faults of reading a command's data (spec/70_reset_and_hazards.md R212). -/
def noteData (l : Snapshot) (s : State) : State := noteReads l.dbAddr.toNat l.nbytes.toNat s

/-- Bit `j` of a byte string read MSB-first (R12). -/
def streamBit (D : List Byte) (j : Nat) : Bool := (D.getD (j / 8) 0).getLsbD (7 - j % 8)

/-- The byte whose bits, MSB-first, are `f 0` to `f 7` (R12). -/
def packByte (f : Nat → Bool) : Byte :=
  (List.range 8).foldl (fun x i => x ||| (BitVec.ofNat 8 (f i).toNat <<< (7 - i))) 0

end Sys2Proof.Machine
end

