-- ==== Sys2Proof/Machine/BitChannel.lean ====
section
/-! DEFINITION. The bit-channel engine: READ_BITS and WRITE_BITS (spec/41_bit_channel.md), with what
is left behind when a bus error or a reset ends one of them (spec/60_exceptions.md R188,
spec/70_reset_and_hazards.md R211). All arithmetic is on naturals (R130). -/

namespace Sys2Proof.Machine

/-! Stream geometry (R130, R131). -/

/-- K = R(MAP_LEN). -/
def mapK (s : State) : Nat := s.mapLen.toNat

/-- nbits = 8·N. -/
def nbits (l : Snapshot) : Nat := 8 * l.nbytes.toNat

/-- p(j), the pixel of stream bit j. -/
def pixelAt (s : State) (l : Snapshot) (j : Nat) : Nat := l.startPixel.toNat + j / mapK s

/-- e(j), the in-pixel bit index of stream bit j. -/
def indexAt (s : State) (j : Nat) : Nat := mapEntry s (j % mapK s)

/-- a(j), the buffer offset of the byte of stream bit j. -/
def offsetAt (s : State) (l : Snapshot) (j : Nat) : Nat :=
  pixelAt s l j * l.stride.toNat + indexAt s j / 8

/-- b(j), the bit within that byte, bit 0 the least significant. -/
def bitAt (s : State) (j : Nat) : Nat := 7 - indexAt s j % 8

/-- A_last = a(nbits - 1), the last offset (R133). -/
def lastOffset (s : State) (l : Snapshot) : Nat := offsetAt s l (nbits l - 1)

/-- The system address of buffer offset k (spec/20_memory.md R63). -/
def pbAddr (l : Snapshot) (k : Nat) : Nat := l.pbBase.toNat + k

/-- The footprint bytes in stream order, one entry per stream bit (R133). -/
def footprintOffsets (s : State) (l : Snapshot) : List Nat :=
  (List.range (nbits l)).map (offsetAt s l)

/-! Checks (R134). -/

/-- What `check_channel()` finds: an error, nothing to do, or that the accesses may begin. -/
inductive ChannelCheck where
  | error (code : ErrCode) (info : Word)
  | nothing
  | access
  deriving DecidableEq, Repr

/-- `check_channel()`: checks 1 to 7 of R134, in that order. -/
def checkChannel (s : State) (l : Snapshot) : ChannelCheck :=
  let st := l.stride.toNat
  if st < 1 ∨ 8 < st then .error .paramInvalid 2
  else if s.mapValid = false then .error .emptyOffsetMap 0
  else if 8 * st ≤ mapEntry s (mapK s - 1) then .error .paramInvalid 3
  else if 2 ^ 32 < l.pbBase.toNat + l.pbLen.toNat then .error .paramInvalid 4
  else if dbSize s < dbEnd l then .error .dataBounds (dbEndInfo l)
  else if l.nbytes.toNat = 0 then .nothing
  else if l.pbLen.toNat ≤ lastOffset s l then .error .boundsExceeded (saturate32 (lastOffset s l))
  else .access

/-! READ_BITS (R137). -/

/-- The pixel bit of stream bit j, `(PBRead(a(j)) >> b(j)) & 1`. -/
def pixelBit (s : State) (l : Snapshot) (j : Nat) : Bool :=
  (sysRead s.mem (pbAddr l (offsetAt s l j))).getLsbD (bitAt s j)

/-- out[t], the byte that stream bits 8t to 8t + 7 fill MSB-first. -/
def readByte (s : State) (l : Snapshot) (t : Nat) : Byte :=
  packByte fun i => pixelBit s l (8 * t + i)

/-- The footprint offsets whose read the platform fails. -/
def failingReads (s : State) (l : Snapshot) : List Nat :=
  (footprintOffsets s l).filter fun k => busError s.params (pbAddr l k) .read

/-- The DB output range of a READ_BITS that did not complete normally: each byte of it that exists
is a free value and counts as written (R188, R211, R212). -/
def scrambleDb (l : Snapshot) (s : State) : State :=
  takeDraw { s with
    db := dbFill s.db l.dbAddr.toNat (min l.nbytes.toNat (dbSize s - l.dbAddr.toNat))
      (Config.freeByte s.draws) }

/-- READ_BITS (R137), BUS_ERROR as in R188. -/
def execReadBits (s : State) : Result :=
  whenPending s fun l =>
    match checkChannel s l with
    | .error code info => raise l code info s
    | .nothing => complete l s
    | .access =>
      match failingReads s l with
      | [] => complete l { s with db := dbFill s.db l.dbAddr.toNat l.nbytes.toNat (readByte s l) }
      | k :: r => raise l .busError (BitVec.ofNat 32 (pickOne s.draws (k :: r))) (scrambleDb l s)

/-! WRITE_BITS (R140). -/

/-- The footprint offsets whose read or write the platform fails; the pseudocode of R140 does both at
every stream bit (log 14). -/
def failingWrites (s : State) (l : Snapshot) : List Nat :=
  (footprintOffsets s l).filter fun k =>
    busError s.params (pbAddr l k) .read || busError s.params (pbAddr l k) .write

/-- The loop of R140 over stream bits 0 to n - 1, for data bits `d`. -/
def writeStream (s : State) (l : Snapshot) (d : Nat → Bool) (n : Nat) : Memory :=
  (List.range n).foldl
    (fun m j => sysSetBit m (pbAddr l (offsetAt s l j)) (bitAt s j) (d j)) s.mem

/-- D(j) of R141. -/
def dataBit (s : State) (l : Snapshot) (j : Nat) : Bool := streamBit (dataBytes s l) j

/-- What a WRITE_BITS that did not complete normally leaves: each footprint bit is its old value or its
data bit, by a free bit (R188, R211). Its whole data counts as read (R212; logs 13, 15). -/
def scramblePb (l : Snapshot) (s : State) : State :=
  takeDraw (noteData l { s with
    mem := writeStream s l
      (fun j => if Config.freeBit s.draws j then dataBit s l j else pixelBit s l j) (nbits l) })

/-- WRITE_BITS (R140), BUS_ERROR as in R188. A data byte that holds no value is read as a free value,
with a recorded fault (R212). -/
def execWriteBits (s : State) : Result :=
  whenPending s fun l =>
    match checkChannel s l with
    | .error code info => raise l code info s
    | .nothing => complete l s
    | .access =>
      match failingWrites s l with
      | [] => complete l (noteData l { s with mem := writeStream s l (dataBit s l) (nbits l) })
      | k :: r => raise l .busError (BitVec.ofNat 32 (pickOne s.draws (k :: r))) (scramblePb l s)

end Sys2Proof.Machine
end

