-- ==== Sys2Proof/Machine/Crc.lean ====
section
/-! DEFINITION. The CRC unit: CRC_INIT, CRC_UPDATE and CRC_COMPUTE (spec/42_crc.md). The parameters of
R160 are the spec's own general knowledge (log 27). -/

namespace Sys2Proof.Machine

/-- poly, the normal form of R160. -/
def crcPoly : Word := 0x04C11DB7#32

/-- init of R160. -/
def crcInitValue : Word := 0x00000000#32

/-- xorout of R160. -/
def crcXorOut : Word := 0xFFFFFFFF#32

/-- One of the eight rounds of `CrcStep` (R161). -/
def crcRound (c : Word) : Word :=
  if c.getLsbD 31 then (c <<< 1) ^^^ crcPoly else c <<< 1

/-- `n` rounds. -/
def crcRounds : Nat → Word → Word
  | 0, c => c
  | n + 1, c => crcRounds n (crcRound c)

/-- `CrcStep(c, x)` (R161). -/
def crcStep (c : Word) (x : Byte) : Word := crcRounds 8 (c ^^^ (x.setWidth 32 <<< 24))

/-- `CrcFeed(c, D)` (R161). -/
def crcFeed (c : Word) (D : List Byte) : Word := D.foldl crcStep c

/-- `CKSUM(D)` (R162). -/
def cksum (D : List Byte) : Word := crcFeed crcInitValue D ^^^ crcXorOut

/-- CRC_VALUE (spec/10_state.md R35). -/
def crcValue (s : State) : Word := s.crcState ^^^ crcXorOut

/-- The common part of R165 and R166: the check of R163, then the DB bytes fed from `c`. A byte that
holds no value is fed as a free value, with a recorded fault (spec/70_reset_and_hazards.md R212). -/
def feedDb (c : Word) (l : Snapshot) (s : State) : Result :=
  if dbSize s < dbEnd l then raise l .dataBounds (dbEndInfo l) s
  else complete l (noteData l { s with crcState := crcFeed c (dataBytes s l) })

/-- CRC_INIT (R164). -/
def execCrcInit (s : State) : Result :=
  whenPending s fun l => complete l { s with crcState := crcInitValue }

/-- CRC_UPDATE (R165). -/
def execCrcUpdate (s : State) : Result :=
  whenPending s fun l => feedDb s.crcState l s

/-- CRC_COMPUTE (R166). -/
def execCrcCompute (s : State) : Result :=
  whenPending s fun l => feedDb crcInitValue l s

end Sys2Proof.Machine
end

