-- ==== Sys2Proof/Machine/MapUnit.lean ====
section
/-! DEFINITION. The map unit: MAP_BUILD (spec/40_offset_map.md). -/

namespace Sys2Proof.Machine

/-- `OffsetMapOf(mask, w)` (R110): the in-pixel indices below `w` that the mask flags, ascending;
index `i` is flagged by mask bit 63 - i. -/
def offsetMapOf (mask : Mask) (w : Nat) : List Nat :=
  (List.range w).filter fun i => mask.getLsbD (63 - i)

/-- `AllBits(s)` (R116): mask bits 63 down to 64 - 8s set, the others clear. -/
def allBits (s : Nat) : Mask := BitVec.ofNat 64 ((2 ^ (8 * s) - 1) * 2 ^ (64 - 8 * s))

/-- MAP_BUILD (R114, R115). -/
def execMapBuild (s : State) : Result :=
  whenPending s fun l =>
    let w := l.mapWidth.toNat
    if 64 < w then raise l .paramInvalid 1 (invalidateMap s)
    else
      match offsetMapOf l.mask w with
      | [] => raise l .emptyOffsetMap (BitVec.ofNat 32 w) (invalidateMap s)
      | i :: r => complete l (storeMap (i :: r) s)

end Sys2Proof.Machine
end

