-- ==== Sys2Proof/Machine/Dispatch.lean ====
section
/-! DEFINITION. One arm per command of spec/opcode_table.json: the completion step of that command. -/

namespace Sys2Proof.Machine

def exec (i : Instr) (s : State) : Host.Outcome State Fault Refusal :=
  match i with
  | .mapBuild => Sys2Proof.Machine.execMapBuild s
  | .readBits => Sys2Proof.Machine.execReadBits s
  | .writeBits => Sys2Proof.Machine.execWriteBits s
  | .crcInit => Sys2Proof.Machine.execCrcInit s
  | .crcUpdate => Sys2Proof.Machine.execCrcUpdate s
  | .crcCompute => Sys2Proof.Machine.execCrcCompute s

end Sys2Proof.Machine
end

