-- ==== Sys2Proof/Machine/Flags.lean ====
section
/-! DEFINITION. The fields of CTRL and STATUS as software reads them (spec/10_state.md R23, R24), the
error code numbers (spec/60_exceptions.md R180), and the interrupt output (R190). -/

namespace Sys2Proof.Machine

/-- The code of an error (R180). -/
def ErrCode.bits : ErrCode → BitVec 3
  | .none => 0#3
  | .emptyOffsetMap => 1#3
  | .boundsExceeded => 2#3
  | .paramInvalid => 3#3
  | .illegalCommand => 4#3
  | .dataBounds => 5#3
  | .busError => 6#3

/-- STATUS.ERR reads 1 exactly when ERRCODE is not 0 (spec/10_state.md R24). -/
def errFlag (s : State) : Bool := s.errcode.bits != 0#3

/-- STATUS as read, but for its MAP_VALID bit, which is the argument `mv`: bits 31:11 reserved, 10:8
ERRCODE, 7:5 reserved, 4 MAP_VALID, 3 OVR, 2 ERR, 1 DONE, 0 BUSY (R24). -/
def statusWordWith (mv : Bool) (s : State) : Word :=
  0#21 ++ s.errcode.bits ++ 0#3 ++ BitVec.ofBool mv ++ BitVec.ofBool s.ovr ++
    BitVec.ofBool (errFlag s) ++ BitVec.ofBool s.done ++ BitVec.ofBool (isBusy s)

/-- STATUS as read outside a MAP_BUILD (R24). -/
def statusWord (s : State) : Word := statusWordWith s.mapValid s

/-- CTRL as read: bit 0 is IE, SOFT_RESET and the reserved bits read 0 (R23). -/
def ctrlWord (s : State) : Word := 0#31 ++ BitVec.ofBool s.ie

/-- The level-sensitive interrupt output, IE and DONE (R190, spec/10_state.md R49). -/
def irq (s : State) : Bool := s.ie && s.done

end Sys2Proof.Machine
end

