-- ==== Sys2Proof/Machine/Reset.lean ====
section
/-! DEFINITION. Soft reset and power-on reset, and what an aborted command leaves behind
(spec/70_reset_and_hazards.md R210 to R212, spec/10_state.md R50). -/

namespace Sys2Proof.Machine

/-- What the abort of the pending command leaves in DB and in the pixel buffer (R211): a READ_BITS its
DB output range (log 11), a WRITE_BITS whose checks pass its footprint bits (log 12), any other
command nothing. -/
def abortEffect (s : State) : State :=
  match s.seq, pendingCommand s with
  | .busy l, some .readBits => scrambleDb l s
  | .busy l, some .writeBits =>
    match checkChannel s l with
    | .access => scramblePb l s
    | .nothing => s
    | .error _ _ => s
  | _, _ => s

/-- Every piece of block state but DB at its reset value (R50); DB, system memory, the parameters and
the model's own fields as they were. -/
def clearBlock (s : State) : State :=
  { State.reset with
    params := s.params, db := s.db, mem := s.mem, inputs := s.inputs, replies := s.replies,
    faults := s.faults, draws := s.draws }

/-- Soft reset (R211): the pending command is aborted, every register takes its soft-reset value. -/
def softReset (s : State) : State := clearBlock (abortEffect s)

/-- Power-on reset (R210): as a soft reset, and no DB byte holds a value any more (R212). -/
def powerOnReset (s : State) : State := { softReset s with db := [] }

end Sys2Proof.Machine
end

