-- ==== Sys2Proof/Machine/Registers.lean ====
section
/-! DEFINITION. The register file as the host sees it: the register map of spec/10_state.md, what a
read returns (R22 to R42, R44) and what a write does (R23 to R33, R42, R43). -/

namespace Sys2Proof.Machine

/-- The registers of the register map; `reserved` is an offset that names none (R41). -/
inductive Reg where
  | id
  | ctrl
  | status
  | cmd
  | maskLo
  | maskHi
  | stride
  | mapWidth
  | pbBase
  | pbLen
  | startPixel
  | dbAddr
  | nbytes
  | crcState
  | crcValue
  | dbSize
  | mapLen
  | errInfo
  | lastCmd
  | mapAt (k : Nat)
  | reserved
  deriving DecidableEq, Repr

/-- The register at a word offset of the register space (the register map, R41). -/
def regAt (off : Nat) : Reg :=
  if off = 0x000 then .id
  else if off = 0x004 then .ctrl
  else if off = 0x008 then .status
  else if off = 0x00C then .cmd
  else if off = 0x010 then .maskLo
  else if off = 0x014 then .maskHi
  else if off = 0x018 then .stride
  else if off = 0x01C then .mapWidth
  else if off = 0x020 then .pbBase
  else if off = 0x024 then .pbLen
  else if off = 0x028 then .startPixel
  else if off = 0x02C then .dbAddr
  else if off = 0x030 then .nbytes
  else if off = 0x034 then .crcState
  else if off = 0x038 then .crcValue
  else if off = 0x03C then .dbSize
  else if off = 0x040 then .mapLen
  else if off = 0x044 then .errInfo
  else if off = 0x048 then .lastCmd
  else if 0x100 ≤ off ∧ off < 0x200 then .mapAt ((off - 0x100) / 4)
  else .reserved

/-- ID reads this constant, "IHM" and revision 1 (R22). -/
def idValue : Word := 0x49484D01#32

/-- The current value of a register (R22 to R42). -/
def regValue (r : Reg) (s : State) : Word :=
  match r with
  | .id => idValue
  | .ctrl => ctrlWord s
  | .status => statusWord s
  | .cmd => 0
  | .maskLo => s.maskLo
  | .maskHi => s.maskHi
  | .stride => s.stride.setWidth 32
  | .mapWidth => s.mapWidth.setWidth 32
  | .pbBase => s.pbBase
  | .pbLen => s.pbLen
  | .startPixel => s.startPixel
  | .dbAddr => s.dbAddr
  | .nbytes => s.nbytes
  | .crcState => s.crcState
  | .crcValue => crcValue s
  | .dbSize => BitVec.ofNat 32 (dbSize s)
  | .mapLen => s.mapLen.setWidth 32
  | .errInfo => s.errInfo
  | .lastCmd => s.lastCmd
  | .mapAt k => BitVec.ofNat 32 (mapEntry s k)
  | .reserved => 0

/-- Whether a command writes a register as a whole, in the list of R44. -/
def commandWrites (i : Instr) (r : Reg) : Bool :=
  match i, r with
  | .mapBuild, .mapLen => true
  | .mapBuild, .mapAt _ => true
  | .crcInit, .crcState => true
  | .crcInit, .crcValue => true
  | .crcUpdate, .crcState => true
  | .crcUpdate, .crcValue => true
  | .crcCompute, .crcState => true
  | .crcCompute, .crcValue => true
  | _, _ => false

/-- Hand the host a reply. -/
def answer (r : Reply) (s : State) : State := { s with replies := r :: s.replies }

/-- A host read of a register. A register the pending command writes answers a free value (R44); a
STATUS read while a MAP_BUILD is pending answers the current word with a free MAP_VALID bit
(log 9). -/
def readRegister (r : Reg) (s : State) : State :=
  match pendingCommand s with
  | none => answer (.data (regValue r s)) s
  | some i =>
    if commandWrites i r then
      answer (.data (Config.freeWord s.draws)) (takeDraw s)
    else if i = .mapBuild ∧ r = .status then
      answer (.data (statusWordWith (Config.freeBit s.draws 0) s)) (takeDraw s)
    else answer (.data (regValue r s)) s

/-- A host write of CTRL (R23): SOFT_RESET, or else IE is stored. -/
def writeCtrl (v : Word) (s : State) : State :=
  if v.getLsbD 1 then softReset s else { s with ie := v.getLsbD 0 }

/-- A host write of CMD (R25): issue while IDLE, drop and set OVR while BUSY. -/
def writeCmd (v : Word) (s : State) : State :=
  if isBusy s then { s with ovr := true } else issue v s

/-- A host write of a register (R42): an operand register stores the bits its field has, a read-only
or reserved register ignores the write. -/
def writeRegister (r : Reg) (v : Word) (s : State) : State :=
  match r with
  | .id => s
  | .ctrl => writeCtrl v s
  | .status => acknowledge (v.getLsbD 1) (v.getLsbD 3) s
  | .cmd => writeCmd v s
  | .maskLo => { s with maskLo := v }
  | .maskHi => { s with maskHi := v }
  | .stride => { s with stride := v.setWidth 4 }
  | .mapWidth => { s with mapWidth := v.setWidth 7 }
  | .pbBase => { s with pbBase := v }
  | .pbLen => { s with pbLen := v }
  | .startPixel => { s with startPixel := v }
  | .dbAddr => { s with dbAddr := v }
  | .nbytes => { s with nbytes := v }
  | .crcState => s
  | .crcValue => s
  | .dbSize => s
  | .mapLen => s
  | .errInfo => s
  | .lastCmd => s
  | .mapAt _ => s
  | .reserved => s

end Sys2Proof.Machine
end

