-- ==== Sys2Proof/Machine/HostPort.lean ====
section
/-! DEFINITION. The host's accesses: to the register space and the DB window (spec/20_memory.md R60
to R62, R66, R67) and to system memory (R74). -/

namespace Sys2Proof.Machine

/-- The block offset of DB[0] (R61). -/
def windowBase : Nat := 0x10000

/-- Whether an offset lies in the DB window (R60). -/
def inWindow (off : Offset) : Bool := decide (windowBase ≤ off.toNat)

/-- Whether the block supports an access: a register access is an aligned 32-bit word (R66), a
DB-window access is naturally aligned (R67). -/
def supported (w : Width) (off : Offset) : Bool :=
  if inWindow off then decide (off.toNat % w.bytes = 0)
  else decide (w = .word) && decide (off.toNat % 4 = 0)

/-- An unsupported access: a bus error response, a recorded fault, no effect on the block (R66, R67;
log 6). -/
def rejectAccess (w : Width) (off : Offset) (s : State) : State :=
  answer .busError { s with faults := .unsupported w off :: s.faults }

/-- The DB byte a window access sees at index k: 0 past DB_SIZE, a free value if DB[k] holds none (R61,
R62, spec/70_reset_and_hazards.md R212). -/
def windowByte (s : State) (k : Nat) : Byte :=
  if k < dbSize s then dbByte s.draws s.db k else 0

/-- The little-endian lanes of a window read of `n` bytes, DB[k + i] in bits 8i+7 to 8i (R62). -/
def windowRead (s : State) : Nat → Nat → Nat
  | _, 0 => 0
  | k, n + 1 => (windowByte s k).toNat + 256 * windowRead s (k + 1) n

/-- A window write of the low `n` bytes of `v`: bits 8i+7 to 8i go to DB[k + i], bytes past DB_SIZE
are ignored (R61, R62). -/
def windowWrite (s : State) (k n : Nat) (v : Word) : Memory :=
  dbFill s.db k (min n (dbSize s - k)) fun i => v.extractLsb' (8 * i) 8

/-- A host read of the block's window. -/
def hostRead (w : Width) (off : Offset) (s : State) : Result :=
  if supported w off = false then .next (rejectAccess w off s)
  else if inWindow off then
    let k := off.toNat - windowBase
    .next (answer (.data (BitVec.ofNat 32 (windowRead s k w.bytes)))
      (noteReads k (min w.bytes (dbSize s - k)) s))
  else .next (readRegister (regAt off.toNat) s)

/-- A host write to the block's window. -/
def hostWrite (w : Width) (off : Offset) (v : Word) (s : State) : Result :=
  if supported w off = false then .next (rejectAccess w off s)
  else if inWindow off then
    .next { s with db := windowWrite s (off.toNat - windowBase) w.bytes v }
  else .next (writeRegister (regAt off.toNat) v s)

/-- Whether the block owns a system address: it lies in the pixel buffer of a pending READ_BITS or
WRITE_BITS (R74). -/
def ownsAddress (s : State) (a : Nat) : Bool :=
  match s.seq, pendingCommand s with
  | .busy l, some .readBits =>
    decide (l.pbBase.toNat ≤ a ∧ a < l.pbBase.toNat + l.pbLen.toNat)
  | .busy l, some .writeBits =>
    decide (l.pbBase.toNat ≤ a ∧ a < l.pbBase.toNat + l.pbLen.toNat)
  | _, _ => false

/-- The host's own read of a byte of system memory; in an owned pixel buffer a fault is recorded and no
value returned (R74). -/
def hostMemRead (a : Word) (s : State) : Result :=
  if ownsAddress s a.toNat then
    .next (answer .noValue { s with faults := .bufferOwned a :: s.faults })
  else .next (answer (.data ((sysRead s.mem a.toNat).setWidth 32)) s)

/-- The host's own write of a byte of system memory; in an owned pixel buffer a fault is recorded, and
the byte is a free value, since the spec gives the access no effect (R74; log 8). -/
def hostMemWrite (a : Word) (v : Byte) (s : State) : Result :=
  if ownsAddress s a.toNat then
    .next (takeDraw { s with
      mem := sysWrite s.mem a.toNat (Config.freeByte s.draws 0)
      faults := .bufferOwned a :: s.faults })
  else .next { s with mem := sysWrite s.mem a.toNat v }

end Sys2Proof.Machine
end

