-- ==== Sys2Proof/Machine/Sequencer.lean ====
section
/-! DEFINITION. Whose turn it is and what the turn does: the block's completion step
(spec/60_exceptions.md R183, R186, R198) and the acts of the host and the platform. -/

namespace Sys2Proof.Machine

/-- The completion of an illegal word: ILLEGAL_COMMAND with the word, and no other effect
(spec/30_encoding.md R93, spec/60_exceptions.md R183). -/
def execIllegal (l : Snapshot) (s : State) : Result := raise l .illegalCommand l.cmd s

/-- The block's turn: the completion of the pending command, the word decoded first (R183). IDLE, the
block waits (spec/70_reset_and_hazards.md R210). -/
def blockStep (s : State) : Result :=
  match s.seq with
  | .idle => .next s
  | .busy l =>
    match decode l.cmd with
    | .ok i => exec i s
    | .error _ => execIllegal l s

/-- The state without the event at the head of `inputs`. -/
def popInput (s : State) : State := { s with inputs := s.inputs.tail }

/-- Whether an event is an access to the DB window, which is held while BUSY (spec/20_memory.md R78;
log 7). -/
def touchesWindow : Event → Bool
  | .block => false
  | .read _ off => inWindow off
  | .write _ off _ => inWindow off
  | .memRead _ => false
  | .memWrite _ _ => false
  | .powerOn => false

/-- What an event does. -/
def act (e : Event) (s : State) : Result :=
  match e with
  | .block => blockStep s
  | .read w off => hostRead w off s
  | .write w off v => hostWrite w off v s
  | .memRead a => hostMemRead a s
  | .memWrite a v => hostMemWrite a v s
  | .powerOn => .next (powerOnReset s)

/-- One step: the event at the head of `inputs` is taken and acts. With no event the block has the
turn; a DB-window access while BUSY stays queued and the block has the turn (R78). -/
def turn (s : State) : Result :=
  match s.inputs with
  | [] => blockStep s
  | e :: _ => if touchesWindow e && isBusy s then blockStep s else act e (popInput s)

end Sys2Proof.Machine
end

