-- ==== Sys2Proof/Machine/Step.lean ====
section
/-! DEFINITION. One step of the machine, and how a command word is placed where the next step completes
it. -/

namespace Sys2Proof.Machine

/-- One step. -/
def step (s : State) : Host.Outcome State Fault Refusal := turn s

/-- The word `w` of `nbits` bits as the pending command, issued from the current operand registers as
the host's CMD write does (spec/10_state.md R25), with the block's turn next. With no event queued
the block has the turn anyway; else its turn is put first (log 17). -/
def State.withFetchWord (s : State) (nbits w : Nat) : State :=
  { issue (BitVec.ofNat 32 (w % 2 ^ nbits)) s with
    inputs := match s.inputs with
      | [] => []
      | e :: r => .block :: e :: r }

end Sys2Proof.Machine
end

