-- ==== Sys2Proof/WellFormed.lean ====
section
/-! DEFINITION. What makes a command word legal (spec/30_encoding.md R93), one check per way of being
illegal, and when an instruction is well formed. These checks are written with arithmetic on the
word's value, apart from the decoder's own fields, so that a statement can hold the two together. -/

namespace Sys2Proof

/-- R93: no bit of RSVD, bits 31:4, is 1. -/
def reservedBitsClear (w : Word) : Bool := decide (w.toNat / 16 = 0)

/-- R93: OP, bits 3:0, is not 0x0. -/
def opNotZero (w : Word) : Bool := decide (w.toNat % 16 ≠ 0)

/-- R93: OP is not one of 0x7 to 0xF. -/
def opAssigned (w : Word) : Bool := decide (w.toNat % 16 ≤ 6)

/-- A legal command word: every check of R93 holds. -/
def legalWord (w : Word) : Bool := reservedBitsClear w && opNotZero w && opAssigned w

/-- A command has no operand, so no instruction of this hardware is ill formed (R90, R91). -/
def Instr.wellFormed : Instr → Bool
  | .mapBuild => true
  | .readBits => true
  | .writeBits => true
  | .crcInit => true
  | .crcUpdate => true
  | .crcCompute => true

end Sys2Proof
end

