-- ==== Sys2Proof/Safety.lean ====
section
/-! DEFINITION. The terms claims are stated in: the invariant of the machine, when the inputs of a
command are there to be read, and when a step is safe. -/

namespace Sys2Proof.Machine

/-- The map register file (spec/10_state.md R37, R40, spec/40_offset_map.md R112, R113): no valid map
means length 0 and all entries 0; a valid one has 1 to 64 entries, strictly ascending, and 0 behind
them. -/
def MapOk (s : State) : Prop :=
  (s.mapValid = false → s.mapLen = 0 ∧ ∀ k, mapEntry s k = 0) ∧
  (s.mapValid = true → 1 ≤ mapK s ∧ mapK s ≤ 64 ∧
    (∀ i j, i < j → j < mapK s → mapEntry s i < mapEntry s j) ∧
    ∀ k, mapK s ≤ k → mapEntry s k = 0)

/-- ERR_INFO and LAST_CMD agree with ERRCODE as the columns "raised by" of R180 and "ERR_INFO" of R181
say (spec/60_exceptions.md); LAST_CMD is a command word, an illegal word, or its reset value 0. -/
def ErrorOk (s : State) : Prop :=
  match s.errcode with
  | .none => s.errInfo = 0 ∧ (s.lastCmd = 0 ∨ ∃ i, s.lastCmd = encode i)
  | .emptyOffsetMap => s.errInfo.toNat ≤ 64 ∧
      (s.lastCmd = encode .mapBuild ∨
        (s.errInfo = 0 ∧ (s.lastCmd = encode .readBits ∨ s.lastCmd = encode .writeBits)))
  | .boundsExceeded => s.lastCmd = encode .readBits ∨ s.lastCmd = encode .writeBits
  | .paramInvalid =>
      (s.errInfo = 1 ∧ s.lastCmd = encode .mapBuild) ∨
      ((s.errInfo = 2 ∨ s.errInfo = 3 ∨ s.errInfo = 4) ∧
        (s.lastCmd = encode .readBits ∨ s.lastCmd = encode .writeBits))
  | .illegalCommand => s.errInfo = s.lastCmd ∧ legalWord s.lastCmd = false
  | .dataBounds => dbSize s < s.errInfo.toNat ∧
      (s.lastCmd = encode .readBits ∨ s.lastCmd = encode .writeBits ∨
        s.lastCmd = encode .crcUpdate ∨ s.lastCmd = encode .crcCompute)
  | .busError => s.lastCmd = encode .readBits ∨ s.lastCmd = encode .writeBits

/-- The invariant every step keeps. -/
structure BlockInv (s : State) : Prop where
  /-- System memory is in its canonical form and inside the 32-bit address space. -/
  mem : Memory.wf (some sysUnlisted) sysSize s.mem
  /-- DB is in its canonical form and inside `DB_SIZE` bytes. -/
  db : Memory.wf dbUnlisted (dbSize s) s.db
  /-- The map register file is one valid map or cleared. -/
  map : MapOk s
  /-- DONE is clear while a command is pending (spec/10_state.md R25). -/
  busy : isBusy s = true → s.done = false
  /-- The error registers belong to one completion. -/
  error : ErrorOk s

/-- The byte string `D` stands in DB from index `start` on. -/
def DbHolds (d : Memory) (start : Nat) (D : List Byte) : Prop :=
  ∀ t, t < D.length → dbRead d (start + t) = D[t]?

/-- The platform fails no master access of this kind at a footprint byte of the command. -/
def BusQuiet (s : State) (l : Snapshot) (kind : Config.AccessKind) : Prop :=
  ∀ j, j < nbits l → busError s.params (pbAddr l (offsetAt s l j)) kind = false

/-- Every DB byte that WRITE_BITS, CRC_UPDATE or CRC_COMPUTE would read has been written
(spec/70_reset_and_hazards.md R212, R213). -/
def DbWritten (s : State) (l : Snapshot) : Prop :=
  ∀ t, t < l.nbytes.toNat → dbRead s.db (l.dbAddr.toNat + t) ≠ none

/-- The faults between two states are those of reading the `len` DB bytes from `start` on: one or more
for each of them that nothing has written, none for another byte, none taken away
(spec/70_reset_and_hazards.md R212). -/
def RecordsReads (s t : State) (start len : Nat) : Prop :=
  ∃ new, t.faults = new ++ s.faults ∧ ∀ f, f ∈ new ↔
    ∃ k, f = .dbByteUnwritten k ∧ start ≤ k ∧ k < start + len ∧ dbRead s.db k = none

/-- Every bit of system memory has its old value, or is a footprint bit and has its data bit, any value
where nothing has written the data byte (spec/60_exceptions.md R188, spec/70_reset_and_hazards.md
R211). -/
def FootprintOldOrData (s t : State) (l : Snapshot) : Prop :=
  ∀ a c, c < 8 → (sysRead t.mem a).getLsbD c = (sysRead s.mem a).getLsbD c ∨
    ∃ j, j < nbits l ∧ a = pbAddr l (offsetAt s l j) ∧ c = bitAt s j ∧
      ∀ b, dbRead s.db (l.dbAddr.toNat + j / 8) = some b →
        (sysRead t.mem a).getLsbD c = b.getLsbD (7 - j % 8)

/-- Checks 1 to 5 and 7 of spec/41_bit_channel.md R134 pass and there is something to transfer: a
READ_BITS or WRITE_BITS goes on to its accesses. -/
structure ChannelReady (s : State) (l : Snapshot) : Prop where
  stride_pos : 1 ≤ l.stride.toNat
  stride_le : l.stride.toNat ≤ 8
  valid : s.mapValid = true
  fits : mapEntry s (mapK s - 1) < 8 * l.stride.toNat
  noWrap : l.pbBase.toNat + l.pbLen.toNat ≤ 2 ^ 32
  dbFits : l.dbAddr.toNat + l.nbytes.toNat ≤ dbSize s
  bytes : l.nbytes.toNat ≠ 0
  inBuffer : lastOffset s l < l.pbLen.toNat

/-- The operand registers (spec/10_state.md R26 to R33) with their offsets and the widths of their
fields. -/
def operandRegisters : List (Offset × Nat) :=
  [(0x010#17, 32), (0x014#17, 32), (0x018#17, 4), (0x01C#17, 7), (0x020#17, 32), (0x024#17, 32),
    (0x028#17, 32), (0x02C#17, 32), (0x030#17, 32)]

/-- `s` with the operand registers of `o`. -/
def copyOperands (o s : State) : State :=
  { s with
    maskLo := o.maskLo, maskHi := o.maskHi, stride := o.stride, mapWidth := o.mapWidth,
    pbBase := o.pbBase, pbLen := o.pbLen, startPixel := o.startPixel, dbAddr := o.dbAddr,
    nbytes := o.nbytes }

/-- A safe step: the machine goes on and records no fault. -/
def SafeStep (s : State) : Prop := ∃ t, step s = .next t ∧ t.faults = s.faults

/-- `n` steps from `s`, each to a next state, end in `t`. -/
def RunsTo : Nat → State → State → Prop
  | 0, s, t => s = t
  | n + 1, s, t => ∃ u, step s = .next u ∧ RunsTo n u t

end Sys2Proof.Machine
end

