-- ==== Sys2Proof/Certificates/Slice0/Obligations.lean ====
section
/-! DEFINITION. The statements about the IHM codec block for the provers. Each docstring names the rule
of spec/ it formalises. Statements are about every state; where one could fail only in states no run
reaches it assumes `BlockInv`, which `StepKeepsInvariant` and `ResetMeetsInvariant` are about. -/

open Sys2Proof Sys2Proof.Machine

/-! Encoding. -/

/-- R92: three command words of the table, written bit by bit, and two illegal words (R93). -/
def Obligations.CommandWordsDecodeAsTabulated : Prop :=
  decode 0b00000000000000000000000000000001#32 = .ok .mapBuild ∧
  decode 0b00000000000000000000000000000011#32 = .ok .writeBits ∧
  decode 0b00000000000000000000000000000101#32 = .ok .crcUpdate ∧
  decode 0b00000000000000000000000000000000#32 = .error .reservedOp ∧
  decode 0b00000000000000000000000000010001#32 = .error .reservedBitSet

/-- R92, R93, R94: every instruction's word is legal and decodes to it; the decoder takes exactly the
legal words, it gives each the instruction that encodes to it, and it rejects every other word. -/
def Obligations.DecoderAcceptsExactlyLegalWords : Prop :=
  (∀ i : Instr, i.wellFormed = true →
    legalWord (encode i) = true ∧ decode (encode i) = .ok i) ∧
  ∀ w : Word,
    (legalWord w = true → ∃ i, decode w = .ok i ∧ encode i = w ∧
      decodeTableWord 32 w.toNat = some i) ∧
    (legalWord w = false → (∃ e, decode w = .error e) ∧ decodeTableWord 32 w.toNat = none)

/-! Stepping. -/

/-- R183, R198, R78: when a command is pending and its word decodes, the block's turn is that
command's meaning: with no event queued, with a `block` event at the head (which is taken first), and
with a held DB-window access at the head (which stays). A word placed by `withFetchWord` is run so. -/
def Obligations.StepRunsDecodedCommand : Prop :=
  (∀ (s : State) (l : Snapshot) (i : Instr), s.seq = .busy l → decode l.cmd = .ok i →
    (s.inputs = [] → step s = exec i s) ∧
    (∀ r, s.inputs = .block :: r → step s = exec i { s with inputs := r }) ∧
    (∀ e r, s.inputs = e :: r → touchesWindow e = true → step s = exec i s)) ∧
  (∀ (s : State) (w : Nat) (i : Instr), s.inputs = [] → decodeTableWord 32 w = some i →
    step (s.withFetchWord 32 w) = exec i (s.withFetchWord 32 w))

/-- R78: a DB-window access at the head of the host's acts while BUSY is held. The step is the
completion, after it the access is still there, and the next step performs it on the DB of the
completed state. That a misaligned access is held too, and gets its bus error (R67) only then, is the
model's reading (log 7). -/
def Obligations.DbAccessHeldUntilCompletion : Prop :=
  ∀ (s t : State) (e : Event) (r : List Event), isBusy s = true → s.inputs = e :: r →
    touchesWindow e = true → step s = .next t →
    blockStep s = .next t ∧ isBusy t = false ∧ t.inputs = e :: r ∧
      step t = act e { t with inputs := r }

/-! The register file. -/

/-- R22: ID reads its constant, and writes are ignored. -/
def Obligations.IdRegisterIsConstant : Prop :=
  ∀ (s : State) (v : Word),
    hostRead .word 0x000#17 s = .next { s with replies := .data 0x49484D01#32 :: s.replies } ∧
    hostWrite .word 0x000#17 v s = .next s ∧
    (0x49484D01#32).extractLsb' 24 8 = 0x49#8 ∧ (0x49484D01#32).extractLsb' 16 8 = 0x48#8 ∧
    (0x49484D01#32).extractLsb' 8 8 = 0x4D#8 ∧ (0x49484D01#32).extractLsb' 0 8 = 0x01#8

/-- R23: CTRL reads IE in bit 0 and 0 elsewhere. A write with SOFT_RESET = 0 stores IE and does nothing
else; one with SOFT_RESET = 1 performs the soft reset, whatever its bit 0. Both hold while BUSY. -/
def Obligations.CtrlWriteStoresIeOrResets : Prop :=
  ∀ (s : State) (v : Word),
    (∃ x : Word, hostRead .word 0x004#17 s = .next { s with replies := .data x :: s.replies } ∧
      x.getLsbD 0 = s.ie ∧ ∀ i, 1 ≤ i → x.getLsbD i = false) ∧
    (v.getLsbD 1 = false →
      hostWrite .word 0x004#17 v s = .next { s with ie := v.getLsbD 0 }) ∧
    (v.getLsbD 1 = true → hostWrite .word 0x004#17 v s = .next (softReset s) ∧
      (softReset s).ie = false)

/-- R24, R180: the fields of STATUS as read outside a MAP_BUILD, the reserved bits 0, and the W1C write
of DONE and OVR, which changes nothing else. -/
def Obligations.StatusRegisterShowsFlags : Prop :=
  ∀ (s : State) (v : Word),
    (pendingCommand s ≠ some .mapBuild →
      ∃ x : Word, hostRead .word 0x008#17 s = .next { s with replies := .data x :: s.replies } ∧
        x.getLsbD 0 = isBusy s ∧ x.getLsbD 1 = s.done ∧
        (x.getLsbD 2 = true ↔ s.errcode ≠ .none) ∧ x.getLsbD 3 = s.ovr ∧
        x.getLsbD 4 = s.mapValid ∧ x.toNat / 32 % 8 = 0 ∧ x.toNat / 2048 = 0 ∧
        x.toNat / 256 % 8 = match s.errcode with
          | .none => 0
          | .emptyOffsetMap => 1
          | .boundsExceeded => 2
          | .paramInvalid => 3
          | .illegalCommand => 4
          | .dataBounds => 5
          | .busError => 6) ∧
    hostWrite .word 0x008#17 v s = .next { s with
      done := s.done && !v.getLsbD 1, ovr := s.ovr && !v.getLsbD 3 }

/-- R25: CMD reads 0. A write while IDLE issues the word, any word, with the snapshot of the operand
registers of R45; an illegal word is rejected at its completion. A write while BUSY is dropped and
sets OVR. -/
def Obligations.CmdWriteIssuesOrDrops : Prop :=
  ∀ (s : State) (w : Word),
    hostRead .word 0x00C#17 s = .next { s with replies := .data 0 :: s.replies } ∧
    (s.seq = .idle → ∃ t, hostWrite .word 0x00C#17 w s = .next t ∧
      t = { s with
        seq := .busy {
          cmd := w, mask := s.maskHi ++ s.maskLo, stride := s.stride, mapWidth := s.mapWidth,
          pbBase := s.pbBase, pbLen := s.pbLen, startPixel := s.startPixel, dbAddr := s.dbAddr,
          nbytes := s.nbytes },
        done := false } ∧
      (legalWord w = false → ∃ u, blockStep t = .next u ∧ u.errcode = .illegalCommand)) ∧
    (∀ l, s.seq = .busy l → hostWrite .word 0x00C#17 w s = .next { s with ovr := true })

/-- R26 to R33, R42: in every state, a written operand register reads back the bits its field has,
every other operand register keeps its value, and nothing but operand registers changes. -/
def Obligations.OperandRegistersStoreTheirBits : Prop :=
  ∀ p ∈ operandRegisters, ∀ (s : State) (v : Word), ∃ t,
    hostWrite .word p.1 v s = .next t ∧
    hostRead .word p.1 t = .next { t with
      replies := .data (BitVec.ofNat 32 (v.toNat % 2 ^ p.2)) :: t.replies } ∧
    (∀ q ∈ operandRegisters, q.1 ≠ p.1 →
      regValue (regAt q.1.toNat) t = regValue (regAt q.1.toNat) s) ∧
    t = copyOperands t s

/-- R41: the reserved register offsets read 0 and ignore writes. -/
def Obligations.ReservedOffsetsReadZero : Prop :=
  ∀ (s : State) (off : Offset) (v : Word), off.toNat % 4 = 0 →
    (0x04C ≤ off.toNat ∧ off.toNat ≤ 0x0FC ∨ 0x200 ≤ off.toNat ∧ off.toNat ≤ 0xFFFC) →
    hostRead .word off s = .next { s with replies := .data 0 :: s.replies } ∧
    hostWrite .word off v s = .next s

/-- R34, R35, R37 to R40, R42: what the read-only registers read while no command is pending, and that
in every state they ignore writes. -/
def Obligations.ReadOnlyRegistersShowValues : Prop :=
  ∀ (s : State) (v : Word),
    (isBusy s = false →
      hostRead .word 0x034#17 s = .next { s with replies := .data s.crcState :: s.replies } ∧
      hostRead .word 0x038#17 s =
        .next { s with replies := .data (s.crcState ^^^ 0xFFFFFFFF#32) :: s.replies } ∧
      (∃ x : Word, x.toNat = mapK s ∧
        hostRead .word 0x040#17 s = .next { s with replies := .data x :: s.replies }) ∧
      hostRead .word 0x044#17 s = .next { s with replies := .data s.errInfo :: s.replies } ∧
      hostRead .word 0x048#17 s = .next { s with replies := .data s.lastCmd :: s.replies } ∧
      ∀ k, k < 64 → ∃ x : Word, x.toNat = mapEntry s k ∧
        hostRead .word (BitVec.ofNat 17 (0x100 + 4 * k)) s =
          .next { s with replies := .data x :: s.replies }) ∧
    (∀ off ∈ [0x034#17, 0x038#17, 0x03C#17, 0x040#17, 0x044#17, 0x048#17],
      hostWrite .word off v s = .next s) ∧
    ∀ k, k < 64 → hostWrite .word (BitVec.ofNat 17 (0x100 + 4 * k)) v s = .next s

/-- R36: DB_SIZE reads the parameter in bits 16:0, from 1 to 65536, and 0 in bits 31:17. -/
def Obligations.DbSizeRegisterReadsParameter : Prop :=
  ∀ s : State, ∃ x : Word,
    hostRead .word 0x03C#17 s = .next { s with replies := .data x :: s.replies } ∧
    x.toNat = dbSize s ∧ 1 ≤ x.toNat ∧ x.toNat ≤ 65536 ∧
    ∀ i, 17 ≤ i → x.getLsbD i = false

/-- R43, R45: the pending command reads only its snapshot. Whatever values `o` the operand registers
are given while BUSY, the completion is the same, and those values stay in the registers. -/
def Obligations.PendingCommandIgnoresOperandRegisters : Prop :=
  ∀ (s o : State), isBusy s = true → ∃ t, blockStep s = .next t ∧
    blockStep (copyOperands o s) = .next (copyOperands o t)

/-- R44: while BUSY, a read of a register that the pending command writes answers a free value (log 24),
a STATUS read during a MAP_BUILD answers the current word but for a free MAP_VALID bit (log 9, the
model's reading), and every other register reads its current value. -/
def Obligations.BusyReadsAreFreeOrCurrent : Prop :=
  ∀ (s : State) (i : Instr) (off : Offset), pendingCommand s = some i → off.toNat % 4 = 0 →
    off.toNat < 0x10000 →
    let mapReg := off.toNat = 0x040 ∨ (0x100 ≤ off.toNat ∧ off.toNat ≤ 0x1FC)
    let crcReg := off.toNat = 0x034 ∨ off.toNat = 0x038
    let written := (i = .mapBuild ∧ mapReg) ∨
      ((i = .crcInit ∨ i = .crcUpdate ∨ i = .crcCompute) ∧ crcReg)
    (written → hostRead .word off s = .next { s with
      replies := .data (Config.freeWord s.draws) :: s.replies, draws := s.draws + 1 }) ∧
    (i = .mapBuild → off.toNat = 0x008 → ∃ x : Word,
      hostRead .word off s = .next { s with
        replies := .data x :: s.replies, draws := s.draws + 1 } ∧
      ∀ b, b ≠ 4 → x.getLsbD b = (statusWord s).getLsbD b) ∧
    (¬ written → ¬ (i = .mapBuild ∧ off.toNat = 0x008) →
      hostRead .word off s = .next { s with
        replies := .data (regValue (regAt off.toNat) s) :: s.replies })

/-- R190: irq is IE and DONE. A completion raises it if IE is set; setting IE while DONE = 1 raises it
at once; a W1C write of DONE, clearing IE, an issue, a soft reset and a power-on reset leave it 0. -/
def Obligations.IrqFollowsIeAndDone : Prop :=
  ∀ s : State,
    (irq s = true ↔ s.ie = true ∧ s.done = true) ∧
    (∀ t, isBusy s = true → blockStep s = .next t → irq t = s.ie) ∧
    (∀ v t, s.done = true → v.getLsbD 0 = true → v.getLsbD 1 = false →
      hostWrite .word 0x004#17 v s = .next t → irq t = true) ∧
    (∀ v t, v.getLsbD 1 = true → hostWrite .word 0x008#17 v s = .next t → irq t = false) ∧
    (∀ v t, v.getLsbD 0 = false → hostWrite .word 0x004#17 v s = .next t → irq t = false) ∧
    (∀ v t, v.getLsbD 1 = true → hostWrite .word 0x004#17 v s = .next t → irq t = false) ∧
    (∀ w t, s.seq = .idle → hostWrite .word 0x00C#17 w s = .next t → irq t = false) ∧
    irq (powerOnReset s) = false

/-! Reset. -/

/-- R50, R210: the block state right after power-on reset. The parameters, system memory and the model's
own fields are the model's choice (logs 1, 2, 3, 4, 6, 10) and not part of this statement. -/
def Obligations.ResetMatchesStateTable : Prop :=
  let s := State.reset
  s.seq = .idle ∧ isBusy s = false ∧ s.ie = false ∧ s.done = false ∧ s.ovr = false ∧
  s.mapValid = false ∧ s.errcode = .none ∧ s.maskLo = 0 ∧ s.maskHi = 0 ∧ s.stride = 0 ∧
  s.mapWidth = 0 ∧ s.pbBase = 0 ∧ s.pbLen = 0 ∧ s.startPixel = 0 ∧ s.dbAddr = 0 ∧ s.nbytes = 0 ∧
  s.crcState = 0x00000000#32 ∧ crcValue s = 0xFFFFFFFF#32 ∧ s.mapLen = 0 ∧
  (∀ k, mapEntry s k = 0) ∧ s.errInfo = 0 ∧ s.lastCmd = 0 ∧ (∀ k, dbRead s.db k = none) ∧
  irq s = false

/-- R211: a write of CTRL with SOFT_RESET = 1 gives every register its soft-reset value and ends a
pending command. With no READ_BITS or WRITE_BITS pending, DB and system memory are unchanged. An
aborted READ_BITS leaves its output range with some value in every byte, an aborted WRITE_BITS each
footprint bit old or its data bit (free where the data byte was never written), and nothing else. No
recorded fault is cleared, and only the abort of a WRITE_BITS whose data byte was never written records
one (the model's choice, log 13). -/
def Obligations.SoftResetClearsAndAborts : Prop :=
  ∀ (s : State) (v : Word), BlockInv s → v.getLsbD 1 = true → ∃ t,
    hostWrite .word 0x004#17 v s = .next t ∧
    t = { State.reset with
      params := s.params, db := t.db, mem := t.mem, inputs := s.inputs, replies := s.replies,
      faults := t.faults, draws := t.draws } ∧
    (pendingCommand s ≠ some .readBits → ∀ k, dbRead t.db k = dbRead s.db k) ∧
    (pendingCommand s ≠ some .writeBits →
      t.faults = s.faults ∧ ∀ a, sysRead t.mem a = sysRead s.mem a) ∧
    (∀ l, s.seq = .busy l → pendingCommand s = some .readBits → ∀ k,
      (l.dbAddr.toNat ≤ k ∧ k < dbEnd l ∧ k < dbSize s → dbRead t.db k ≠ none) ∧
      (¬ (l.dbAddr.toNat ≤ k ∧ k < dbEnd l) → dbRead t.db k = dbRead s.db k)) ∧
    (∀ l, s.seq = .busy l → pendingCommand s = some .writeBits → FootprintOldOrData s t l ∧
      (t.faults = s.faults ∨ RecordsReads s t l.dbAddr.toNat l.nbytes.toNat))

/-- R210, R211, R212: after a power-on reset every register has its reset value and no DB byte holds a
value. System memory is unchanged unless a WRITE_BITS was aborted, which leaves each footprint bit old
or its data bit and every other bit unchanged. No recorded fault is cleared. That the parameters, system
memory and the host's record outlive it is the model's choice (log 22). -/
def Obligations.PowerOnResetForgetsDb : Prop :=
  ∀ (s : State) (r : List Event), s.inputs = .powerOn :: r → ∃ t, step s = .next t ∧
    t = { State.reset with
      params := s.params, mem := t.mem, inputs := r, replies := s.replies, faults := t.faults,
      draws := t.draws } ∧
    (∀ k, dbRead t.db k = none) ∧
    (pendingCommand s ≠ some .writeBits →
      t.faults = s.faults ∧ ∀ a, sysRead t.mem a = sysRead s.mem a) ∧
    ∀ l, s.seq = .busy l → pendingCommand s = some .writeBits →
      (BlockInv s → FootprintOldOrData s t l) ∧
      (t.faults = s.faults ∨ RecordsReads s t l.dbAddr.toNat l.nbytes.toNat)

/-! Memory. -/

/-- R61, R62, R67: an aligned window write stores its bytes little-endian, ignores bytes past DB_SIZE,
and changes nothing else. -/
def Obligations.WindowWriteLanesAreLittleEndian : Prop :=
  ∀ (s : State) (w : Width) (off : Offset) (v : Word), 0x10000 ≤ off.toNat →
    off.toNat % w.bytes = 0 → ∃ t, hostWrite w off v s = .next t ∧ t = { s with db := t.db } ∧
    ∀ k, dbRead t.db k =
      if off.toNat - 0x10000 ≤ k ∧ k < off.toNat - 0x10000 + w.bytes ∧ k < dbSize s
      then some (v.extractLsb' (8 * (k - (off.toNat - 0x10000))) 8) else dbRead s.db k

/-- R61, R62, R67, R212: an aligned window read answers DB[k + i] in bits 8i+7 to 8i and 0 past DB_SIZE
and above the width. It records a fault for every byte it covers below DB_SIZE that nothing has written,
and changes nothing else but the host's record; what stands in the lane of such a byte, and the draws
taken for it, are the model's form of a value that is not given (log 5). -/
def Obligations.WindowReadLanesAreLittleEndian : Prop :=
  ∀ (s : State) (w : Width) (off : Offset), 0x10000 ≤ off.toNat → off.toNat % w.bytes = 0 →
    let k := off.toNat - 0x10000
    ∃ (v : Word) (t : State), hostRead w off s = .next t ∧
      t = { s with replies := .data v :: s.replies, faults := t.faults, draws := t.draws } ∧
      (∀ i b, i < w.bytes → k + i < dbSize s → dbRead s.db (k + i) = some b →
        v.extractLsb' (8 * i) 8 = b) ∧
      (∀ i, i < w.bytes → dbSize s ≤ k + i → v.extractLsb' (8 * i) 8 = 0) ∧
      v.toNat < 2 ^ (8 * w.bytes) ∧
      RecordsReads s t k (min w.bytes (dbSize s - k)) ∧
      ((∀ i, i < w.bytes → k + i < dbSize s → dbRead s.db (k + i) ≠ none) →
        t = { s with replies := .data v :: s.replies })

/-- R66, R67: a register-space access that is not an aligned 32-bit word, and a misaligned DB-window
access, get a bus error response and have no effect on the block. The recorded fault is the model's
form of "a model faults the host access" (log 6). -/
def Obligations.UnsupportedAccessHasNoEffect : Prop :=
  ∀ (s : State) (w : Width) (off : Offset) (v : Word),
    (off.toNat < 0x10000 ∧ (w ≠ .word ∨ off.toNat % 4 ≠ 0) ∨
      0x10000 ≤ off.toNat ∧ off.toNat % w.bytes ≠ 0) →
    let t := { s with
      replies := .busError :: s.replies, faults := .unsupported w off :: s.faults }
    hostRead w off s = .next t ∧ hostWrite w off v s = .next t

/-- R69: host reads of every register and of the DB window have no side effect on the block; only the
host's own record of replies and faults and the draw counter move. -/
def Obligations.HostReadsHaveNoSideEffect : Prop :=
  ∀ (s : State) (w : Width) (off : Offset), ∃ t r new, hostRead w off s = .next t ∧
    t = { s with replies := r :: s.replies, faults := new ++ s.faults, draws := t.draws }

/-- R74: while a READ_BITS or WRITE_BITS is pending, another agent's access to
[PB_BASE, PB_BASE + PB_LEN) is recorded as a fault, and a read returns no value. Outside that range, and
while the block is IDLE or has another command pending, the access is made: a read answers the byte, a
write stores it. That the run goes on, and that a write to an owned byte changes at most that byte, are
the model's form (log 8). -/
def Obligations.OwnedBufferAccessFaults : Prop :=
  ∀ (s : State) (a : Word) (v : Byte),
    (∀ l, s.seq = .busy l →
      (pendingCommand s = some .readBits ∨ pendingCommand s = some .writeBits) →
      l.pbBase.toNat ≤ a.toNat → a.toNat < l.pbBase.toNat + l.pbLen.toNat →
      hostMemRead a s = .next { s with
        replies := .noValue :: s.replies, faults := .bufferOwned a :: s.faults } ∧
      ∃ t, hostMemWrite a v s = .next t ∧
        t = { s with mem := t.mem, faults := .bufferOwned a :: s.faults, draws := t.draws } ∧
        ∀ x, x ≠ a.toNat → sysRead t.mem x = sysRead s.mem x) ∧
    ((pendingCommand s ≠ some .readBits ∧ pendingCommand s ≠ some .writeBits ∨
        ∃ l, s.seq = .busy l ∧
          ¬ (l.pbBase.toNat ≤ a.toNat ∧ a.toNat < l.pbBase.toNat + l.pbLen.toNat)) →
      hostMemRead a s = .next { s with
        replies := .data ((sysRead s.mem a.toNat).setWidth 32) :: s.replies } ∧
      ∃ t, hostMemWrite a v s = .next t ∧ t = { s with mem := t.mem } ∧
        (∀ x, x ≠ a.toNat → sysRead t.mem x = sysRead s.mem x) ∧
        (Memory.wf (some sysUnlisted) sysSize s.mem → sysRead t.mem a.toNat = v))

/-- The canonical form of a memory: two memories in it that read alike at every address are the same
data, for system memory and for DB, and a byte stored to system memory reads back (R64). -/
def Obligations.EqualReadsMakeEqualMemories : Prop :=
  (∀ m n : Memory, Memory.wf (some sysUnlisted) sysSize m → Memory.wf (some sysUnlisted) sysSize n →
    (∀ a, sysRead m a = sysRead n a) → m = n) ∧
  (∀ (size : Nat) (m n : Memory), Memory.wf dbUnlisted size m → Memory.wf dbUnlisted size n →
    (∀ k, dbRead m k = dbRead n k) → m = n) ∧
  (∀ (m : Memory) (a : Nat) (v w : Byte), Memory.wf (some sysUnlisted) sysSize m → a < sysSize →
    sysRead (sysWrite m a v) a = v ∧
    sysWrite (sysWrite m a v) a w = sysWrite m a w ∧ sysWrite m a (sysRead m a) = m)

/-! The map unit. -/

/-- R110, R112: `OffsetMapOf` lists exactly the flagged indices below `w`, strictly ascending, so none
twice; its length is the number of 1 bits among mask bits 63 down to 64 - w; and before entry k there
are k flagged indices. -/
def Obligations.OffsetMapListsFlaggedBits : Prop :=
  ∀ (m : Mask) (w : Nat), w ≤ 64 →
    let M := offsetMapOf m w
    (∀ i, i ∈ M ↔ i < w ∧ m.getLsbD (63 - i) = true) ∧
    M.Pairwise (· < ·) ∧ M.Nodup ∧ (∀ i ∈ M, i ≤ 63) ∧
    M.length = ((List.range 64).filter fun b => decide (64 - w ≤ b) && m.getLsbD b).length ∧
    M.length ≤ w ∧
    ∀ k, (h : k < M.length) →
      ((List.range 64).filter fun b => decide (63 - M[k] < b) && m.getLsbD b).length = k

/-- R111: mask bits 63 - w down to 0 have no effect. -/
def Obligations.LowMaskBitsHaveNoEffect : Prop :=
  ∀ (m m' : Mask) (w : Nat), w ≤ 64 →
    (∀ b, 64 - w ≤ b → b < 64 → m.getLsbD b = m'.getLsbD b) →
    offsetMapOf m w = offsetMapOf m' w

/-- R113, R115: a MAP_BUILD of a legal width whose mask flags some index below it completes with NONE
and leaves the map, its length, and 0 in the entries behind it; every other piece of state keeps its
value but for the completion registers. -/
def Obligations.MapBuildStoresTheMap : Prop :=
  ∀ (s : State) (l : Snapshot), s.seq = .busy l → l.mapWidth.toNat ≤ 64 →
    (∃ i, i < l.mapWidth.toNat ∧ l.mask.getLsbD (63 - i) = true) →
    let M := offsetMapOf l.mask l.mapWidth.toNat
    ∃ t, exec .mapBuild s = .next t ∧ t.mapValid = true ∧ mapK t = M.length ∧ 1 ≤ mapK t ∧
      (∀ k, k < M.length → M[k]? = some (mapEntry t k)) ∧
      (∀ k, M.length ≤ k → mapEntry t k = 0) ∧
      t = { s with
        mapFile := t.mapFile, mapLen := t.mapLen, mapValid := true, seq := .idle, done := true,
        errcode := .none, errInfo := 0, lastCmd := l.cmd }

/-- R114: a MAP_BUILD of a width above 64 invalidates the map and raises PARAM_INVALID(1); one whose
list is empty invalidates it and raises EMPTY_OFFSET_MAP(MAP_WIDTH). The list is empty exactly when
the width is 0 or mask bits 63 down to 64 - MAP_WIDTH are all 0. -/
def Obligations.MapBuildFailureInvalidates : Prop :=
  ∀ (s : State) (l : Snapshot), s.seq = .busy l →
    let cleared := fun (t : State) => t.mapValid = false ∧ t.mapLen = 0 ∧ ∀ k, mapEntry t k = 0
    (64 < l.mapWidth.toNat → ∃ t, exec .mapBuild s = .next t ∧ cleared t ∧
      t = { s with
        mapFile := t.mapFile, mapLen := t.mapLen, mapValid := t.mapValid, seq := .idle,
        done := true, errcode := .paramInvalid, errInfo := 1, lastCmd := l.cmd }) ∧
    (l.mapWidth.toNat ≤ 64 → offsetMapOf l.mask l.mapWidth.toNat = [] →
      ∃ t, exec .mapBuild s = .next t ∧ cleared t ∧
      t = { s with
        mapFile := t.mapFile, mapLen := t.mapLen, mapValid := t.mapValid, seq := .idle,
        done := true, errcode := .emptyOffsetMap, errInfo := l.mapWidth.setWidth 32,
        lastCmd := l.cmd }) ∧
    (l.mapWidth.toNat ≤ 64 → (offsetMapOf l.mask l.mapWidth.toNat = [] ↔
      l.mapWidth.toNat = 0 ∨
        ∀ b, 64 - l.mapWidth.toNat ≤ b → b < 64 → l.mask.getLsbD b = false))

/-- R116: for a stride s of 1 to 8, AllBits(s) sets mask bits 63 down to 64 - 8s and clears the rest, and
a MAP_BUILD with it at width 8s gives MAP[k] = k for k = 0 to 8s - 1 with K = 8s; and the two masks the
rule names. -/
def Obligations.AllBitsMaskBuildsIdentity : Prop :=
  allBits 3 = 0xFFFFFF0000000000#64 ∧ allBits 4 = 0xFFFFFFFF00000000#64 ∧
  ∀ st, 1 ≤ st → st ≤ 8 →
    (∀ b, b < 64 → ((allBits st).getLsbD b = true ↔ 64 - 8 * st ≤ b)) ∧
    ∀ (s : State) (l : Snapshot), s.seq = .busy l → l.mask = allBits st →
      l.mapWidth.toNat = 8 * st → ∃ t, exec .mapBuild s = .next t ∧ t.errcode = .none ∧
        mapK t = 8 * st ∧ ∀ k, k < 8 * st → mapEntry t k = k

/-- R34, R40, R113, R226: a step that changes the map register file is the completion of a MAP_BUILD or
a reset, and one that changes CRC_STATE is the completion of a CRC command or a reset. -/
def Obligations.MapAndCrcChangeOnlyByTheirCommands : Prop :=
  ∀ s t : State, step s = .next t →
    let reset := (∃ r, s.inputs = .powerOn :: r) ∨
      ∃ v r, s.inputs = .write .word 0x004#17 v :: r ∧ v.getLsbD 1 = true
    (t.mapFile ≠ s.mapFile ∨ t.mapLen ≠ s.mapLen ∨ t.mapValid ≠ s.mapValid →
      pendingCommand s = some .mapBuild ∨ reset) ∧
    (t.crcState ≠ s.crcState →
      pendingCommand s = some .crcInit ∨ pendingCommand s = some .crcUpdate ∨
        pendingCommand s = some .crcCompute ∨ reset)

/-! The bit channel. -/

/-- R132, R133: for a valid map that fits the stride and a transfer of at least one bit, offsets never
decrease along the stream, A_last is the greatest footprint byte, no two stream bits share a pixel bit,
every map entry stays inside its pixel, and the pixels touched are S to S + ceil(nbits / K) - 1. -/
def Obligations.FootprintSpansPixelsInOrder : Prop :=
  ∀ (s : State) (l : Snapshot), MapOk s → s.mapValid = true →
    mapEntry s (mapK s - 1) < 8 * l.stride.toNat → l.nbytes.toNat ≠ 0 →
    let n := 8 * l.nbytes.toNat
    let S := l.startPixel.toNat
    (∀ i j, i ≤ j → j < n → offsetAt s l i ≤ offsetAt s l j) ∧
    (∀ j, j < n → offsetAt s l j ≤ lastOffset s l) ∧
    (∀ i j, i < n → j < n → offsetAt s l i = offsetAt s l j → bitAt s i = bitAt s j → i = j) ∧
    (∀ j, j < n → pixelAt s l j * l.stride.toNat ≤ offsetAt s l j ∧
      offsetAt s l j < (pixelAt s l j + 1) * l.stride.toNat) ∧
    (∀ p, (∃ j, j < n ∧ pixelAt s l j = p) ↔
      S ≤ p ∧ p < S + (n + mapK s - 1) / mapK s)

/-- R134, R136, R184: for READ_BITS and WRITE_BITS, the first check of R134 that fails raises its error
with its information word and has no other effect, and a transfer of 0 bytes that passes checks 1 to 5
completes with no effect. A_last is written out as in R133. -/
def Obligations.ChannelReportsFirstFailure : Prop :=
  ∀ (s : State) (l : Snapshot) (i : Instr), s.seq = .busy l → (i = .readBits ∨ i = .writeBits) →
    let ends := fun (code : ErrCode) (info : Word) => exec i s = .next { s with
      errcode := code, errInfo := info, lastCmd := l.cmd, done := true, seq := .idle }
    let st := l.stride.toNat
    let n := l.nbytes.toNat
    let last := (l.startPixel.toNat + (8 * n - 1) / mapK s) * st +
      mapEntry s ((8 * n - 1) % mapK s) / 8
    (st < 1 ∨ 8 < st → ends .paramInvalid 2) ∧
    (1 ≤ st → st ≤ 8 →
      (s.mapValid = false → ends .emptyOffsetMap 0) ∧
      (s.mapValid = true →
        (8 * st ≤ mapEntry s (mapK s - 1) → ends .paramInvalid 3) ∧
        (mapEntry s (mapK s - 1) < 8 * st →
          (2 ^ 32 < l.pbBase.toNat + l.pbLen.toNat → ends .paramInvalid 4) ∧
          (l.pbBase.toNat + l.pbLen.toNat ≤ 2 ^ 32 →
            (dbSize s < l.dbAddr.toNat + n →
              ends .dataBounds (BitVec.ofNat 32 (min (l.dbAddr.toNat + n) (2 ^ 32 - 1)))) ∧
            (l.dbAddr.toNat + n ≤ dbSize s →
              (n = 0 → ends .none 0) ∧
              (n ≠ 0 → l.pbLen.toNat ≤ last →
                ends .boundsExceeded (BitVec.ofNat 32 (min last (2 ^ 32 - 1)))))))))

/-- R135: once checks 1 to 6 pass, READ_BITS and WRITE_BITS fail with BOUNDS_EXCEEDED exactly when some
footprint byte lies at P_LEN or beyond, and then touch neither system memory nor DB. -/
def Obligations.BoundsExceededExactlyWhenOutside : Prop :=
  ∀ (s : State) (l : Snapshot) (i : Instr), s.seq = .busy l → (i = .readBits ∨ i = .writeBits) →
    MapOk s → 1 ≤ l.stride.toNat → l.stride.toNat ≤ 8 → s.mapValid = true →
    mapEntry s (mapK s - 1) < 8 * l.stride.toNat →
    l.pbBase.toNat + l.pbLen.toNat ≤ 2 ^ 32 → l.dbAddr.toNat + l.nbytes.toNat ≤ dbSize s →
    l.nbytes.toNat ≠ 0 →
    ((∃ j, j < nbits l ∧ l.pbLen.toNat ≤ offsetAt s l j) ↔
      ∃ t, exec i s = .next t ∧ t.errcode = .boundsExceeded) ∧
    ((∃ j, j < nbits l ∧ l.pbLen.toNat ≤ offsetAt s l j) →
      ∃ t, exec i s = .next t ∧ (∀ k, dbRead t.db k = dbRead s.db k) ∧
        ∀ a, sysRead t.mem a = sysRead s.mem a)

/-- R131, R137, R139: a READ_BITS whose checks pass and whose accesses the platform answers completes
with NONE. Stream bit j, taken at the pixel bit of R131, is bit 7 - (j mod 8) of DB byte
DB_ADDR + floor(j / 8); no other DB byte and no byte of system memory changes, nor any other state but
the completion registers. -/
def Obligations.ReadBitsStoresTheStream : Prop :=
  ∀ (s : State) (l : Snapshot), s.seq = .busy l → ChannelReady s l → BusQuiet s l .read →
    ∃ t, exec .readBits s = .next t ∧
      (∀ j, j < 8 * l.nbytes.toNat →
        let p := l.startPixel.toNat + j / mapK s
        let e := mapEntry s (j % mapK s)
        ∃ b, dbRead t.db (l.dbAddr.toNat + j / 8) = some b ∧
          b.getLsbD (7 - j % 8) =
            (sysRead s.mem (l.pbBase.toNat + (p * l.stride.toNat + e / 8))).getLsbD (7 - e % 8)) ∧
      (∀ k, ¬ (l.dbAddr.toNat ≤ k ∧ k < l.dbAddr.toNat + l.nbytes.toNat) →
        dbRead t.db k = dbRead s.db k) ∧
      (∀ a, sysRead t.mem a = sysRead s.mem a) ∧
      t = { s with
        db := t.db, seq := .idle, done := true, errcode := .none, errInfo := 0, lastCmd := l.cmd }

/-- R72, R138, R139: however a READ_BITS ends, it writes no byte of system memory, no DB byte outside
its output range, and no other state but the completion registers and the model's draw counter. -/
def Obligations.ReadBitsFrame : Prop :=
  ∀ (s t : State) (l : Snapshot), s.seq = .busy l → exec .readBits s = .next t →
    t = { s with
      db := t.db, draws := t.draws, seq := .idle, done := true, errcode := t.errcode,
      errInfo := t.errInfo, lastCmd := l.cmd } ∧
    (∀ k, ¬ (l.dbAddr.toNat ≤ k ∧ k < l.dbAddr.toNat + l.nbytes.toNat) →
      dbRead t.db k = dbRead s.db k) ∧
    ∀ a, sysRead t.mem a = sysRead s.mem a

/-- R138: a READ_BITS writes no byte of system memory; and two READ_BITS with the same snapshot and map
that both complete with NONE, over system memories that agree on the footprint bits, put the same bytes
in the output range. -/
def Obligations.ReadBitsDependsOnlyOnFootprint : Prop :=
  ∀ (s s' t t' : State) (l : Snapshot), s.seq = .busy l → s'.seq = .busy l →
    s.mapFile = s'.mapFile → s.mapLen = s'.mapLen →
    (∀ j, j < nbits l →
      (sysRead s.mem (pbAddr l (offsetAt s l j))).getLsbD (bitAt s j) =
        (sysRead s'.mem (pbAddr l (offsetAt s l j))).getLsbD (bitAt s j)) →
    exec .readBits s = .next t → exec .readBits s' = .next t' →
    t.errcode = .none → t'.errcode = .none →
    (∀ a, sysRead t.mem a = sysRead s.mem a) ∧
    ∀ k, l.dbAddr.toNat ≤ k → k < l.dbAddr.toNat + l.nbytes.toNat →
      dbRead t.db k = dbRead t'.db k

/-- R72, R140, R141: a WRITE_BITS whose checks pass and whose accesses the platform answers completes
with NONE. After any WRITE_BITS that completes with NONE, every footprint bit holds its data bit (a free
value where nothing has written the data byte, R212), every other bit of system memory its old value,
and nothing else has changed but the completion registers and the faults of reading unwritten data. -/
def Obligations.WriteBitsSetsExactlyTheFootprint : Prop :=
  ∀ (s : State) (l : Snapshot), BlockInv s → s.seq = .busy l →
    (ChannelReady s l → BusQuiet s l .read → BusQuiet s l .write →
      ∃ t, exec .writeBits s = .next t ∧ t.errcode = .none) ∧
    ∀ t, exec .writeBits s = .next t → t.errcode = .none →
      (∀ j, j < 8 * l.nbytes.toNat →
        let p := l.startPixel.toNat + j / mapK s
        let e := mapEntry s (j % mapK s)
        ∀ b, dbRead s.db (l.dbAddr.toNat + j / 8) = some b →
          (sysRead t.mem (l.pbBase.toNat + (p * l.stride.toNat + e / 8))).getLsbD (7 - e % 8) =
            b.getLsbD (7 - j % 8)) ∧
      (∀ a c, c < 8 →
        (∀ j, j < 8 * l.nbytes.toNat → ¬ (a = pbAddr l (offsetAt s l j) ∧ c = bitAt s j)) →
        (sysRead t.mem a).getLsbD c = (sysRead s.mem a).getLsbD c) ∧
      t = { s with
        mem := t.mem, faults := t.faults, draws := t.draws, seq := .idle, done := true,
        errcode := .none, errInfo := 0, lastCmd := l.cmd } ∧
      RecordsReads s t l.dbAddr.toNat l.nbytes.toNat ∧
      (DbWritten s l → t.faults = s.faults ∧ t.draws = s.draws)

/-- R72, R140: however a WRITE_BITS ends, it changes no byte of system memory that is not the byte of a
stream bit, no DB byte, and no other state but the completion registers, the recorded faults of reading
unwritten data (R212) and the model's draw counter. -/
def Obligations.WriteBitsFrame : Prop :=
  ∀ (s t : State) (l : Snapshot), s.seq = .busy l → exec .writeBits s = .next t →
    t = { s with
      mem := t.mem, faults := t.faults, draws := t.draws, seq := .idle, done := true,
      errcode := t.errcode, errInfo := t.errInfo, lastCmd := l.cmd } ∧
    (t.faults = s.faults ∨ RecordsReads s t l.dbAddr.toNat l.nbytes.toNat) ∧
    (∀ k, dbRead t.db k = dbRead s.db k) ∧
    ∀ a, (∀ j, j < nbits l → a ≠ pbAddr l (offsetAt s l j)) → sysRead t.mem a = sysRead s.mem a

/-- R142: a WRITE_BITS and a later READ_BITS with the same stride, map, start pixel, byte count and
buffer, both completing with NONE, with no other write to system memory between them: the READ_BITS
puts in its DB range the bytes that stood in the range of the WRITE_BITS. -/
def Obligations.WriteThenReadReturnsTheData : Prop :=
  ∀ (s t u v : State) (l l' : Snapshot), BlockInv s →
    s.seq = .busy l → exec .writeBits s = .next t → t.errcode = .none →
    u.seq = .busy l' → u.mapFile = s.mapFile → u.mapLen = s.mapLen →
    (∀ a, sysRead u.mem a = sysRead t.mem a) →
    l'.stride = l.stride → l'.startPixel = l.startPixel → l'.nbytes = l.nbytes →
    l'.pbBase = l.pbBase →
    exec .readBits u = .next v → v.errcode = .none →
    ∀ k b, k < l.nbytes.toNat → dbRead s.db (l.dbAddr.toNat + k) = some b →
      dbRead v.db (l'.dbAddr.toNat + k) = some b

/-- R143: where 8·N1 is a multiple of K, a READ_BITS or WRITE_BITS of N1 + N2 bytes and the two commands
of N1 bytes from S and N2 bytes from S + 8·N1 / K, their DB ranges back to back, all completing with
NONE, leave the same DB and the same system memory. The data of a WRITE_BITS stands in DB: without it
"the same data" says nothing (R212). -/
def Obligations.SplitStreamsEqualOne : Prop :=
  ∀ (s t u v : State) (l : Snapshot) (i : Instr) (n1 n2 sp2 da2 : Word),
    (i = .readBits ∨ i = .writeBits) →
    l.nbytes.toNat = n1.toNat + n2.toNat → 8 * n1.toNat % mapK s = 0 →
    sp2.toNat = l.startPixel.toNat + 8 * n1.toNat / mapK s →
    da2.toNat = l.dbAddr.toNat + n1.toNat → (i = .writeBits → DbWritten s l) →
    exec i { s with seq := .busy { l with nbytes := n1 } } = .next t → t.errcode = .none →
    exec i { t with seq := .busy { l with nbytes := n2, startPixel := sp2, dbAddr := da2 } } =
      .next u → u.errcode = .none →
    exec i { s with seq := .busy l } = .next v → v.errcode = .none →
    (∀ k, dbRead u.db k = dbRead v.db k) ∧ ∀ a, sysRead u.mem a = sysRead v.mem a

/-- R144: with the map [0, 1, ..., 8s - 1], stream bit j is bit 7 - (j mod 8) of buffer offset
S·s + floor(j / 8); READ_BITS copies buffer bytes S·s to S·s + N - 1 into DB unchanged, and WRITE_BITS
copies DB bytes to those offsets unchanged and no others. -/
def Obligations.AllBitsMapCopiesBytes : Prop :=
  ∀ (s : State) (l : Snapshot), BlockInv s → s.seq = .busy l → ChannelReady s l →
    mapK s = 8 * l.stride.toNat → (∀ k, k < 8 * l.stride.toNat → mapEntry s k = k) →
    BusQuiet s l .read →
    let first := l.pbBase.toNat + l.startPixel.toNat * l.stride.toNat
    (∀ j, j < nbits l → pbAddr l (offsetAt s l j) = first + j / 8 ∧ bitAt s j = 7 - j % 8) ∧
    (∃ t, exec .readBits s = .next t ∧ ∀ k, k < l.nbytes.toNat →
      dbRead t.db (l.dbAddr.toNat + k) = some (sysRead s.mem (first + k))) ∧
    (∀ D : List Byte, BusQuiet s l .write → D.length = l.nbytes.toNat →
      DbHolds s.db l.dbAddr.toNat D → ∃ t, exec .writeBits s = .next t ∧
        (∀ k, k < l.nbytes.toNat → D[k]? = some (sysRead t.mem (first + k))) ∧
        ∀ a, ¬ (first ≤ a ∧ a < first + l.nbytes.toNat) → sysRead t.mem a = sysRead s.mem a)

/-- R188: where the platform fails an access of the footprint, the command completes with BUS_ERROR and
the buffer offset of a failing access. A READ_BITS leaves some value in every byte of its DB range and
writes nothing else; a WRITE_BITS leaves each footprint bit old or its data bit (free where nothing has
written the data byte) and changes no other bit. That WRITE_BITS reads and writes every footprint byte
is the model's reading (log 14). -/
def Obligations.BusErrorLeavesOldOrNew : Prop :=
  ∀ (s : State) (l : Snapshot), BlockInv s → s.seq = .busy l → ChannelReady s l →
    let fails := fun j kind => busError s.params (pbAddr l (offsetAt s l j)) kind = true
    ((∃ j, j < nbits l ∧ fails j .read) →
      ∃ t, exec .readBits s = .next t ∧ t.errcode = .busError ∧
        (∃ j, j < nbits l ∧ fails j .read ∧ t.errInfo.toNat = offsetAt s l j) ∧
        (∀ k, l.dbAddr.toNat ≤ k → k < l.dbAddr.toNat + l.nbytes.toNat → dbRead t.db k ≠ none) ∧
        (∀ k, ¬ (l.dbAddr.toNat ≤ k ∧ k < l.dbAddr.toNat + l.nbytes.toNat) →
          dbRead t.db k = dbRead s.db k) ∧
        ∀ a, sysRead t.mem a = sysRead s.mem a) ∧
    ((∃ j, j < nbits l ∧ (fails j .read ∨ fails j .write)) →
      ∃ t, exec .writeBits s = .next t ∧ t.errcode = .busError ∧
        (∃ j, j < nbits l ∧ (fails j .read ∨ fails j .write) ∧
          t.errInfo.toNat = offsetAt s l j) ∧
        FootprintOldOrData s t l ∧
        ∀ k, dbRead t.db k = dbRead s.db k)

/-- R212: a CRC_UPDATE, CRC_COMPUTE or WRITE_BITS records a fault for each DB byte it reads that nothing
has written, and none for any other. It completes all the same, and the other bytes it reads are those
of DB; what it reads for such a byte is the model's free value, of which nothing is said (log 5). That a WRITE_BITS which
ends with BUS_ERROR counts all its data as read is the model's choice (log 15). -/
def Obligations.UnwrittenDbByteFaults : Prop :=
  ∀ (s : State) (l : Snapshot), s.seq = .busy l →
    (l.dbAddr.toNat + l.nbytes.toNat ≤ dbSize s →
      ∀ i c, (i = .crcUpdate ∧ c = s.crcState ∨ i = .crcCompute ∧ c = 0x00000000#32) →
      ∃ t D, exec i s = .next t ∧ D.length = l.nbytes.toNat ∧
        (∀ k b, k < l.nbytes.toNat → dbRead s.db (l.dbAddr.toNat + k) = some b → D[k]? = some b) ∧
        t = { s with
          crcState := crcFeed c D, faults := t.faults, draws := t.draws, seq := .idle, done := true,
          errcode := .none, errInfo := 0, lastCmd := l.cmd } ∧
        RecordsReads s t l.dbAddr.toNat l.nbytes.toNat) ∧
    (ChannelReady s l → ∃ t, exec .writeBits s = .next t ∧
      (t.errcode = .none ∨ t.errcode = .busError) ∧
      RecordsReads s t l.dbAddr.toNat l.nbytes.toNat)

/-! The CRC unit. -/

/-- R160: the check value and the residue of the algorithm. -/
def Obligations.CrcCatalogueValues : Prop :=
  cksum [0x31, 0x32, 0x33, 0x34, 0x35, 0x36, 0x37, 0x38, 0x39] = 0x765E7680#32 ∧
  crcFeed 0 [0x31, 0x32, 0x33, 0x34, 0x35, 0x36, 0x37, 0x38, 0x39, 0x76, 0x5E, 0x76, 0x80] =
    0xC704DD7B#32

/-- R160, R161: `CrcFeed` is the CRC of the polynomial x^32 + 0x04C11DB7 over GF(2), bytes fed MSB
first, unreflected: feeding n bytes to state c leaves c·x^(8n) + D·x^32 modulo that polynomial. -/
def Obligations.CrcIsPolynomialRemainder : Prop :=
  ∀ (c : Word) (D : List Byte), ∃ q : Polynomial (ZMod 2),
    (∑ i ∈ Finset.range 32, if (crcFeed c D).getLsbD i then Polynomial.X ^ i else 0) =
      (∑ i ∈ Finset.range 32, if c.getLsbD i then Polynomial.X ^ i else 0) *
          Polynomial.X ^ (8 * D.length) +
        (∑ j ∈ Finset.range (8 * D.length),
            if streamBit D j then Polynomial.X ^ (8 * D.length - 1 - j) else 0) *
          Polynomial.X ^ 32 +
        q * (Polynomial.X ^ 32 +
          ∑ i ∈ Finset.range 32, if (0x04C11DB7#32).getLsbD i then Polynomial.X ^ i else 0)

/-- R164: CRC_INIT, word 0x00000004, completes with NONE whatever the operands hold; CRC_STATE is 0 and
CRC_VALUE reads 0xFFFFFFFF; nothing else changes but the completion registers. -/
def Obligations.CrcInitStartsAChecksum : Prop :=
  decode 0x00000004#32 = .ok .crcInit ∧
  ∀ (s : State) (l : Snapshot), s.seq = .busy l → ∃ t, exec .crcInit s = .next t ∧
    t = { s with
      crcState := 0x00000000#32, seq := .idle, done := true, errcode := .none, errInfo := 0,
      lastCmd := l.cmd } ∧
    crcValue t = 0xFFFFFFFF#32

/-- R163, R165: CRC_UPDATE, word 0x00000005, past DB_SIZE raises DATA_BOUNDS and leaves CRC_STATE; else
it feeds the DB bytes from CRC_STATE, in increasing index order. 0 bytes leave CRC_STATE, and leading
0x00 bytes fed to CRC_STATE 0 do not count. DB is not changed. -/
def Obligations.CrcUpdateFeedsDb : Prop :=
  decode 0x00000005#32 = .ok .crcUpdate ∧
  (∀ (s : State) (l : Snapshot), s.seq = .busy l →
    (dbSize s < l.dbAddr.toNat + l.nbytes.toNat → exec .crcUpdate s = .next { s with
      seq := .idle, done := true, errcode := .dataBounds,
      errInfo := BitVec.ofNat 32 (min (l.dbAddr.toNat + l.nbytes.toNat) (2 ^ 32 - 1)),
      lastCmd := l.cmd }) ∧
    (∀ D : List Byte, l.dbAddr.toNat + l.nbytes.toNat ≤ dbSize s → D.length = l.nbytes.toNat →
      DbHolds s.db l.dbAddr.toNat D → exec .crcUpdate s = .next { s with
        crcState := crcFeed s.crcState D, seq := .idle, done := true, errcode := .none,
        errInfo := 0, lastCmd := l.cmd })) ∧
  (∀ c, crcFeed c [] = c) ∧
  ∀ (n : Nat) (D : List Byte), crcFeed 0 (List.replicate n 0 ++ D) = crcFeed 0 D

/-- R163, R166: CRC_COMPUTE, word 0x00000006, past DB_SIZE raises DATA_BOUNDS and leaves CRC_STATE; else
it leaves the CRC of the DB bytes alone, so that CRC_VALUE is their checksum, 0xFFFFFFFF for none. DB is
not changed. -/
def Obligations.CrcComputeFeedsFromInit : Prop :=
  decode 0x00000006#32 = .ok .crcCompute ∧
  ∀ (s : State) (l : Snapshot), s.seq = .busy l →
    (dbSize s < l.dbAddr.toNat + l.nbytes.toNat → exec .crcCompute s = .next { s with
      seq := .idle, done := true, errcode := .dataBounds,
      errInfo := BitVec.ofNat 32 (min (l.dbAddr.toNat + l.nbytes.toNat) (2 ^ 32 - 1)),
      lastCmd := l.cmd }) ∧
    (∀ D : List Byte, l.dbAddr.toNat + l.nbytes.toNat ≤ dbSize s → D.length = l.nbytes.toNat →
      DbHolds s.db l.dbAddr.toNat D → ∃ t, exec .crcCompute s = .next t ∧
        t = { s with
          crcState := crcFeed 0x00000000#32 D, seq := .idle, done := true, errcode := .none,
          errInfo := 0, lastCmd := l.cmd } ∧
        crcValue t = cksum D ∧ (l.nbytes.toNat = 0 → crcValue t = 0xFFFFFFFF#32))

/-- R162, R167: feeding A and then B is feeding A ++ B. So after a CRC_COMPUTE over A and a CRC_UPDATE
over B, with nothing between that changes CRC_STATE, CRC_STATE is that of one CRC_COMPUTE over A ++ B
and CRC_VALUE its checksum. -/
def Obligations.CrcChains : Prop :=
  (∀ (c : Word) (A B : List Byte), crcFeed (crcFeed c A) B = crcFeed c (A ++ B)) ∧
  ∀ (s t u v : State) (l l' : Snapshot) (A B : List Byte),
    s.seq = .busy l → A.length = l.nbytes.toNat → DbHolds s.db l.dbAddr.toNat A →
    exec .crcCompute s = .next t → t.errcode = .none →
    u.crcState = t.crcState → u.seq = .busy l' → B.length = l'.nbytes.toNat →
    DbHolds u.db l'.dbAddr.toNat B → exec .crcUpdate u = .next v → v.errcode = .none →
    v.crcState = crcFeed 0x00000000#32 (A ++ B) ∧ crcValue v = cksum (A ++ B)

/-- R168: a string followed by its checksum in big-endian order leaves the residue. -/
def Obligations.ChecksumBehindItsStringLeavesResidue : Prop :=
  ∀ D : List Byte,
    let v := cksum D
    crcFeed 0x00000000#32 (D ++
      [v.extractLsb' 24 8, v.extractLsb' 16 8, v.extractLsb' 8 8, v.extractLsb' 0 8]) =
      0xC704DD7B#32

/-- R169: changing one byte of a string, so in particular flipping one bit, changes its checksum. -/
def Obligations.CrcDetectsByteChange : Prop :=
  (∀ (A B : List Byte) (x y : Byte), x ≠ y → cksum (A ++ x :: B) ≠ cksum (A ++ y :: B)) ∧
  ∀ (A B : List Byte) (x : Byte) (i : Nat), i < 8 →
    cksum (A ++ x :: B) ≠ cksum (A ++ (x ^^^ (1#8 <<< i)) :: B)

/-! Completion. -/

/-- The frame of MAP_BUILD and of the CRC commands (R115, R164 to R166): a MAP_BUILD changes nothing but
the map register file and the completion registers, a CRC command nothing but CRC_STATE and those, and
CRC_UPDATE and CRC_COMPUTE the recorded faults of reading unwritten data (R212) and the model's draw
counter. No DB byte and no byte of system memory changes. -/
def Obligations.MapAndCrcCommandFrame : Prop :=
  ∀ (s t : State) (l : Snapshot) (i : Instr), s.seq = .busy l → exec i s = .next t →
    (i = .mapBuild → t = { s with
      mapFile := t.mapFile, mapLen := t.mapLen, mapValid := t.mapValid, seq := .idle, done := true,
      errcode := t.errcode, errInfo := t.errInfo, lastCmd := l.cmd }) ∧
    (i = .crcInit ∨ i = .crcUpdate ∨ i = .crcCompute → t = { s with
      crcState := t.crcState, faults := t.faults, draws := t.draws, seq := .idle, done := true,
      errcode := t.errcode, errInfo := t.errInfo, lastCmd := l.cmd }) ∧
    (i = .crcInit → t.faults = s.faults ∧ t.draws = s.draws) ∧
    (i = .crcUpdate ∨ i = .crcCompute →
      t.faults = s.faults ∨ RecordsReads s t l.dbAddr.toNat l.nbytes.toNat) ∧
    (i ≠ .readBits → i ≠ .writeBits →
      (∀ k, dbRead t.db k = dbRead s.db k) ∧ ∀ a, sysRead t.mem a = sysRead s.mem a)

/-- R186: every completion, with or without an error and of a legal or an illegal word, leaves the
sequencer IDLE with the snapshot discarded, BUSY 0, DONE 1, LAST_CMD the completed word, and ERR_INFO 0
if ERRCODE is NONE; it changes no mask (IE) and does not touch OVR. -/
def Obligations.CompletionWritesTheRegisters : Prop :=
  ∀ (s t : State) (l : Snapshot), s.seq = .busy l → blockStep s = .next t →
    t.seq = .idle ∧ (statusWord t).getLsbD 0 = false ∧ (statusWord t).getLsbD 1 = true ∧
    t.done = true ∧ t.lastCmd = l.cmd ∧ (t.errcode = .none → t.errInfo = 0) ∧ t.ie = s.ie ∧
    t.ovr = s.ovr ∧ ((statusWord t).getLsbD 2 = true ↔ t.errcode ≠ .none)

/-- R93, R183: an illegal word issues like any other, and at its completion raises ILLEGAL_COMMAND with
the word, whatever the operand registers hold, and changes no state but the completion registers. -/
def Obligations.IllegalWordCompletesAsIllegal : Prop :=
  ∀ w : Word,
    (w.toNat % 16 = 0 ∨ 7 ≤ w.toNat % 16 ∨ w.toNat / 16 ≠ 0) →
    (∀ s : State, s.seq = .idle → ∃ t l, hostWrite .word 0x00C#17 w s = .next t ∧
      t.seq = .busy l ∧ l.cmd = w) ∧
    ∀ (s : State) (l : Snapshot), s.seq = .busy l → l.cmd = w →
      blockStep s = .next { s with
        errcode := .illegalCommand, errInfo := w, lastCmd := w, done := true, seq := .idle }

/-- R187: a command that completes with an error code other than BUS_ERROR has written no byte of system
memory, no DB byte and not CRC_STATE; and of the map it has at most invalidated it, which only a
MAP_BUILD does. -/
def Obligations.FailedCommandWritesNothing : Prop :=
  ∀ (s t : State) (l : Snapshot), s.seq = .busy l → blockStep s = .next t →
    t.errcode ≠ .none → t.errcode ≠ .busError →
    (∀ a, sysRead t.mem a = sysRead s.mem a) ∧ (∀ k, dbRead t.db k = dbRead s.db k) ∧
    t.crcState = s.crcState ∧
    (t.mapFile = s.mapFile ∧ t.mapLen = s.mapLen ∧ t.mapValid = s.mapValid ∨
      l.cmd = 0x00000001#32 ∧ t.mapValid = false ∧ t.mapLen = 0 ∧ ∀ k, mapEntry t k = 0)

/-- R222: every pending command, of whatever word and whatever its data, completes: one turn of the
block ends it. With no act of the host's queued that turn is the next step, which is safe if the data is
written. That one turn is enough is the model's form of "finitely many block steps" (log 20). -/
def Obligations.PendingCommandCompletes : Prop :=
  ∀ (s : State) (l : Snapshot), s.seq = .busy l →
    ∃ t, blockStep s = .next t ∧ isBusy t = false ∧ t.done = true ∧
      (s.inputs = [] → RunsTo 1 s t ∧ (DbWritten s l → SafeStep s))

/-- R20, R46, R186: however a command completes, it writes no operand register, leaves IE and OVR, the
parameters and the host's acts and replies; and a step of any kind leaves the parameters and takes no
recorded fault away (spec/93_implementation_defined.md: a fault is never cleared). -/
def Obligations.CommandsLeaveOperands : Prop :=
  (∀ (s t : State) (i : Instr), exec i s = .next t →
    t = copyOperands s t ∧ t.ie = s.ie ∧ t.ovr = s.ovr ∧ t.params = s.params ∧
    t.inputs = s.inputs ∧ t.replies = s.replies ∧ s.draws ≤ t.draws) ∧
  ∀ s t : State, step s = .next t → t.params = s.params ∧ s.draws ≤ t.draws ∧
    ∃ new, t.faults = new ++ s.faults

/-- R66, R67, R74, R182, R212, and the treatment of faults of spec/93_implementation_defined.md, never
cleared and never final: every step goes on, and a fault it records is that of a host access the block
does not support, of a DB byte inside DB_SIZE that nothing has written, or of the host's access to a
pixel buffer the block owns. -/
def Obligations.EveryStepGoesOnAndFaultsAsTheSpec : Prop :=
  ∀ s : State, ∃ t new, step s = .next t ∧ t.faults = new ++ s.faults ∧ ∀ f ∈ new,
    (∃ w off, f = .unsupported w off ∧
      ((∃ r, s.inputs = .read w off :: r) ∨ ∃ v r, s.inputs = .write w off v :: r) ∧
      (off.toNat < 0x10000 ∧ (w ≠ .word ∨ off.toNat % 4 ≠ 0) ∨
        0x10000 ≤ off.toNat ∧ off.toNat % w.bytes ≠ 0)) ∨
    (∃ k, f = .dbByteUnwritten k ∧ k < dbSize s ∧ dbRead s.db k = none) ∨
    (∃ a l, f = .bufferOwned a ∧ s.seq = .busy l ∧
      ((∃ r, s.inputs = .memRead a :: r) ∨ ∃ v r, s.inputs = .memWrite a v :: r) ∧
      (pendingCommand s = some .readBits ∨ pendingCommand s = some .writeBits) ∧
      l.pbBase.toNat ≤ a.toNat ∧ a.toNat < l.pbBase.toNat + l.pbLen.toNat)

/-! The invariant. -/

/-- The state after reset meets the invariant. -/
def Obligations.ResetMeetsInvariant : Prop := BlockInv State.reset

/-- R113, R180, R181, R25, R62, R71: every step keeps the invariant: the memories stay canonical and
inside their address ranges, the map register file is a valid ascending map or cleared, DONE is clear
while BUSY, and the error registers belong to one completion. -/
def Obligations.StepKeepsInvariant : Prop :=
  ∀ s t : State, BlockInv s → step s = .next t → BlockInv t
end

