-- ==== Sys2Proof/Laws/Memory.lean ====
section
/-! SUPPORT. The laws of the sorted memories: read after write, the canonical form, what a fill and a
bit store do, and that equal reads make equal data. -/

namespace Sys2Proof.Machine

/-! Lookup after write. -/

theorem Memory.lookup_eq_none_of_lt {m : Memory} {a : Nat} (h : ∀ c ∈ m, a < c.1) :
    Memory.lookup m a = none := by
  induction m with
  | nil => rfl
  | cons c r ih =>
    have hc := h c (by simp)
    simp only [Memory.lookup]
    rw [if_neg (by omega)]
    exact ih fun d hd => h d (by simp [hd])

theorem Memory.lookup_write_ne {u : Option Byte} {m : Memory} {a k : Nat} {v : Byte} (h : k ≠ a) :
    Memory.lookup (Memory.write u m a v) k = Memory.lookup m k := by
  induction m with
  | nil => unfold Memory.write; split <;> simp [Memory.lookup, h]
  | cons c r ih =>
    unfold Memory.write
    split
    · split <;> simp [Memory.lookup, h]
    · split
      · rename_i hab
        subst hab
        split <;> simp [Memory.lookup, h]
      · simp [Memory.lookup, ih]

theorem Memory.lookup_write_self {u : Option Byte} {m : Memory} {a : Nat} {v : Byte}
    (hm : m.Pairwise fun c d => c.1 < d.1) :
    Memory.lookup (Memory.write u m a v) a = if some v = u then none else some v := by
  induction m with
  | nil => unfold Memory.write; split <;> simp [Memory.lookup]
  | cons c r ih =>
    obtain ⟨hc, hr⟩ := List.pairwise_cons.mp hm
    unfold Memory.write
    split
    · rename_i hlt
      split
      · rename_i hv
        exact Memory.lookup_eq_none_of_lt fun d hd => by
          rcases List.mem_cons.mp hd with rfl | hd
          · exact hlt
          · exact Nat.lt_trans hlt (hc d hd)
      · simp [Memory.lookup]
    · split
      · rename_i hab
        subst hab
        split
        · exact Memory.lookup_eq_none_of_lt hc
        · simp [Memory.lookup]
      · rename_i hne
        simp [Memory.lookup, hne, ih hr]

/-- The read of DB after a write needs no canonical form: no value is the unlisted one. -/
theorem Memory.lookup_write_none_self {m : Memory} {a : Nat} {v : Byte} :
    Memory.lookup (Memory.write none m a v) a = some v := by
  induction m with
  | nil => simp [Memory.write, Memory.lookup]
  | cons c r ih =>
    unfold Memory.write
    split
    · simp [Memory.lookup]
    · split
      · simp [Memory.lookup]
      · rename_i hne
        simp [Memory.lookup, hne, ih]

/-! The canonical form. -/

theorem Memory.mem_write {u : Option Byte} {m : Memory} {a : Nat} {v : Byte} {c : Host.Cell}
    (h : c ∈ Memory.write u m a v) : c ∈ m ∨ (c = (a, v) ∧ some v ≠ u) := by
  induction m with
  | nil =>
    unfold Memory.write at h
    split at h
    · simp at h
    · rename_i hv
      exact .inr ⟨by simpa using h, hv⟩
  | cons d r ih =>
    unfold Memory.write at h
    split at h
    · split at h
      · exact .inl h
      · rename_i hv
        rcases List.mem_cons.mp h with rfl | h
        · exact .inr ⟨rfl, hv⟩
        · exact .inl h
    · split at h
      · split at h
        · exact .inl (by simp [h])
        · rename_i hv
          rcases List.mem_cons.mp h with rfl | h
          · exact .inr ⟨rfl, hv⟩
          · exact .inl (by simp [h])
      · rcases List.mem_cons.mp h with rfl | h
        · exact .inl (by simp)
        · rcases ih h with h | h
          · exact .inl (by simp [h])
          · exact .inr h

theorem Memory.pairwise_write {u : Option Byte} {m : Memory} {a : Nat} {v : Byte}
    (hm : m.Pairwise fun c d => c.1 < d.1) :
    (Memory.write u m a v).Pairwise fun c d => c.1 < d.1 := by
  induction m with
  | nil => unfold Memory.write; split <;> simp
  | cons c r ih =>
    obtain ⟨hc, hr⟩ := List.pairwise_cons.mp hm
    unfold Memory.write
    split
    · rename_i hlt
      split
      · exact hm
      · refine List.pairwise_cons.mpr ⟨fun d hd => ?_, hm⟩
        rcases List.mem_cons.mp hd with rfl | hd
        · exact hlt
        · exact Nat.lt_trans hlt (hc d hd)
    · split
      · rename_i hab
        subst hab
        split
        · exact hr
        · exact List.pairwise_cons.mpr ⟨hc, hr⟩
      · rename_i h1 h2
        refine List.pairwise_cons.mpr ⟨fun d hd => ?_, ih hr⟩
        rcases Memory.mem_write hd with hd | ⟨rfl, -⟩
        · exact hc d hd
        · simp only
          omega

/-- Every write inside the address range keeps the canonical form. -/
theorem Memory.wf_write {u : Option Byte} {size : Nat} {m : Memory} {a : Nat} {v : Byte}
    (hm : Memory.wf u size m) (ha : a < size) : Memory.wf u size (Memory.write u m a v) := by
  refine ⟨Memory.pairwise_write hm.1, fun c hc => ?_⟩
  rcases Memory.mem_write hc with hc | ⟨rfl, hv⟩
  · exact hm.2 c hc
  · exact ⟨ha, hv⟩

theorem Memory.wf_nil (u : Option Byte) (size : Nat) : Memory.wf u size [] := by simp [Memory.wf]

theorem Memory.mem_of_lookup {m : Memory} {a : Nat} {v : Byte} (h : Memory.lookup m a = some v) :
    (a, v) ∈ m := by
  induction m with
  | nil => simp [Memory.lookup] at h
  | cons c r ih =>
    simp only [Memory.lookup] at h
    split at h
    · rename_i hac
      subst hac
      cases h
      simp
    · simp [ih h]

theorem Memory.lookup_of_mem {m : Memory} {c : Host.Cell}
    (hm : m.Pairwise fun c d => c.1 < d.1) (h : c ∈ m) : Memory.lookup m c.1 = some c.2 := by
  induction m with
  | nil => simp at h
  | cons d r ih =>
    obtain ⟨hd, hr⟩ := List.pairwise_cons.mp hm
    rcases List.mem_cons.mp h with rfl | h
    · simp [Memory.lookup]
    · have := hd c h
      simp only [Memory.lookup]
      rw [if_neg (by omega)]
      exact ih hr h

/-! Fills. -/

theorem Memory.fill_zero (u : Option Byte) (m : Memory) (start : Nat) (f : Nat → Byte) :
    Memory.fill u m start 0 f = m := rfl

theorem Memory.fill_succ (u : Option Byte) (m : Memory) (start n : Nat) (f : Nat → Byte) :
    Memory.fill u m start (n + 1) f =
      Memory.write u (Memory.fill u m start n f) (start + n) (f n) := by
  simp [Memory.fill, List.range_succ]

theorem Memory.wf_fill {u : Option Byte} {size : Nat} {m : Memory} {start n : Nat} {f : Nat → Byte}
    (hm : Memory.wf u size m) (h : n = 0 ∨ start + n ≤ size) :
    Memory.wf u size (Memory.fill u m start n f) := by
  induction n with
  | zero => exact hm
  | succ n ih =>
    rw [Memory.fill_succ]
    exact Memory.wf_write (ih (by omega)) (by omega)

/-- What a DB fill does, byte by byte. -/
theorem dbRead_dbFill (d : Memory) (start n : Nat) (f : Nat → Byte) (k : Nat) :
    dbRead (dbFill d start n f) k =
      if start ≤ k ∧ k < start + n then some (f (k - start)) else dbRead d k := by
  induction n with
  | zero => rw [if_neg (by omega)]; rfl
  | succ n ih =>
    have e : dbFill d start (n + 1) f = Memory.write none (dbFill d start n f) (start + n) (f n) :=
      Memory.fill_succ ..
    simp only [dbRead] at ih ⊢
    rw [e]
    by_cases hk : k = start + n
    · subst hk
      rw [Memory.lookup_write_none_self, if_pos (by omega)]
      simp
    · rw [Memory.lookup_write_ne hk, ih]
      by_cases h : start ≤ k ∧ k < start + n
      · rw [if_pos h, if_pos (by omega)]
      · rw [if_neg h, if_neg (by omega)]

theorem wf_dbFill {d : Memory} {size start n : Nat} {f : Nat → Byte}
    (hd : Memory.wf dbUnlisted size d) (h : n = 0 ∨ start + n ≤ size) :
    Memory.wf dbUnlisted size (dbFill d start n f) := Memory.wf_fill hd h

/-! Reading DB where some bytes may hold no value (spec/70_reset_and_hazards.md R212). -/

theorem dbByte_of_some {n k : Nat} {d : Memory} {b : Byte} (h : dbRead d k = some b) :
    dbByte n d k = b := by simp [dbByte, h]

@[simp] theorem dbBytes_length (n : Nat) (d : Memory) (start len : Nat) :
    (dbBytes n d start len).length = len := by simp [dbBytes]

theorem dbBytes_getElem? {n start len t : Nat} {d : Memory} (h : t < len) :
    (dbBytes n d start len)[t]? = some (dbByte n d (start + t)) := by
  simp [dbBytes, h]

/-- A string that stands in DB is what is read. -/
theorem dbBytes_of_reads {n start len : Nat} {d : Memory} {D : List Byte} (hD : D.length = len)
    (h : ∀ t, t < len → dbRead d (start + t) = D[t]?) : dbBytes n d start len = D := by
  refine List.ext_getElem? fun t => ?_
  by_cases ht : t < len
  · have h1 := h t ht
    rw [List.getElem?_eq_getElem (by omega)] at h1
    rw [dbBytes_getElem? ht, dbByte_of_some h1, List.getElem?_eq_getElem (by omega)]
  · rw [List.getElem?_eq_none (by simp; omega), List.getElem?_eq_none (by omega)]

theorem mem_unwritten {d : Memory} {start len k : Nat} :
    k ∈ unwritten d start len ↔ start ≤ k ∧ k < start + len ∧ dbRead d k = none := by
  simp only [unwritten, List.mem_filter, List.mem_map, List.mem_range, Option.isNone_iff_eq_none]
  constructor
  · rintro ⟨⟨t, ht, rfl⟩, h⟩
    exact ⟨by omega, by omega, h⟩
  · rintro ⟨h1, h2, h⟩
    exact ⟨⟨k - start, by omega, by omega⟩, h⟩

theorem unwritten_eq_nil {d : Memory} {start len : Nat} :
    unwritten d start len = [] ↔ ∀ t, t < len → dbRead d (start + t) ≠ none := by
  rw [List.eq_nil_iff_forall_not_mem]
  constructor
  · intro h t ht hn
    exact h (start + t) (mem_unwritten.mpr ⟨by omega, by omega, hn⟩)
  · intro h k hk
    obtain ⟨h1, h2, h3⟩ := mem_unwritten.mp hk
    exact h (k - start) (by omega) (by rw [show start + (k - start) = k by omega]; exact h3)

/-! System memory. -/

theorem sysRead_sysWrite_ne {m : Memory} {a k : Nat} {v : Byte} (h : k ≠ a) :
    sysRead (sysWrite m a v) k = sysRead m k := by
  simp [sysRead, sysWrite, Memory.lookup_write_ne h]

theorem sysRead_sysWrite_self {m : Memory} {a : Nat} {v : Byte}
    (hm : m.Pairwise fun c d => c.1 < d.1) : sysRead (sysWrite m a v) a = v := by
  simp only [sysRead, sysWrite, Memory.lookup_write_self hm]
  split
  · rename_i h
    cases h
    rfl
  · rfl

theorem wf_sysWrite {m : Memory} {a : Nat} {v : Byte}
    (hm : Memory.wf (some sysUnlisted) sysSize m) (ha : a < sysSize) :
    Memory.wf (some sysUnlisted) sysSize (sysWrite m a v) := Memory.wf_write hm ha

theorem sysRead_sysSetBit_ne {m : Memory} {a b k : Nat} {d : Bool} (h : k ≠ a) :
    sysRead (sysSetBit m a b d) k = sysRead m k := sysRead_sysWrite_ne h

/-- Clearing bit `b` and setting it if `d` gives `d` at bit `b` and leaves the others. -/
theorem setBit_getLsbD (v : Byte) (b c : Nat) (d : Bool) (hb : b < 8) (hc : c < 8) :
    ((v &&& ~~~(1#8 <<< b)) ||| (BitVec.ofNat 8 d.toNat <<< b)).getLsbD c =
      if c = b then d else v.getLsbD c := by
  have h1 : ∀ x, (1#8).getLsbD x = decide (x = 0) := by
    intro x
    cases x <;> simp [BitVec.getLsbD_one]
  have h2 : ∀ x, (BitVec.ofNat 8 d.toNat).getLsbD x = (decide (x = 0) && d) := by
    intro x
    cases d
    · simp
    · simp
  simp only [BitVec.getLsbD_or, BitVec.getLsbD_and, BitVec.getLsbD_not, BitVec.getLsbD_shiftLeft,
    h1, h2, hc, decide_true, Bool.true_and]
  by_cases h : c = b
  · subst h; simp
  · by_cases hlt : c < b
    · simp [h, hlt]
    · have : ¬ c - b = 0 := by omega
      simp [h, hlt, this]

theorem sysRead_sysSetBit_self {m : Memory} {a b c : Nat} {d : Bool}
    (hm : m.Pairwise fun c d => c.1 < d.1) (hb : b < 8) (hc : c < 8) :
    (sysRead (sysSetBit m a b d) a).getLsbD c = if c = b then d else (sysRead m a).getLsbD c := by
  rw [sysSetBit, sysRead_sysWrite_self hm, setBit_getLsbD _ _ _ _ hb hc]

theorem pairwise_sysSetBit {m : Memory} {a b : Nat} {d : Bool}
    (hm : m.Pairwise fun c d => c.1 < d.1) :
    (sysSetBit m a b d).Pairwise fun c d => c.1 < d.1 := Memory.pairwise_write hm

theorem wf_sysSetBit {m : Memory} {a b : Nat} {d : Bool}
    (hm : Memory.wf (some sysUnlisted) sysSize m) (ha : a < sysSize) :
    Memory.wf (some sysUnlisted) sysSize (sysSetBit m a b d) := Memory.wf_write hm ha

end Sys2Proof.Machine
end

