-- ==== Sys2Proof/Laws/State.lean ====
section
/-! SUPPORT. One lemma per field of `State` for each named update, each true by unfolding, so that no
proof has to unfold a record update. -/

namespace Sys2Proof.Machine

variable (s : State)

/-! `finish`. -/

@[simp] theorem finish_params (l : Snapshot) (code : ErrCode) (info : Word) : (finish l code info s).params = s.params := rfl
@[simp] theorem finish_seq (l : Snapshot) (code : ErrCode) (info : Word) : (finish l code info s).seq = .idle := rfl
@[simp] theorem finish_ie (l : Snapshot) (code : ErrCode) (info : Word) : (finish l code info s).ie = s.ie := rfl
@[simp] theorem finish_done (l : Snapshot) (code : ErrCode) (info : Word) : (finish l code info s).done = true := rfl
@[simp] theorem finish_ovr (l : Snapshot) (code : ErrCode) (info : Word) : (finish l code info s).ovr = s.ovr := rfl
@[simp] theorem finish_mapValid (l : Snapshot) (code : ErrCode) (info : Word) : (finish l code info s).mapValid = s.mapValid := rfl
@[simp] theorem finish_errcode (l : Snapshot) (code : ErrCode) (info : Word) : (finish l code info s).errcode = code := rfl
@[simp] theorem finish_maskLo (l : Snapshot) (code : ErrCode) (info : Word) : (finish l code info s).maskLo = s.maskLo := rfl
@[simp] theorem finish_maskHi (l : Snapshot) (code : ErrCode) (info : Word) : (finish l code info s).maskHi = s.maskHi := rfl
@[simp] theorem finish_stride (l : Snapshot) (code : ErrCode) (info : Word) : (finish l code info s).stride = s.stride := rfl
@[simp] theorem finish_mapWidth (l : Snapshot) (code : ErrCode) (info : Word) : (finish l code info s).mapWidth = s.mapWidth := rfl
@[simp] theorem finish_pbBase (l : Snapshot) (code : ErrCode) (info : Word) : (finish l code info s).pbBase = s.pbBase := rfl
@[simp] theorem finish_pbLen (l : Snapshot) (code : ErrCode) (info : Word) : (finish l code info s).pbLen = s.pbLen := rfl
@[simp] theorem finish_startPixel (l : Snapshot) (code : ErrCode) (info : Word) : (finish l code info s).startPixel = s.startPixel := rfl
@[simp] theorem finish_dbAddr (l : Snapshot) (code : ErrCode) (info : Word) : (finish l code info s).dbAddr = s.dbAddr := rfl
@[simp] theorem finish_nbytes (l : Snapshot) (code : ErrCode) (info : Word) : (finish l code info s).nbytes = s.nbytes := rfl
@[simp] theorem finish_crcState (l : Snapshot) (code : ErrCode) (info : Word) : (finish l code info s).crcState = s.crcState := rfl
@[simp] theorem finish_mapLen (l : Snapshot) (code : ErrCode) (info : Word) : (finish l code info s).mapLen = s.mapLen := rfl
@[simp] theorem finish_mapFile (l : Snapshot) (code : ErrCode) (info : Word) : (finish l code info s).mapFile = s.mapFile := rfl
@[simp] theorem finish_errInfo (l : Snapshot) (code : ErrCode) (info : Word) : (finish l code info s).errInfo = info := rfl
@[simp] theorem finish_lastCmd (l : Snapshot) (code : ErrCode) (info : Word) : (finish l code info s).lastCmd = l.cmd := rfl
@[simp] theorem finish_db (l : Snapshot) (code : ErrCode) (info : Word) : (finish l code info s).db = s.db := rfl
@[simp] theorem finish_mem (l : Snapshot) (code : ErrCode) (info : Word) : (finish l code info s).mem = s.mem := rfl
@[simp] theorem finish_inputs (l : Snapshot) (code : ErrCode) (info : Word) : (finish l code info s).inputs = s.inputs := rfl
@[simp] theorem finish_replies (l : Snapshot) (code : ErrCode) (info : Word) : (finish l code info s).replies = s.replies := rfl
@[simp] theorem finish_faults (l : Snapshot) (code : ErrCode) (info : Word) : (finish l code info s).faults = s.faults := rfl
@[simp] theorem finish_draws (l : Snapshot) (code : ErrCode) (info : Word) : (finish l code info s).draws = s.draws := rfl

/-! `invalidateMap`. -/

@[simp] theorem invalidateMap_params : (invalidateMap s).params = s.params := rfl
@[simp] theorem invalidateMap_seq : (invalidateMap s).seq = s.seq := rfl
@[simp] theorem invalidateMap_ie : (invalidateMap s).ie = s.ie := rfl
@[simp] theorem invalidateMap_done : (invalidateMap s).done = s.done := rfl
@[simp] theorem invalidateMap_ovr : (invalidateMap s).ovr = s.ovr := rfl
@[simp] theorem invalidateMap_mapValid : (invalidateMap s).mapValid = false := rfl
@[simp] theorem invalidateMap_errcode : (invalidateMap s).errcode = s.errcode := rfl
@[simp] theorem invalidateMap_maskLo : (invalidateMap s).maskLo = s.maskLo := rfl
@[simp] theorem invalidateMap_maskHi : (invalidateMap s).maskHi = s.maskHi := rfl
@[simp] theorem invalidateMap_stride : (invalidateMap s).stride = s.stride := rfl
@[simp] theorem invalidateMap_mapWidth : (invalidateMap s).mapWidth = s.mapWidth := rfl
@[simp] theorem invalidateMap_pbBase : (invalidateMap s).pbBase = s.pbBase := rfl
@[simp] theorem invalidateMap_pbLen : (invalidateMap s).pbLen = s.pbLen := rfl
@[simp] theorem invalidateMap_startPixel : (invalidateMap s).startPixel = s.startPixel := rfl
@[simp] theorem invalidateMap_dbAddr : (invalidateMap s).dbAddr = s.dbAddr := rfl
@[simp] theorem invalidateMap_nbytes : (invalidateMap s).nbytes = s.nbytes := rfl
@[simp] theorem invalidateMap_crcState : (invalidateMap s).crcState = s.crcState := rfl
@[simp] theorem invalidateMap_mapLen : (invalidateMap s).mapLen = 0 := rfl
@[simp] theorem invalidateMap_mapFile : (invalidateMap s).mapFile = Vector.replicate 64 0 := rfl
@[simp] theorem invalidateMap_errInfo : (invalidateMap s).errInfo = s.errInfo := rfl
@[simp] theorem invalidateMap_lastCmd : (invalidateMap s).lastCmd = s.lastCmd := rfl
@[simp] theorem invalidateMap_db : (invalidateMap s).db = s.db := rfl
@[simp] theorem invalidateMap_mem : (invalidateMap s).mem = s.mem := rfl
@[simp] theorem invalidateMap_inputs : (invalidateMap s).inputs = s.inputs := rfl
@[simp] theorem invalidateMap_replies : (invalidateMap s).replies = s.replies := rfl
@[simp] theorem invalidateMap_faults : (invalidateMap s).faults = s.faults := rfl
@[simp] theorem invalidateMap_draws : (invalidateMap s).draws = s.draws := rfl

/-! `storeMap`. -/

@[simp] theorem storeMap_params (M : List Nat) : (storeMap M s).params = s.params := rfl
@[simp] theorem storeMap_seq (M : List Nat) : (storeMap M s).seq = s.seq := rfl
@[simp] theorem storeMap_ie (M : List Nat) : (storeMap M s).ie = s.ie := rfl
@[simp] theorem storeMap_done (M : List Nat) : (storeMap M s).done = s.done := rfl
@[simp] theorem storeMap_ovr (M : List Nat) : (storeMap M s).ovr = s.ovr := rfl
@[simp] theorem storeMap_mapValid (M : List Nat) : (storeMap M s).mapValid = true := rfl
@[simp] theorem storeMap_errcode (M : List Nat) : (storeMap M s).errcode = s.errcode := rfl
@[simp] theorem storeMap_maskLo (M : List Nat) : (storeMap M s).maskLo = s.maskLo := rfl
@[simp] theorem storeMap_maskHi (M : List Nat) : (storeMap M s).maskHi = s.maskHi := rfl
@[simp] theorem storeMap_stride (M : List Nat) : (storeMap M s).stride = s.stride := rfl
@[simp] theorem storeMap_mapWidth (M : List Nat) : (storeMap M s).mapWidth = s.mapWidth := rfl
@[simp] theorem storeMap_pbBase (M : List Nat) : (storeMap M s).pbBase = s.pbBase := rfl
@[simp] theorem storeMap_pbLen (M : List Nat) : (storeMap M s).pbLen = s.pbLen := rfl
@[simp] theorem storeMap_startPixel (M : List Nat) : (storeMap M s).startPixel = s.startPixel := rfl
@[simp] theorem storeMap_dbAddr (M : List Nat) : (storeMap M s).dbAddr = s.dbAddr := rfl
@[simp] theorem storeMap_nbytes (M : List Nat) : (storeMap M s).nbytes = s.nbytes := rfl
@[simp] theorem storeMap_crcState (M : List Nat) : (storeMap M s).crcState = s.crcState := rfl
@[simp] theorem storeMap_mapLen (M : List Nat) : (storeMap M s).mapLen = BitVec.ofNat 7 M.length := rfl
@[simp] theorem storeMap_mapFile (M : List Nat) : (storeMap M s).mapFile = Vector.ofFn fun k => BitVec.ofNat 6 (M.getD k.val 0) := rfl
@[simp] theorem storeMap_errInfo (M : List Nat) : (storeMap M s).errInfo = s.errInfo := rfl
@[simp] theorem storeMap_lastCmd (M : List Nat) : (storeMap M s).lastCmd = s.lastCmd := rfl
@[simp] theorem storeMap_db (M : List Nat) : (storeMap M s).db = s.db := rfl
@[simp] theorem storeMap_mem (M : List Nat) : (storeMap M s).mem = s.mem := rfl
@[simp] theorem storeMap_inputs (M : List Nat) : (storeMap M s).inputs = s.inputs := rfl
@[simp] theorem storeMap_replies (M : List Nat) : (storeMap M s).replies = s.replies := rfl
@[simp] theorem storeMap_faults (M : List Nat) : (storeMap M s).faults = s.faults := rfl
@[simp] theorem storeMap_draws (M : List Nat) : (storeMap M s).draws = s.draws := rfl

/-! `takeDraw`. -/

@[simp] theorem takeDraw_params : (takeDraw s).params = s.params := rfl
@[simp] theorem takeDraw_seq : (takeDraw s).seq = s.seq := rfl
@[simp] theorem takeDraw_ie : (takeDraw s).ie = s.ie := rfl
@[simp] theorem takeDraw_done : (takeDraw s).done = s.done := rfl
@[simp] theorem takeDraw_ovr : (takeDraw s).ovr = s.ovr := rfl
@[simp] theorem takeDraw_mapValid : (takeDraw s).mapValid = s.mapValid := rfl
@[simp] theorem takeDraw_errcode : (takeDraw s).errcode = s.errcode := rfl
@[simp] theorem takeDraw_maskLo : (takeDraw s).maskLo = s.maskLo := rfl
@[simp] theorem takeDraw_maskHi : (takeDraw s).maskHi = s.maskHi := rfl
@[simp] theorem takeDraw_stride : (takeDraw s).stride = s.stride := rfl
@[simp] theorem takeDraw_mapWidth : (takeDraw s).mapWidth = s.mapWidth := rfl
@[simp] theorem takeDraw_pbBase : (takeDraw s).pbBase = s.pbBase := rfl
@[simp] theorem takeDraw_pbLen : (takeDraw s).pbLen = s.pbLen := rfl
@[simp] theorem takeDraw_startPixel : (takeDraw s).startPixel = s.startPixel := rfl
@[simp] theorem takeDraw_dbAddr : (takeDraw s).dbAddr = s.dbAddr := rfl
@[simp] theorem takeDraw_nbytes : (takeDraw s).nbytes = s.nbytes := rfl
@[simp] theorem takeDraw_crcState : (takeDraw s).crcState = s.crcState := rfl
@[simp] theorem takeDraw_mapLen : (takeDraw s).mapLen = s.mapLen := rfl
@[simp] theorem takeDraw_mapFile : (takeDraw s).mapFile = s.mapFile := rfl
@[simp] theorem takeDraw_errInfo : (takeDraw s).errInfo = s.errInfo := rfl
@[simp] theorem takeDraw_lastCmd : (takeDraw s).lastCmd = s.lastCmd := rfl
@[simp] theorem takeDraw_db : (takeDraw s).db = s.db := rfl
@[simp] theorem takeDraw_mem : (takeDraw s).mem = s.mem := rfl
@[simp] theorem takeDraw_inputs : (takeDraw s).inputs = s.inputs := rfl
@[simp] theorem takeDraw_replies : (takeDraw s).replies = s.replies := rfl
@[simp] theorem takeDraw_faults : (takeDraw s).faults = s.faults := rfl
@[simp] theorem takeDraw_draws : (takeDraw s).draws = s.draws + 1 := rfl

/-! `acknowledge`. -/

@[simp] theorem acknowledge_params (cd co : Bool) : (acknowledge cd co s).params = s.params := rfl
@[simp] theorem acknowledge_seq (cd co : Bool) : (acknowledge cd co s).seq = s.seq := rfl
@[simp] theorem acknowledge_ie (cd co : Bool) : (acknowledge cd co s).ie = s.ie := rfl
@[simp] theorem acknowledge_done (cd co : Bool) : (acknowledge cd co s).done = (s.done && !cd) := rfl
@[simp] theorem acknowledge_ovr (cd co : Bool) : (acknowledge cd co s).ovr = (s.ovr && !co) := rfl
@[simp] theorem acknowledge_mapValid (cd co : Bool) : (acknowledge cd co s).mapValid = s.mapValid := rfl
@[simp] theorem acknowledge_errcode (cd co : Bool) : (acknowledge cd co s).errcode = s.errcode := rfl
@[simp] theorem acknowledge_maskLo (cd co : Bool) : (acknowledge cd co s).maskLo = s.maskLo := rfl
@[simp] theorem acknowledge_maskHi (cd co : Bool) : (acknowledge cd co s).maskHi = s.maskHi := rfl
@[simp] theorem acknowledge_stride (cd co : Bool) : (acknowledge cd co s).stride = s.stride := rfl
@[simp] theorem acknowledge_mapWidth (cd co : Bool) : (acknowledge cd co s).mapWidth = s.mapWidth := rfl
@[simp] theorem acknowledge_pbBase (cd co : Bool) : (acknowledge cd co s).pbBase = s.pbBase := rfl
@[simp] theorem acknowledge_pbLen (cd co : Bool) : (acknowledge cd co s).pbLen = s.pbLen := rfl
@[simp] theorem acknowledge_startPixel (cd co : Bool) : (acknowledge cd co s).startPixel = s.startPixel := rfl
@[simp] theorem acknowledge_dbAddr (cd co : Bool) : (acknowledge cd co s).dbAddr = s.dbAddr := rfl
@[simp] theorem acknowledge_nbytes (cd co : Bool) : (acknowledge cd co s).nbytes = s.nbytes := rfl
@[simp] theorem acknowledge_crcState (cd co : Bool) : (acknowledge cd co s).crcState = s.crcState := rfl
@[simp] theorem acknowledge_mapLen (cd co : Bool) : (acknowledge cd co s).mapLen = s.mapLen := rfl
@[simp] theorem acknowledge_mapFile (cd co : Bool) : (acknowledge cd co s).mapFile = s.mapFile := rfl
@[simp] theorem acknowledge_errInfo (cd co : Bool) : (acknowledge cd co s).errInfo = s.errInfo := rfl
@[simp] theorem acknowledge_lastCmd (cd co : Bool) : (acknowledge cd co s).lastCmd = s.lastCmd := rfl
@[simp] theorem acknowledge_db (cd co : Bool) : (acknowledge cd co s).db = s.db := rfl
@[simp] theorem acknowledge_mem (cd co : Bool) : (acknowledge cd co s).mem = s.mem := rfl
@[simp] theorem acknowledge_inputs (cd co : Bool) : (acknowledge cd co s).inputs = s.inputs := rfl
@[simp] theorem acknowledge_replies (cd co : Bool) : (acknowledge cd co s).replies = s.replies := rfl
@[simp] theorem acknowledge_faults (cd co : Bool) : (acknowledge cd co s).faults = s.faults := rfl
@[simp] theorem acknowledge_draws (cd co : Bool) : (acknowledge cd co s).draws = s.draws := rfl

/-! `issue`. -/

@[simp] theorem issue_params (w : Word) : (issue w s).params = s.params := rfl
@[simp] theorem issue_seq (w : Word) : (issue w s).seq = .busy (latch w s) := rfl
@[simp] theorem issue_ie (w : Word) : (issue w s).ie = s.ie := rfl
@[simp] theorem issue_done (w : Word) : (issue w s).done = false := rfl
@[simp] theorem issue_ovr (w : Word) : (issue w s).ovr = s.ovr := rfl
@[simp] theorem issue_mapValid (w : Word) : (issue w s).mapValid = s.mapValid := rfl
@[simp] theorem issue_errcode (w : Word) : (issue w s).errcode = s.errcode := rfl
@[simp] theorem issue_maskLo (w : Word) : (issue w s).maskLo = s.maskLo := rfl
@[simp] theorem issue_maskHi (w : Word) : (issue w s).maskHi = s.maskHi := rfl
@[simp] theorem issue_stride (w : Word) : (issue w s).stride = s.stride := rfl
@[simp] theorem issue_mapWidth (w : Word) : (issue w s).mapWidth = s.mapWidth := rfl
@[simp] theorem issue_pbBase (w : Word) : (issue w s).pbBase = s.pbBase := rfl
@[simp] theorem issue_pbLen (w : Word) : (issue w s).pbLen = s.pbLen := rfl
@[simp] theorem issue_startPixel (w : Word) : (issue w s).startPixel = s.startPixel := rfl
@[simp] theorem issue_dbAddr (w : Word) : (issue w s).dbAddr = s.dbAddr := rfl
@[simp] theorem issue_nbytes (w : Word) : (issue w s).nbytes = s.nbytes := rfl
@[simp] theorem issue_crcState (w : Word) : (issue w s).crcState = s.crcState := rfl
@[simp] theorem issue_mapLen (w : Word) : (issue w s).mapLen = s.mapLen := rfl
@[simp] theorem issue_mapFile (w : Word) : (issue w s).mapFile = s.mapFile := rfl
@[simp] theorem issue_errInfo (w : Word) : (issue w s).errInfo = s.errInfo := rfl
@[simp] theorem issue_lastCmd (w : Word) : (issue w s).lastCmd = s.lastCmd := rfl
@[simp] theorem issue_db (w : Word) : (issue w s).db = s.db := rfl
@[simp] theorem issue_mem (w : Word) : (issue w s).mem = s.mem := rfl
@[simp] theorem issue_inputs (w : Word) : (issue w s).inputs = s.inputs := rfl
@[simp] theorem issue_replies (w : Word) : (issue w s).replies = s.replies := rfl
@[simp] theorem issue_faults (w : Word) : (issue w s).faults = s.faults := rfl
@[simp] theorem issue_draws (w : Word) : (issue w s).draws = s.draws := rfl

/-! `answer`. -/

@[simp] theorem answer_params (r : Reply) : (answer r s).params = s.params := rfl
@[simp] theorem answer_seq (r : Reply) : (answer r s).seq = s.seq := rfl
@[simp] theorem answer_ie (r : Reply) : (answer r s).ie = s.ie := rfl
@[simp] theorem answer_done (r : Reply) : (answer r s).done = s.done := rfl
@[simp] theorem answer_ovr (r : Reply) : (answer r s).ovr = s.ovr := rfl
@[simp] theorem answer_mapValid (r : Reply) : (answer r s).mapValid = s.mapValid := rfl
@[simp] theorem answer_errcode (r : Reply) : (answer r s).errcode = s.errcode := rfl
@[simp] theorem answer_maskLo (r : Reply) : (answer r s).maskLo = s.maskLo := rfl
@[simp] theorem answer_maskHi (r : Reply) : (answer r s).maskHi = s.maskHi := rfl
@[simp] theorem answer_stride (r : Reply) : (answer r s).stride = s.stride := rfl
@[simp] theorem answer_mapWidth (r : Reply) : (answer r s).mapWidth = s.mapWidth := rfl
@[simp] theorem answer_pbBase (r : Reply) : (answer r s).pbBase = s.pbBase := rfl
@[simp] theorem answer_pbLen (r : Reply) : (answer r s).pbLen = s.pbLen := rfl
@[simp] theorem answer_startPixel (r : Reply) : (answer r s).startPixel = s.startPixel := rfl
@[simp] theorem answer_dbAddr (r : Reply) : (answer r s).dbAddr = s.dbAddr := rfl
@[simp] theorem answer_nbytes (r : Reply) : (answer r s).nbytes = s.nbytes := rfl
@[simp] theorem answer_crcState (r : Reply) : (answer r s).crcState = s.crcState := rfl
@[simp] theorem answer_mapLen (r : Reply) : (answer r s).mapLen = s.mapLen := rfl
@[simp] theorem answer_mapFile (r : Reply) : (answer r s).mapFile = s.mapFile := rfl
@[simp] theorem answer_errInfo (r : Reply) : (answer r s).errInfo = s.errInfo := rfl
@[simp] theorem answer_lastCmd (r : Reply) : (answer r s).lastCmd = s.lastCmd := rfl
@[simp] theorem answer_db (r : Reply) : (answer r s).db = s.db := rfl
@[simp] theorem answer_mem (r : Reply) : (answer r s).mem = s.mem := rfl
@[simp] theorem answer_inputs (r : Reply) : (answer r s).inputs = s.inputs := rfl
@[simp] theorem answer_replies (r : Reply) : (answer r s).replies = r :: s.replies := rfl
@[simp] theorem answer_faults (r : Reply) : (answer r s).faults = s.faults := rfl
@[simp] theorem answer_draws (r : Reply) : (answer r s).draws = s.draws := rfl

/-! `popInput`. -/

@[simp] theorem popInput_params : (popInput s).params = s.params := rfl
@[simp] theorem popInput_seq : (popInput s).seq = s.seq := rfl
@[simp] theorem popInput_ie : (popInput s).ie = s.ie := rfl
@[simp] theorem popInput_done : (popInput s).done = s.done := rfl
@[simp] theorem popInput_ovr : (popInput s).ovr = s.ovr := rfl
@[simp] theorem popInput_mapValid : (popInput s).mapValid = s.mapValid := rfl
@[simp] theorem popInput_errcode : (popInput s).errcode = s.errcode := rfl
@[simp] theorem popInput_maskLo : (popInput s).maskLo = s.maskLo := rfl
@[simp] theorem popInput_maskHi : (popInput s).maskHi = s.maskHi := rfl
@[simp] theorem popInput_stride : (popInput s).stride = s.stride := rfl
@[simp] theorem popInput_mapWidth : (popInput s).mapWidth = s.mapWidth := rfl
@[simp] theorem popInput_pbBase : (popInput s).pbBase = s.pbBase := rfl
@[simp] theorem popInput_pbLen : (popInput s).pbLen = s.pbLen := rfl
@[simp] theorem popInput_startPixel : (popInput s).startPixel = s.startPixel := rfl
@[simp] theorem popInput_dbAddr : (popInput s).dbAddr = s.dbAddr := rfl
@[simp] theorem popInput_nbytes : (popInput s).nbytes = s.nbytes := rfl
@[simp] theorem popInput_crcState : (popInput s).crcState = s.crcState := rfl
@[simp] theorem popInput_mapLen : (popInput s).mapLen = s.mapLen := rfl
@[simp] theorem popInput_mapFile : (popInput s).mapFile = s.mapFile := rfl
@[simp] theorem popInput_errInfo : (popInput s).errInfo = s.errInfo := rfl
@[simp] theorem popInput_lastCmd : (popInput s).lastCmd = s.lastCmd := rfl
@[simp] theorem popInput_db : (popInput s).db = s.db := rfl
@[simp] theorem popInput_mem : (popInput s).mem = s.mem := rfl
@[simp] theorem popInput_inputs : (popInput s).inputs = s.inputs.tail := rfl
@[simp] theorem popInput_replies : (popInput s).replies = s.replies := rfl
@[simp] theorem popInput_faults : (popInput s).faults = s.faults := rfl
@[simp] theorem popInput_draws : (popInput s).draws = s.draws := rfl

/-! `rejectAccess`. -/

@[simp] theorem rejectAccess_params (w : Width) (off : Offset) : (rejectAccess w off s).params = s.params := rfl
@[simp] theorem rejectAccess_seq (w : Width) (off : Offset) : (rejectAccess w off s).seq = s.seq := rfl
@[simp] theorem rejectAccess_ie (w : Width) (off : Offset) : (rejectAccess w off s).ie = s.ie := rfl
@[simp] theorem rejectAccess_done (w : Width) (off : Offset) : (rejectAccess w off s).done = s.done := rfl
@[simp] theorem rejectAccess_ovr (w : Width) (off : Offset) : (rejectAccess w off s).ovr = s.ovr := rfl
@[simp] theorem rejectAccess_mapValid (w : Width) (off : Offset) : (rejectAccess w off s).mapValid = s.mapValid := rfl
@[simp] theorem rejectAccess_errcode (w : Width) (off : Offset) : (rejectAccess w off s).errcode = s.errcode := rfl
@[simp] theorem rejectAccess_maskLo (w : Width) (off : Offset) : (rejectAccess w off s).maskLo = s.maskLo := rfl
@[simp] theorem rejectAccess_maskHi (w : Width) (off : Offset) : (rejectAccess w off s).maskHi = s.maskHi := rfl
@[simp] theorem rejectAccess_stride (w : Width) (off : Offset) : (rejectAccess w off s).stride = s.stride := rfl
@[simp] theorem rejectAccess_mapWidth (w : Width) (off : Offset) : (rejectAccess w off s).mapWidth = s.mapWidth := rfl
@[simp] theorem rejectAccess_pbBase (w : Width) (off : Offset) : (rejectAccess w off s).pbBase = s.pbBase := rfl
@[simp] theorem rejectAccess_pbLen (w : Width) (off : Offset) : (rejectAccess w off s).pbLen = s.pbLen := rfl
@[simp] theorem rejectAccess_startPixel (w : Width) (off : Offset) : (rejectAccess w off s).startPixel = s.startPixel := rfl
@[simp] theorem rejectAccess_dbAddr (w : Width) (off : Offset) : (rejectAccess w off s).dbAddr = s.dbAddr := rfl
@[simp] theorem rejectAccess_nbytes (w : Width) (off : Offset) : (rejectAccess w off s).nbytes = s.nbytes := rfl
@[simp] theorem rejectAccess_crcState (w : Width) (off : Offset) : (rejectAccess w off s).crcState = s.crcState := rfl
@[simp] theorem rejectAccess_mapLen (w : Width) (off : Offset) : (rejectAccess w off s).mapLen = s.mapLen := rfl
@[simp] theorem rejectAccess_mapFile (w : Width) (off : Offset) : (rejectAccess w off s).mapFile = s.mapFile := rfl
@[simp] theorem rejectAccess_errInfo (w : Width) (off : Offset) : (rejectAccess w off s).errInfo = s.errInfo := rfl
@[simp] theorem rejectAccess_lastCmd (w : Width) (off : Offset) : (rejectAccess w off s).lastCmd = s.lastCmd := rfl
@[simp] theorem rejectAccess_db (w : Width) (off : Offset) : (rejectAccess w off s).db = s.db := rfl
@[simp] theorem rejectAccess_mem (w : Width) (off : Offset) : (rejectAccess w off s).mem = s.mem := rfl
@[simp] theorem rejectAccess_inputs (w : Width) (off : Offset) : (rejectAccess w off s).inputs = s.inputs := rfl
@[simp] theorem rejectAccess_replies (w : Width) (off : Offset) : (rejectAccess w off s).replies = .busError :: s.replies := rfl
@[simp] theorem rejectAccess_faults (w : Width) (off : Offset) : (rejectAccess w off s).faults = .unsupported w off :: s.faults := rfl
@[simp] theorem rejectAccess_draws (w : Width) (off : Offset) : (rejectAccess w off s).draws = s.draws := rfl

/-! `noteReads`. -/

@[simp] theorem noteReads_params (k n : Nat) : (noteReads k n s).params = s.params := rfl
@[simp] theorem noteReads_seq (k n : Nat) : (noteReads k n s).seq = s.seq := rfl
@[simp] theorem noteReads_ie (k n : Nat) : (noteReads k n s).ie = s.ie := rfl
@[simp] theorem noteReads_done (k n : Nat) : (noteReads k n s).done = s.done := rfl
@[simp] theorem noteReads_ovr (k n : Nat) : (noteReads k n s).ovr = s.ovr := rfl
@[simp] theorem noteReads_mapValid (k n : Nat) : (noteReads k n s).mapValid = s.mapValid := rfl
@[simp] theorem noteReads_errcode (k n : Nat) : (noteReads k n s).errcode = s.errcode := rfl
@[simp] theorem noteReads_maskLo (k n : Nat) : (noteReads k n s).maskLo = s.maskLo := rfl
@[simp] theorem noteReads_maskHi (k n : Nat) : (noteReads k n s).maskHi = s.maskHi := rfl
@[simp] theorem noteReads_stride (k n : Nat) : (noteReads k n s).stride = s.stride := rfl
@[simp] theorem noteReads_mapWidth (k n : Nat) : (noteReads k n s).mapWidth = s.mapWidth := rfl
@[simp] theorem noteReads_pbBase (k n : Nat) : (noteReads k n s).pbBase = s.pbBase := rfl
@[simp] theorem noteReads_pbLen (k n : Nat) : (noteReads k n s).pbLen = s.pbLen := rfl
@[simp] theorem noteReads_startPixel (k n : Nat) : (noteReads k n s).startPixel = s.startPixel := rfl
@[simp] theorem noteReads_dbAddr (k n : Nat) : (noteReads k n s).dbAddr = s.dbAddr := rfl
@[simp] theorem noteReads_nbytes (k n : Nat) : (noteReads k n s).nbytes = s.nbytes := rfl
@[simp] theorem noteReads_crcState (k n : Nat) : (noteReads k n s).crcState = s.crcState := rfl
@[simp] theorem noteReads_mapLen (k n : Nat) : (noteReads k n s).mapLen = s.mapLen := rfl
@[simp] theorem noteReads_mapFile (k n : Nat) : (noteReads k n s).mapFile = s.mapFile := rfl
@[simp] theorem noteReads_errInfo (k n : Nat) : (noteReads k n s).errInfo = s.errInfo := rfl
@[simp] theorem noteReads_lastCmd (k n : Nat) : (noteReads k n s).lastCmd = s.lastCmd := rfl
@[simp] theorem noteReads_db (k n : Nat) : (noteReads k n s).db = s.db := rfl
@[simp] theorem noteReads_mem (k n : Nat) : (noteReads k n s).mem = s.mem := rfl
@[simp] theorem noteReads_inputs (k n : Nat) : (noteReads k n s).inputs = s.inputs := rfl
@[simp] theorem noteReads_replies (k n : Nat) : (noteReads k n s).replies = s.replies := rfl
@[simp] theorem noteReads_faults (k n : Nat) : (noteReads k n s).faults = (unwritten s.db k n).map .dbByteUnwritten ++ s.faults := rfl
@[simp] theorem noteReads_draws (k n : Nat) : (noteReads k n s).draws = s.draws + (unwritten s.db k n).length := rfl

/-! `noteData`. -/

@[simp] theorem noteData_params (l : Snapshot) : (noteData l s).params = s.params := rfl
@[simp] theorem noteData_seq (l : Snapshot) : (noteData l s).seq = s.seq := rfl
@[simp] theorem noteData_ie (l : Snapshot) : (noteData l s).ie = s.ie := rfl
@[simp] theorem noteData_done (l : Snapshot) : (noteData l s).done = s.done := rfl
@[simp] theorem noteData_ovr (l : Snapshot) : (noteData l s).ovr = s.ovr := rfl
@[simp] theorem noteData_mapValid (l : Snapshot) : (noteData l s).mapValid = s.mapValid := rfl
@[simp] theorem noteData_errcode (l : Snapshot) : (noteData l s).errcode = s.errcode := rfl
@[simp] theorem noteData_maskLo (l : Snapshot) : (noteData l s).maskLo = s.maskLo := rfl
@[simp] theorem noteData_maskHi (l : Snapshot) : (noteData l s).maskHi = s.maskHi := rfl
@[simp] theorem noteData_stride (l : Snapshot) : (noteData l s).stride = s.stride := rfl
@[simp] theorem noteData_mapWidth (l : Snapshot) : (noteData l s).mapWidth = s.mapWidth := rfl
@[simp] theorem noteData_pbBase (l : Snapshot) : (noteData l s).pbBase = s.pbBase := rfl
@[simp] theorem noteData_pbLen (l : Snapshot) : (noteData l s).pbLen = s.pbLen := rfl
@[simp] theorem noteData_startPixel (l : Snapshot) : (noteData l s).startPixel = s.startPixel := rfl
@[simp] theorem noteData_dbAddr (l : Snapshot) : (noteData l s).dbAddr = s.dbAddr := rfl
@[simp] theorem noteData_nbytes (l : Snapshot) : (noteData l s).nbytes = s.nbytes := rfl
@[simp] theorem noteData_crcState (l : Snapshot) : (noteData l s).crcState = s.crcState := rfl
@[simp] theorem noteData_mapLen (l : Snapshot) : (noteData l s).mapLen = s.mapLen := rfl
@[simp] theorem noteData_mapFile (l : Snapshot) : (noteData l s).mapFile = s.mapFile := rfl
@[simp] theorem noteData_errInfo (l : Snapshot) : (noteData l s).errInfo = s.errInfo := rfl
@[simp] theorem noteData_lastCmd (l : Snapshot) : (noteData l s).lastCmd = s.lastCmd := rfl
@[simp] theorem noteData_db (l : Snapshot) : (noteData l s).db = s.db := rfl
@[simp] theorem noteData_mem (l : Snapshot) : (noteData l s).mem = s.mem := rfl
@[simp] theorem noteData_inputs (l : Snapshot) : (noteData l s).inputs = s.inputs := rfl
@[simp] theorem noteData_replies (l : Snapshot) : (noteData l s).replies = s.replies := rfl
@[simp] theorem noteData_faults (l : Snapshot) : (noteData l s).faults = (unwritten s.db l.dbAddr.toNat l.nbytes.toNat).map .dbByteUnwritten ++ s.faults := rfl
@[simp] theorem noteData_draws (l : Snapshot) : (noteData l s).draws = s.draws + (unwritten s.db l.dbAddr.toNat l.nbytes.toNat).length := rfl

/-! `scrambleDb`. -/

@[simp] theorem scrambleDb_params (l : Snapshot) : (scrambleDb l s).params = s.params := rfl
@[simp] theorem scrambleDb_seq (l : Snapshot) : (scrambleDb l s).seq = s.seq := rfl
@[simp] theorem scrambleDb_ie (l : Snapshot) : (scrambleDb l s).ie = s.ie := rfl
@[simp] theorem scrambleDb_done (l : Snapshot) : (scrambleDb l s).done = s.done := rfl
@[simp] theorem scrambleDb_ovr (l : Snapshot) : (scrambleDb l s).ovr = s.ovr := rfl
@[simp] theorem scrambleDb_mapValid (l : Snapshot) : (scrambleDb l s).mapValid = s.mapValid := rfl
@[simp] theorem scrambleDb_errcode (l : Snapshot) : (scrambleDb l s).errcode = s.errcode := rfl
@[simp] theorem scrambleDb_maskLo (l : Snapshot) : (scrambleDb l s).maskLo = s.maskLo := rfl
@[simp] theorem scrambleDb_maskHi (l : Snapshot) : (scrambleDb l s).maskHi = s.maskHi := rfl
@[simp] theorem scrambleDb_stride (l : Snapshot) : (scrambleDb l s).stride = s.stride := rfl
@[simp] theorem scrambleDb_mapWidth (l : Snapshot) : (scrambleDb l s).mapWidth = s.mapWidth := rfl
@[simp] theorem scrambleDb_pbBase (l : Snapshot) : (scrambleDb l s).pbBase = s.pbBase := rfl
@[simp] theorem scrambleDb_pbLen (l : Snapshot) : (scrambleDb l s).pbLen = s.pbLen := rfl
@[simp] theorem scrambleDb_startPixel (l : Snapshot) : (scrambleDb l s).startPixel = s.startPixel := rfl
@[simp] theorem scrambleDb_dbAddr (l : Snapshot) : (scrambleDb l s).dbAddr = s.dbAddr := rfl
@[simp] theorem scrambleDb_nbytes (l : Snapshot) : (scrambleDb l s).nbytes = s.nbytes := rfl
@[simp] theorem scrambleDb_crcState (l : Snapshot) : (scrambleDb l s).crcState = s.crcState := rfl
@[simp] theorem scrambleDb_mapLen (l : Snapshot) : (scrambleDb l s).mapLen = s.mapLen := rfl
@[simp] theorem scrambleDb_mapFile (l : Snapshot) : (scrambleDb l s).mapFile = s.mapFile := rfl
@[simp] theorem scrambleDb_errInfo (l : Snapshot) : (scrambleDb l s).errInfo = s.errInfo := rfl
@[simp] theorem scrambleDb_lastCmd (l : Snapshot) : (scrambleDb l s).lastCmd = s.lastCmd := rfl
@[simp] theorem scrambleDb_db (l : Snapshot) : (scrambleDb l s).db = dbFill s.db l.dbAddr.toNat (min l.nbytes.toNat (dbSize s - l.dbAddr.toNat)) (Config.freeByte s.draws) := rfl
@[simp] theorem scrambleDb_mem (l : Snapshot) : (scrambleDb l s).mem = s.mem := rfl
@[simp] theorem scrambleDb_inputs (l : Snapshot) : (scrambleDb l s).inputs = s.inputs := rfl
@[simp] theorem scrambleDb_replies (l : Snapshot) : (scrambleDb l s).replies = s.replies := rfl
@[simp] theorem scrambleDb_faults (l : Snapshot) : (scrambleDb l s).faults = s.faults := rfl
@[simp] theorem scrambleDb_draws (l : Snapshot) : (scrambleDb l s).draws = s.draws + 1 := rfl

/-! `scramblePb`. -/

@[simp] theorem scramblePb_params (l : Snapshot) : (scramblePb l s).params = s.params := rfl
@[simp] theorem scramblePb_seq (l : Snapshot) : (scramblePb l s).seq = s.seq := rfl
@[simp] theorem scramblePb_ie (l : Snapshot) : (scramblePb l s).ie = s.ie := rfl
@[simp] theorem scramblePb_done (l : Snapshot) : (scramblePb l s).done = s.done := rfl
@[simp] theorem scramblePb_ovr (l : Snapshot) : (scramblePb l s).ovr = s.ovr := rfl
@[simp] theorem scramblePb_mapValid (l : Snapshot) : (scramblePb l s).mapValid = s.mapValid := rfl
@[simp] theorem scramblePb_errcode (l : Snapshot) : (scramblePb l s).errcode = s.errcode := rfl
@[simp] theorem scramblePb_maskLo (l : Snapshot) : (scramblePb l s).maskLo = s.maskLo := rfl
@[simp] theorem scramblePb_maskHi (l : Snapshot) : (scramblePb l s).maskHi = s.maskHi := rfl
@[simp] theorem scramblePb_stride (l : Snapshot) : (scramblePb l s).stride = s.stride := rfl
@[simp] theorem scramblePb_mapWidth (l : Snapshot) : (scramblePb l s).mapWidth = s.mapWidth := rfl
@[simp] theorem scramblePb_pbBase (l : Snapshot) : (scramblePb l s).pbBase = s.pbBase := rfl
@[simp] theorem scramblePb_pbLen (l : Snapshot) : (scramblePb l s).pbLen = s.pbLen := rfl
@[simp] theorem scramblePb_startPixel (l : Snapshot) : (scramblePb l s).startPixel = s.startPixel := rfl
@[simp] theorem scramblePb_dbAddr (l : Snapshot) : (scramblePb l s).dbAddr = s.dbAddr := rfl
@[simp] theorem scramblePb_nbytes (l : Snapshot) : (scramblePb l s).nbytes = s.nbytes := rfl
@[simp] theorem scramblePb_crcState (l : Snapshot) : (scramblePb l s).crcState = s.crcState := rfl
@[simp] theorem scramblePb_mapLen (l : Snapshot) : (scramblePb l s).mapLen = s.mapLen := rfl
@[simp] theorem scramblePb_mapFile (l : Snapshot) : (scramblePb l s).mapFile = s.mapFile := rfl
@[simp] theorem scramblePb_errInfo (l : Snapshot) : (scramblePb l s).errInfo = s.errInfo := rfl
@[simp] theorem scramblePb_lastCmd (l : Snapshot) : (scramblePb l s).lastCmd = s.lastCmd := rfl
@[simp] theorem scramblePb_db (l : Snapshot) : (scramblePb l s).db = s.db := rfl
@[simp] theorem scramblePb_mem (l : Snapshot) : (scramblePb l s).mem = writeStream s l (fun j => if Config.freeBit s.draws j then dataBit s l j else pixelBit s l j) (nbits l) := rfl
@[simp] theorem scramblePb_inputs (l : Snapshot) : (scramblePb l s).inputs = s.inputs := rfl
@[simp] theorem scramblePb_replies (l : Snapshot) : (scramblePb l s).replies = s.replies := rfl
@[simp] theorem scramblePb_faults (l : Snapshot) : (scramblePb l s).faults = (unwritten s.db l.dbAddr.toNat l.nbytes.toNat).map .dbByteUnwritten ++ s.faults := rfl
@[simp] theorem scramblePb_draws (l : Snapshot) : (scramblePb l s).draws = s.draws + (unwritten s.db l.dbAddr.toNat l.nbytes.toNat).length + 1 := rfl

/-! `clearBlock`. -/

@[simp] theorem clearBlock_params : (clearBlock s).params = s.params := rfl
@[simp] theorem clearBlock_seq : (clearBlock s).seq = State.reset.seq := rfl
@[simp] theorem clearBlock_ie : (clearBlock s).ie = State.reset.ie := rfl
@[simp] theorem clearBlock_done : (clearBlock s).done = State.reset.done := rfl
@[simp] theorem clearBlock_ovr : (clearBlock s).ovr = State.reset.ovr := rfl
@[simp] theorem clearBlock_mapValid : (clearBlock s).mapValid = State.reset.mapValid := rfl
@[simp] theorem clearBlock_errcode : (clearBlock s).errcode = State.reset.errcode := rfl
@[simp] theorem clearBlock_maskLo : (clearBlock s).maskLo = State.reset.maskLo := rfl
@[simp] theorem clearBlock_maskHi : (clearBlock s).maskHi = State.reset.maskHi := rfl
@[simp] theorem clearBlock_stride : (clearBlock s).stride = State.reset.stride := rfl
@[simp] theorem clearBlock_mapWidth : (clearBlock s).mapWidth = State.reset.mapWidth := rfl
@[simp] theorem clearBlock_pbBase : (clearBlock s).pbBase = State.reset.pbBase := rfl
@[simp] theorem clearBlock_pbLen : (clearBlock s).pbLen = State.reset.pbLen := rfl
@[simp] theorem clearBlock_startPixel : (clearBlock s).startPixel = State.reset.startPixel := rfl
@[simp] theorem clearBlock_dbAddr : (clearBlock s).dbAddr = State.reset.dbAddr := rfl
@[simp] theorem clearBlock_nbytes : (clearBlock s).nbytes = State.reset.nbytes := rfl
@[simp] theorem clearBlock_crcState : (clearBlock s).crcState = State.reset.crcState := rfl
@[simp] theorem clearBlock_mapLen : (clearBlock s).mapLen = State.reset.mapLen := rfl
@[simp] theorem clearBlock_mapFile : (clearBlock s).mapFile = State.reset.mapFile := rfl
@[simp] theorem clearBlock_errInfo : (clearBlock s).errInfo = State.reset.errInfo := rfl
@[simp] theorem clearBlock_lastCmd : (clearBlock s).lastCmd = State.reset.lastCmd := rfl
@[simp] theorem clearBlock_db : (clearBlock s).db = s.db := rfl
@[simp] theorem clearBlock_mem : (clearBlock s).mem = s.mem := rfl
@[simp] theorem clearBlock_inputs : (clearBlock s).inputs = s.inputs := rfl
@[simp] theorem clearBlock_replies : (clearBlock s).replies = s.replies := rfl
@[simp] theorem clearBlock_faults : (clearBlock s).faults = s.faults := rfl
@[simp] theorem clearBlock_draws : (clearBlock s).draws = s.draws := rfl

end Sys2Proof.Machine
end

