-- ==== Sys2Proof/Laws/Ops.lean ====
section
/-! SUPPORT. One law per shared operation: what it does, said once, for proofs to cite. -/

namespace Sys2Proof.Machine

/-! The pending command. -/

theorem whenPending_busy {s : State} {l : Snapshot} {f : Snapshot → Result} (h : s.seq = .busy l) :
    whenPending s f = f l := by
  simp [whenPending, h]

theorem whenPending_idle {s : State} {f : Snapshot → Result} (h : s.seq = .idle) :
    whenPending s f = .next s := by
  simp [whenPending, h]

@[simp] theorem isBusy_idle {s : State} (h : s.seq = .idle) : isBusy s = false := by
  simp [isBusy, h]

@[simp] theorem isBusy_busy {s : State} {l : Snapshot} (h : s.seq = .busy l) : isBusy s = true := by
  simp [isBusy, h]

theorem isBusy_eq_true {s : State} : isBusy s = true ↔ ∃ l, s.seq = .busy l := by
  cases h : s.seq <;> simp [isBusy, h]

theorem isBusy_eq_false {s : State} : isBusy s = false ↔ s.seq = .idle := by
  cases h : s.seq <;> simp [isBusy, h]

theorem complete_eq (l : Snapshot) (s : State) : complete l s = .next (finish l .none 0 s) := rfl

theorem raise_eq (l : Snapshot) (code : ErrCode) (info : Word) (s : State) :
    raise l code info s = .next (finish l code info s) := rfl

theorem pendingCommand_busy {s : State} {l : Snapshot} {i : Instr} (h : s.seq = .busy l)
    (hd : decode l.cmd = .ok i) : pendingCommand s = some i := by
  simp [pendingCommand, h, hd]

/-! Decoding. -/

theorem decode_encode (i : Instr) : decode (encode i) = .ok i := by cases i <;> decide

theorem rsvd_op_split (w : Word) (h : rsvdField w = 0) : w = (opField w).setWidth 32 := by
  apply BitVec.eq_of_getLsbD_eq
  intro i hi
  by_cases h4 : i < 4
  · simp [opField, h4, hi]
  · have : (rsvdField w).getLsbD (i - 4) = false := by rw [h]; simp
    simp only [rsvdField, BitVec.getLsbD_extractLsb'] at this
    rw [show 4 + (i - 4) = i by omega] at this
    have h28 : i - 4 < 28 := by omega
    simp only [h28, decide_true, Bool.true_and] at this
    simp [opField, BitVec.getLsbD_setWidth, BitVec.getLsbD_extractLsb', h4, this]

theorem opCommand_eq_some {op : BitVec 4} {i : Instr} (h : opCommand op = some i) :
    op.setWidth 32 = encode i := by
  revert h
  revert op i
  decide

/-- The decoder takes exactly the six words of the table (spec/30_encoding.md R92). -/
theorem decode_eq_ok {w : Word} {i : Instr} : decode w = .ok i ↔ w = encode i := by
  constructor
  · intro h
    unfold decode at h
    split at h
    · cases h
    · rename_i hr
      split at h
      · rename_i j hj
        cases h
        rw [rsvd_op_split w (by simpa using hr)]
        exact opCommand_eq_some hj
      · cases h
  · rintro rfl
    exact decode_encode i

/-! The map register file. -/

theorem mapEntry_lt (s : State) (k : Nat) : mapEntry s k < 64 := by
  have := ((s.mapFile[k]?).getD 0).isLt
  simpa [mapEntry] using this

theorem mapEntry_congr {s t : State} (h : s.mapFile = t.mapFile) : mapEntry s = mapEntry t := by
  funext k
  simp [mapEntry, h]

theorem mapEntry_storeMap {M : List Nat} (hM : M.length ≤ 64) (h64 : ∀ i ∈ M, i < 64) (s : State)
    (k : Nat) : mapEntry (storeMap M s) k = M.getD k 0 := by
  by_cases hk : k < 64
  · have hlt : M.getD k 0 < 64 := by
      by_cases hl : k < M.length
      · rw [List.getD_eq_getElem _ _ hl]; exact h64 _ (List.getElem_mem hl)
      · rw [List.getD_eq_default _ _ (by omega : M.length ≤ k)]; omega
    simp [mapEntry, Vector.getElem?_eq_getElem hk]
    simp only [List.getD_eq_getElem?_getD] at hlt
    exact hlt
  · have h1 : (storeMap M s).mapFile[k]? = none := Vector.getElem?_eq_none (by omega)
    simp only [mapEntry, h1]
    rw [List.getD_eq_default _ _ (by omega : M.length ≤ k)]
    rfl

theorem mapEntry_invalidateMap (s : State) (k : Nat) : mapEntry (invalidateMap s) k = 0 := by
  simp only [mapEntry, invalidateMap_mapFile]
  by_cases hk : k < 64
  · simp [Vector.getElem?_eq_getElem hk]
  · simp [Vector.getElem?_eq_none (by omega : 64 ≤ k)]

/-! Saturation. -/

theorem saturate32_toNat (n : Nat) : (saturate32 n).toNat = min n (2 ^ 32 - 1) := by
  simp only [saturate32, BitVec.toNat_ofNat]
  omega

theorem dbSize_pos (s : State) : 1 ≤ dbSize s := by simp [dbSize]

theorem dbSize_le (s : State) : dbSize s ≤ 65536 := by
  have := s.params.dbTop.isLt
  simp only [dbSize]
  omega

theorem dbSize_congr {s t : State} (h : s.params = t.params) : dbSize s = dbSize t := by
  simp [dbSize, h]

/-! Choosing one of a list. -/

theorem pickOne_mem (n : Nat) (k : Nat) (r : List Nat) : pickOne n (k :: r) ∈ k :: r := by
  have h : Config.freeIndex n % (k :: r).length < (k :: r).length := Nat.mod_lt _ (by simp)
  rw [pickOne, List.getD_eq_getElem _ _ h]
  exact List.getElem_mem h

/-! Reading DB where some bytes may hold no value (spec/70_reset_and_hazards.md R212). -/

/-- Reading bytes that all hold a value records nothing. -/
theorem noteReads_written {start len : Nat} {s : State}
    (h : ∀ t, t < len → dbRead s.db (start + t) ≠ none) : noteReads start len s = s := by
  simp [noteReads, unwritten_eq_nil.mpr h]

theorem noteData_written {s : State} {l : Snapshot} (h : DbWritten s l) : noteData l s = s :=
  noteReads_written h

/-- What reading DB records, in the words of `RecordsReads`; `t` is any state with these faults. -/
theorem RecordsReads.of_faults {s t : State} {start len : Nat}
    (h : t.faults = (unwritten s.db start len).map .dbByteUnwritten ++ s.faults) :
    RecordsReads s t start len := by
  refine ⟨_, h, fun f => ?_⟩
  simp only [List.mem_map, mem_unwritten]
  constructor
  · rintro ⟨k, hk, rfl⟩
    exact ⟨k, rfl, hk⟩
  · rintro ⟨k, rfl, hk⟩
    exact ⟨k, hk, rfl⟩

/-- No byte is read: no fault is recorded. -/
theorem RecordsReads.none {s t : State} {start : Nat} (h : t.faults = s.faults) :
    RecordsReads s t start 0 := RecordsReads.of_faults (by simpa [unwritten] using h)

/-- A string that stands in DB is a command's data. -/
theorem dataBytes_of_holds {s : State} {l : Snapshot} {D : List Byte} (hD : D.length = l.nbytes.toNat)
    (h : DbHolds s.db l.dbAddr.toNat D) : dataBytes s l = D :=
  dbBytes_of_reads hD fun t ht => h t (by omega)

@[simp] theorem dataBytes_length (s : State) (l : Snapshot) :
    (dataBytes s l).length = l.nbytes.toNat := dbBytes_length ..

/-- A command's data that is all written stands in DB. -/
theorem DbWritten.holds {s : State} {l : Snapshot} (h : DbWritten s l) :
    DbHolds s.db l.dbAddr.toNat (dataBytes s l) := fun t ht => by
  have ht : t < l.nbytes.toNat := by simpa using ht
  obtain ⟨b, hb⟩ := Option.ne_none_iff_exists'.mp (h t ht)
  rw [dataBytes, dbBytes_getElem? ht, dbByte_of_some hb, hb]

theorem DbHolds.written {s : State} {l : Snapshot} {D : List Byte} (hD : D.length = l.nbytes.toNat)
    (h : DbHolds s.db l.dbAddr.toNat D) : DbWritten s l := fun t ht => by
  rw [h t (by omega), List.getElem?_eq_getElem (by omega)]
  simp

end Sys2Proof.Machine
end

