-- ==== Sys2Proof/Laws/Channel.lean ====
section
/-! SUPPORT. The bit channel: the order of offsets (spec/41_bit_channel.md R132), what passing
`check_channel()` says, and what the write loop does bit by bit. -/

namespace Sys2Proof.Machine

/-! What the checks say (R134). -/

theorem checkChannel_access {s : State} {l : Snapshot} :
    checkChannel s l = .access ↔ ChannelReady s l := by
  have he : dbEnd l = l.dbAddr.toNat + l.nbytes.toNat := rfl
  constructor
  · intro h
    unfold checkChannel at h
    simp only at h
    split at h
    · cases h
    split at h
    · cases h
    split at h
    · cases h
    split at h
    · cases h
    split at h
    · cases h
    split at h
    · cases h
    split at h
    · cases h
    rename_i h1 h2 h3 h4 h5 h6 h7
    exact ⟨by omega, by omega, by simpa using h2, by omega, by omega, by omega, h6, by omega⟩
  · rintro ⟨h1, h1', h2, h3, h4, h5, h6, h7⟩
    unfold checkChannel
    simp only
    rw [if_neg (by omega), if_neg (by simp [h2]), if_neg (by omega), if_neg (by omega),
      if_neg (by omega), if_neg h6, if_neg (by omega)]

/-- The two ways to leave without an access. -/
theorem checkChannel_nothing {s : State} {l : Snapshot} (h : checkChannel s l = .nothing) :
    l.nbytes.toNat = 0 := by
  unfold checkChannel at h
  simp only at h
  split at h
  · cases h
  split at h
  · cases h
  split at h
  · cases h
  split at h
  · cases h
  split at h
  · cases h
  split at h
  · assumption
  split at h <;> cases h

/-- The errors of R134 with their information words, in the order of the checks. -/
theorem checkChannel_error {s : State} {l : Snapshot} {code : ErrCode} {info : Word}
    (h : checkChannel s l = .error code info) :
    (code = .paramInvalid ∧ (info = 2 ∨ info = 3 ∨ info = 4)) ∨
    (code = .emptyOffsetMap ∧ info = 0) ∨
    (code = .dataBounds ∧ info = dbEndInfo l ∧ dbSize s < dbEnd l) ∨
    (code = .boundsExceeded ∧ info = saturate32 (lastOffset s l)) := by
  unfold checkChannel at h
  simp only at h
  split at h
  · cases h; simp
  split at h
  · cases h; simp
  split at h
  · cases h; simp
  split at h
  · cases h; simp
  split at h
  · cases h; simp; omega
  split at h
  · cases h
  split at h
  · cases h; simp
  · cases h

/-! Geometry (R131, R132). -/

theorem bitAt_lt (s : State) (j : Nat) : bitAt s j < 8 := by
  simp only [bitAt]
  omega

/-- An offset depends on the state only through the map. -/
theorem offsetAt_congr {s t : State} (h1 : s.mapFile = t.mapFile) (h2 : s.mapLen = t.mapLen)
    (l : Snapshot) : offsetAt s l = offsetAt t l := by
  funext j
  simp [offsetAt, pixelAt, indexAt, mapK, mapEntry_congr h1, h2]

theorem bitAt_congr {s t : State} (h1 : s.mapFile = t.mapFile) (h2 : s.mapLen = t.mapLen) :
    bitAt s = bitAt t := by
  funext j
  simp [bitAt, indexAt, mapK, mapEntry_congr h1, h2]

/-- The map of a valid register file fits the stride when its last entry does. -/
theorem indexAt_lt {s : State} {l : Snapshot} (hm : MapOk s) (hv : s.mapValid = true)
    (hf : mapEntry s (mapK s - 1) < 8 * l.stride.toNat) (j : Nat) :
    indexAt s j < 8 * l.stride.toNat := by
  obtain ⟨hK, -, hasc, -⟩ := hm.2 hv
  have hlt : j % mapK s < mapK s := Nat.mod_lt _ hK
  by_cases h : j % mapK s = mapK s - 1
  · rw [indexAt, h]; exact hf
  · exact Nat.lt_trans (hasc _ _ (by omega) (by omega)) hf

/-- R132, across and within pixels: a(j) never decreases, and two stream bits never share a pair. -/
theorem offsetAt_lt_or {s : State} {l : Snapshot} (hm : MapOk s) (hv : s.mapValid = true)
    (hf : mapEntry s (mapK s - 1) < 8 * l.stride.toNat) {i j : Nat} (hij : i < j) :
    offsetAt s l i < offsetAt s l j ∨
      (offsetAt s l i = offsetAt s l j ∧ bitAt s j < bitAt s i) := by
  obtain ⟨hK, -, hasc, -⟩ := hm.2 hv
  have hi := indexAt_lt hm hv hf i
  have hj := indexAt_lt hm hv hf j
  have hdiv : i / mapK s ≤ j / mapK s := Nat.div_le_div_right (by omega)
  rcases Nat.lt_or_eq_of_le hdiv with hlt | heq
  · left
    simp only [offsetAt, pixelAt]
    have : (l.startPixel.toNat + i / mapK s + 1) * l.stride.toNat ≤
        (l.startPixel.toNat + j / mapK s) * l.stride.toNat := Nat.mul_le_mul_right _ (by omega)
    rw [Nat.add_mul, Nat.one_mul] at this
    omega
  · have hmod : i % mapK s < j % mapK s := by
      have h1 := Nat.div_add_mod i (mapK s)
      have h2 := Nat.div_add_mod j (mapK s)
      rw [heq] at h1
      omega
    have hlt := hasc _ _ hmod (Nat.mod_lt _ hK)
    simp only [offsetAt, pixelAt, heq, bitAt]
    simp only [indexAt] at hlt ⊢
    omega

theorem offsetAt_mono {s : State} {l : Snapshot} (hm : MapOk s) (hv : s.mapValid = true)
    (hf : mapEntry s (mapK s - 1) < 8 * l.stride.toNat) {i j : Nat} (hij : i ≤ j) :
    offsetAt s l i ≤ offsetAt s l j := by
  rcases Nat.lt_or_eq_of_le hij with h | rfl
  · rcases offsetAt_lt_or hm hv hf h with h | h <;> omega
  · exact Nat.le_refl _

/-- No two stream bits name the same pixel bit (R132). -/
theorem place_inj {s : State} {l : Snapshot} (hm : MapOk s) (hv : s.mapValid = true)
    (hf : mapEntry s (mapK s - 1) < 8 * l.stride.toNat) {i j : Nat}
    (ha : offsetAt s l i = offsetAt s l j) (hb : bitAt s i = bitAt s j) : i = j := by
  rcases Nat.lt_trichotomy i j with h | h | h
  · rcases offsetAt_lt_or hm hv hf h with h | h <;> omega
  · exact h
  · rcases offsetAt_lt_or hm hv hf h with h | h <;> omega

/-- Every footprint byte of a command that passes the checks is in the buffer. -/
theorem ChannelReady.offset_lt {s : State} {l : Snapshot} (h : ChannelReady s l) (hm : MapOk s)
    {j : Nat} (hj : j < nbits l) : offsetAt s l j < l.pbLen.toNat :=
  Nat.lt_of_le_of_lt (offsetAt_mono hm h.valid h.fits (by omega : j ≤ nbits l - 1)) h.inBuffer

theorem ChannelReady.addr_lt {s : State} {l : Snapshot} (h : ChannelReady s l) (hm : MapOk s)
    {j : Nat} (hj : j < nbits l) : pbAddr l (offsetAt s l j) < sysSize := by
  have h1 := h.offset_lt hm hj
  have h2 := h.noWrap
  simp only [pbAddr, sysSize]
  omega

/-! The write loop (R140, R141). -/

theorem writeStream_zero (s : State) (l : Snapshot) (d : Nat → Bool) :
    writeStream s l d 0 = s.mem := rfl

theorem writeStream_succ (s : State) (l : Snapshot) (d : Nat → Bool) (n : Nat) :
    writeStream s l d (n + 1) =
      sysSetBit (writeStream s l d n) (pbAddr l (offsetAt s l n)) (bitAt s n) (d n) := by
  simp [writeStream, List.range_succ]

theorem pairwise_writeStream {s : State} {l : Snapshot} {d : Nat → Bool} {n : Nat}
    (hs : s.mem.Pairwise fun c d => c.1 < d.1) :
    (writeStream s l d n).Pairwise fun c d => c.1 < d.1 := by
  induction n with
  | zero => exact hs
  | succ n ih => rw [writeStream_succ]; exact pairwise_sysSetBit ih

theorem wf_writeStream {s : State} {l : Snapshot} {d : Nat → Bool} {n : Nat}
    (hs : Memory.wf (some sysUnlisted) sysSize s.mem)
    (h : ∀ j, j < n → pbAddr l (offsetAt s l j) < sysSize) :
    Memory.wf (some sysUnlisted) sysSize (writeStream s l d n) := by
  induction n with
  | zero => exact hs
  | succ n ih =>
    rw [writeStream_succ]
    exact wf_sysSetBit (ih fun j hj => h j (by omega)) (h n (by omega))

/-- A byte that is no footprint byte keeps its value, whatever the state. -/
theorem sysRead_writeStream_other {s : State} {l : Snapshot} {d : Nat → Bool} {n a : Nat}
    (h : ∀ j, j < n → a ≠ pbAddr l (offsetAt s l j)) :
    sysRead (writeStream s l d n) a = sysRead s.mem a := by
  induction n with
  | zero => rfl
  | succ n ih =>
    rw [writeStream_succ, sysRead_sysSetBit_ne (h n (by omega))]
    exact ih fun j hj => h j (by omega)

/-- A bit that is no footprint bit keeps its value. -/
theorem writeStream_bit_other {s : State} {l : Snapshot} {d : Nat → Bool} {n a c : Nat}
    (hs : s.mem.Pairwise fun c d => c.1 < d.1) (hc : c < 8)
    (h : ∀ j, j < n → ¬ (a = pbAddr l (offsetAt s l j) ∧ c = bitAt s j)) :
    (sysRead (writeStream s l d n) a).getLsbD c = (sysRead s.mem a).getLsbD c := by
  induction n with
  | zero => rfl
  | succ n ih =>
    rw [writeStream_succ]
    have hn := h n (by omega)
    have ih := ih fun j hj => h j (by omega)
    by_cases ha : a = pbAddr l (offsetAt s l n)
    · rw [ha, sysRead_sysSetBit_self (pairwise_writeStream hs) (bitAt_lt s n) hc, ← ha,
        if_neg (fun hcb => hn ⟨ha, hcb⟩), ih]
    · rw [sysRead_sysSetBit_ne ha, ih]

/-- A footprint bit takes its data bit, when no later stream bit names it. -/
theorem writeStream_bit_self {s : State} {l : Snapshot} {d : Nat → Bool} {n j : Nat}
    (hs : s.mem.Pairwise fun c d => c.1 < d.1) (hj : j < n)
    (hinj : ∀ i, i < n → offsetAt s l i = offsetAt s l j → bitAt s i = bitAt s j → i = j) :
    (sysRead (writeStream s l d n) (pbAddr l (offsetAt s l j))).getLsbD (bitAt s j) = d j := by
  induction n with
  | zero => omega
  | succ n ih =>
    rw [writeStream_succ]
    by_cases hjn : j = n
    · subst hjn
      rw [sysRead_sysSetBit_self (pairwise_writeStream hs) (bitAt_lt s j) (bitAt_lt s j), if_pos rfl]
    · have ih := ih (by omega) fun i hi => hinj i (by omega)
      by_cases ha : offsetAt s l n = offsetAt s l j
      · rw [← ha] at ih ⊢
        rw [sysRead_sysSetBit_self (pairwise_writeStream hs) (bitAt_lt s n) (bitAt_lt s j),
          if_neg (fun hb => hjn (hinj n (by omega) ha hb.symm).symm), ih]
      · rw [sysRead_sysSetBit_ne (by simp only [pbAddr]; omega), ih]

/-! Packing (spec/00_scope.md R12). -/

/-- Bit `7 - i` of a packed byte is `f i`. -/
theorem packByte_getLsbD (f : Nat → Bool) (i : Nat) (hi : i < 8) :
    (packByte f).getLsbD (7 - i) = f i := by
  have key : ∀ b0 b1 b2 b3 b4 b5 b6 b7 : Bool,
      packByte (fun i => [b0, b1, b2, b3, b4, b5, b6, b7].getD i false) =
        BitVec.ofBool b0 ++ BitVec.ofBool b1 ++ BitVec.ofBool b2 ++ BitVec.ofBool b3 ++
        BitVec.ofBool b4 ++ BitVec.ofBool b5 ++ BitVec.ofBool b6 ++ BitVec.ofBool b7 := by decide
  have hf : packByte f = packByte
      (fun i => [f 0, f 1, f 2, f 3, f 4, f 5, f 6, f 7].getD i false) := by
    simp [packByte, List.range_succ]
  rw [hf, key]
  have : i = 0 ∨ i = 1 ∨ i = 2 ∨ i = 3 ∨ i = 4 ∨ i = 5 ∨ i = 6 ∨ i = 7 := by omega
  rcases this with h | h | h | h | h | h | h | h <;> subst h <;>
    cases f 0 <;> cases f 1 <;> cases f 2 <;> cases f 3 <;> cases f 4 <;> cases f 5 <;>
    cases f 6 <;> cases f 7 <;> rfl

theorem packByte_congr {f g : Nat → Bool} (h : ∀ i, i < 8 → f i = g i) :
    packByte f = packByte g := by
  simp [packByte, List.range_succ, h 0, h 1, h 2, h 3, h 4, h 5, h 6, h 7]

/-- A byte packed from the stream bits of a string is the string's byte. -/
theorem packByte_bits (b : Byte) : packByte (fun i => b.getLsbD (7 - i)) = b := by
  revert b
  decide

/-- The stream bits of byte `t` of a string. -/
theorem packByte_streamBit (D : List Byte) (t : Nat) :
    packByte (fun i => streamBit D (8 * t + i)) = D.getD t 0 := by
  rw [← packByte_bits (D.getD t 0)]
  refine packByte_congr fun i hi => ?_
  simp only [streamBit]
  rw [show (8 * t + i) / 8 = t by omega, show (8 * t + i) % 8 = i by omega]

/-! The data bits (R141). -/

/-- D(j) where the data byte holds a value. -/
theorem dataBit_of_some {s : State} {l : Snapshot} {j : Nat} {b : Byte} (hj : j < nbits l)
    (h : dbRead s.db (l.dbAddr.toNat + j / 8) = some b) :
    dataBit s l j = b.getLsbD (7 - j % 8) := by
  have hj : j / 8 < l.nbytes.toNat := by simp only [nbits] at hj; omega
  rw [dataBit, streamBit, List.getD_eq_getElem?_getD, dataBytes, dbBytes_getElem? hj,
    dbByte_of_some h]
  rfl

/-- D(j) of a string that stands in DB. -/
theorem dataBit_of_holds {s : State} {l : Snapshot} {D : List Byte}
    (hD : D.length = l.nbytes.toNat) (h : DbHolds s.db l.dbAddr.toNat D) :
    dataBit s l = streamBit D := by
  funext j
  rw [dataBit, dataBytes_of_holds hD h]

/-- What a WRITE_BITS that did not complete normally leaves of system memory, in the words of
`FootprintOldOrData`; `t` is any state with that memory. -/
theorem footprint_scramblePb {s t : State} {l : Snapshot} (hs : s.mem.Pairwise fun c d => c.1 < d.1)
    (hm : MapOk s) (hr : ChannelReady s l) (ht : t.mem = (scramblePb l s).mem) :
    FootprintOldOrData s t l := by
  intro a c hc
  rw [ht, scramblePb_mem]
  by_cases hx : ∃ j, j < nbits l ∧ a = pbAddr l (offsetAt s l j) ∧ c = bitAt s j
  · obtain ⟨j, hj, rfl, rfl⟩ := hx
    rw [writeStream_bit_self hs hj fun i _ h1 h2 => place_inj hm hr.valid hr.fits h1 h2]
    by_cases hf : Config.freeBit s.draws j = true
    · right
      refine ⟨j, hj, rfl, rfl, fun b hb => ?_⟩
      rw [if_pos hf, dataBit_of_some hj hb]
    · left
      rw [if_neg hf]
      rfl
  · exact .inl (writeStream_bit_other hs hc fun j hj h => hx ⟨j, hj, h⟩)

/-! Failing accesses. -/

theorem mem_footprintOffsets {s : State} {l : Snapshot} {k : Nat} :
    k ∈ footprintOffsets s l ↔ ∃ j, j < nbits l ∧ offsetAt s l j = k := by
  simp [footprintOffsets]

theorem failingReads_eq_nil {s : State} {l : Snapshot} :
    failingReads s l = [] ↔ BusQuiet s l .read := by
  simp [failingReads, List.filter_eq_nil_iff, mem_footprintOffsets, BusQuiet]

theorem failingWrites_eq_nil {s : State} {l : Snapshot} :
    failingWrites s l = [] ↔ BusQuiet s l .read ∧ BusQuiet s l .write := by
  simp only [failingWrites, List.filter_eq_nil_iff, mem_footprintOffsets, BusQuiet]
  constructor
  · intro h
    refine ⟨fun j hj => ?_, fun j hj => ?_⟩ <;>
    · have := h _ ⟨j, hj, rfl⟩
      simp only [Bool.or_eq_true, not_or, Bool.not_eq_true] at this
      simp [this]
  · rintro ⟨h1, h2⟩ k ⟨j, hj, rfl⟩
    simp [h1 j hj, h2 j hj]

/-! Later stretches of a stream (spec/41_bit_channel.md R143) and the identity map (R144). -/

/-- Where a whole number of pixels has gone by, the stream bits of a command that starts behind them
are those of the longer command. -/
theorem place_shift {s t : State} {l l2 : Snapshot} {N j : Nat} (h1 : t.mapFile = s.mapFile)
    (h2 : t.mapLen = s.mapLen) (hN : N % mapK s = 0)
    (hs : l2.startPixel.toNat = l.startPixel.toNat + N / mapK s) (hst : l2.stride = l.stride) :
    offsetAt t l2 j = offsetAt s l (N + j) ∧ bitAt t j = bitAt s (N + j) := by
  have hK : mapK t = mapK s := by simp [mapK, h2]
  obtain ⟨q, hq⟩ := Nat.dvd_of_mod_eq_zero hN
  have hdiv : N / mapK s + j / mapK s = (N + j) / mapK s := by
    rcases Nat.eq_zero_or_pos (mapK s) with h0 | h0
    · simp [h0]
    · rw [hq, Nat.mul_div_cancel_left _ h0, Nat.mul_add_div h0]
  have hmod : j % mapK s = (N + j) % mapK s := by rw [hq, Nat.mul_add_mod]
  have hi : indexAt t j = indexAt s (N + j) := by
    simp only [indexAt, hK, mapEntry_congr h1, hmod]
  refine ⟨?_, by simp only [bitAt, hi]⟩
  simp only [offsetAt, pixelAt, hi, hK, hs, hst]
  rw [Nat.add_assoc, hdiv]

/-- A write loop goes on where another has stopped. -/
theorem writeStream_append {s t : State} {l l2 : Snapshot} {d d2 : Nat → Bool} {N n : Nat}
    (hm : t.mem = writeStream s l d N)
    (hp : ∀ j, pbAddr l2 (offsetAt t l2 j) = pbAddr l (offsetAt s l (N + j)) ∧
      bitAt t j = bitAt s (N + j))
    (hd : ∀ j, j < n → d2 j = d (N + j)) :
    writeStream t l2 d2 n = writeStream s l d (N + n) := by
  induction n with
  | zero => exact hm
  | succ n ih =>
    rw [writeStream_succ, ih (fun j hj => hd j (by omega)), (hp n).1, (hp n).2, hd n (by omega),
      ← Nat.add_assoc, writeStream_succ]

/-- With the map [0, 1, ..., 8s - 1] stream bit j is bit 7 - (j mod 8) of the j/8-th byte from the
start pixel on. -/
theorem identity_place {s : State} {l : Snapshot} (h8 : 1 ≤ l.stride.toNat)
    (hK : mapK s = 8 * l.stride.toNat) (hM : ∀ k, k < 8 * l.stride.toNat → mapEntry s k = k)
    (j : Nat) :
    offsetAt s l j = l.startPixel.toNat * l.stride.toNat + j / 8 ∧ bitAt s j = 7 - j % 8 := by
  have hlt : j % mapK s < 8 * l.stride.toNat := by rw [← hK]; exact Nat.mod_lt _ (by omega)
  have hi : indexAt s j = j % (8 * l.stride.toNat) := by rw [indexAt, hM _ hlt, hK]
  constructor
  · simp only [offsetAt, pixelAt, hi, hK]
    rw [Nat.add_mul, Nat.add_assoc]
    congr 1
    have h1 := Nat.div_add_mod j (8 * l.stride.toNat)
    generalize j / (8 * l.stride.toNat) = q at *
    generalize j % (8 * l.stride.toNat) = r at *
    rw [← h1, Nat.mul_assoc, Nat.mul_comm q]
    omega
  · simp only [bitAt, hi]
    rw [Nat.mod_mul_right_mod]

end Sys2Proof.Machine
end

