-- ==== Sys2Proof/Laws/Crc.lean ====
section
/-! SUPPORT. The CRC step is linear over exclusive-or, and its rounds lose nothing (spec/42_crc.md
R160, R161). -/

namespace Sys2Proof.Machine

theorem crcRound_xor (a b : Word) : crcRound (a ^^^ b) = crcRound a ^^^ crcRound b := by
  have hx : ∀ p q r t : Word, (p ^^^ q) ^^^ (r ^^^ t) = (p ^^^ r) ^^^ (q ^^^ t) := by
    intro p q r t
    rw [BitVec.xor_assoc, ← BitVec.xor_assoc q, BitVec.xor_comm q r, BitVec.xor_assoc r,
      ← BitVec.xor_assoc]
  simp only [crcRound, BitVec.getLsbD_xor, BitVec.shiftLeft_xor_distrib]
  cases ha : a.getLsbD 31 <;> cases hb : b.getLsbD 31 <;> simp
  · rw [BitVec.xor_assoc]
  · rw [BitVec.xor_assoc, BitVec.xor_comm _ crcPoly, ← BitVec.xor_assoc]
  · rw [hx]; simp

theorem crcRounds_xor (n : Nat) (a b : Word) :
    crcRounds n (a ^^^ b) = crcRounds n a ^^^ crcRounds n b := by
  induction n generalizing a b with
  | zero => rfl
  | succ n ih => simp only [crcRounds, crcRound_xor, ih]

theorem crcRounds_add (m n : Nat) (c : Word) :
    crcRounds (m + n) c = crcRounds n (crcRounds m c) := by
  induction m generalizing c with
  | zero => simp [crcRounds]
  | succ m ih => rw [Nat.succ_add]; simp only [crcRounds, ih]

/-- The polynomial has a constant term, so a round maps no non-zero state to 0. -/
theorem crcRound_eq_zero {c : Word} (h : crcRound c = 0) : c = 0 := by
  unfold crcRound at h
  split at h
  · have := congrArg (fun w : Word => w.getLsbD 0) h
    simp [crcPoly] at this
  · rename_i h31
    apply BitVec.eq_of_getLsbD_eq
    intro i hi
    by_cases hi31 : i = 31
    · subst hi31; simpa using h31
    · have := congrArg (fun w : Word => w.getLsbD (i + 1)) h
      have h1 : i + 1 < 32 := by omega
      simpa [h1, BitVec.getLsbD_eq_getElem hi] using this

theorem crcRounds_eq_zero {n : Nat} {c : Word} (h : crcRounds n c = 0) : c = 0 := by
  induction n generalizing c with
  | zero => exact h
  | succ n ih => exact crcRound_eq_zero (ih h)

theorem crcFeed_nil (c : Word) : crcFeed c [] = c := rfl

theorem crcFeed_cons (c : Word) (x : Byte) (D : List Byte) :
    crcFeed c (x :: D) = crcFeed (crcStep c x) D := rfl

theorem crcFeed_append (c : Word) (A B : List Byte) :
    crcFeed c (A ++ B) = crcFeed (crcFeed c A) B := by simp [crcFeed]

theorem crcRounds_inj {n : Nat} {a b : Word} (h : crcRounds n a = crcRounds n b) : a = b := by
  have h0 : crcRounds n (a ^^^ b) = 0 := by rw [crcRounds_xor, h, BitVec.xor_self]; rfl
  have h1 : a ^^^ b ^^^ b = b := by rw [crcRounds_eq_zero h0]; simp
  rwa [BitVec.xor_assoc, BitVec.xor_self, BitVec.xor_zero] at h1

/-- Rounds that shift no bit out are a plain shift. -/
theorem crcRounds_small (n : Nat) (z : Word) (hn : n ≤ 8) (hz : z.toNat < 2 ^ (32 - n)) :
    crcRounds n z = z <<< n := by
  induction n generalizing z with
  | zero => simp [crcRounds]
  | succ n ih =>
    have hz31 : z.toNat < 2 ^ 31 :=
      Nat.lt_of_lt_of_le hz (Nat.pow_le_pow_right (by omega) (by omega))
    have a : crcRound z = z <<< 1 := by
      unfold crcRound
      rw [if_neg]
      rw [BitVec.getLsbD, Nat.testBit_lt_two_pow hz31]
      simp
    have b : (z <<< 1).toNat = 2 * z.toNat := by
      rw [BitVec.toNat_shiftLeft, Nat.shiftLeft_eq]
      omega
    rw [crcRounds, a, ih _ (by omega)]
    · rw [← BitVec.shiftLeft_add, Nat.add_comm]
    · rw [b, show 32 - n = (32 - (n + 1)) + 1 by omega, Nat.pow_succ]
      omega

end Sys2Proof.Machine
end

