-- ==== Sys2Proof/Laws/MapUnit.lean ====
section
/-! SUPPORT. What `OffsetMapOf` lists (spec/40_offset_map.md R110, R112), and that both ends of
MAP_BUILD leave a good map register file. -/

namespace Sys2Proof.Machine

theorem mem_offsetMapOf {m : Mask} {w i : Nat} :
    i ∈ offsetMapOf m w ↔ i < w ∧ m.getLsbD (63 - i) = true := by
  simp [offsetMapOf]

theorem pairwise_offsetMapOf (m : Mask) (w : Nat) : (offsetMapOf m w).Pairwise (· < ·) :=
  List.Pairwise.filter _ List.pairwise_lt_range

theorem length_offsetMapOf_le (m : Mask) (w : Nat) : (offsetMapOf m w).length ≤ w := by
  simpa [offsetMapOf] using List.length_filter_le (fun i => m.getLsbD (63 - i)) (List.range w)

theorem mapOk_invalidateMap (s : State) : MapOk (invalidateMap s) := by
  refine ⟨fun _ => ⟨rfl, mapEntry_invalidateMap s⟩, fun h => by simp at h⟩

theorem mapK_storeMap {M : List Nat} (hM : M.length ≤ 64) (s : State) :
    mapK (storeMap M s) = M.length := by
  simp only [mapK, storeMap_mapLen, BitVec.toNat_ofNat]
  omega

/-- An ascending, non-empty list of indices below 64 makes a good map register file. -/
theorem mapOk_storeMap {M : List Nat} (hne : M ≠ []) (hM : M.length ≤ 64) (h64 : ∀ i ∈ M, i < 64)
    (hasc : M.Pairwise (· < ·)) (s : State) : MapOk (storeMap M s) := by
  refine ⟨fun h => by simp at h, fun _ => ?_⟩
  have hpos := List.length_pos_iff.mpr hne
  refine ⟨by rw [mapK_storeMap hM]; omega, by rw [mapK_storeMap hM]; exact hM, ?_, ?_⟩
  · intro i j hij hj
    rw [mapK_storeMap hM] at hj
    rw [mapEntry_storeMap hM h64, mapEntry_storeMap hM h64, List.getD_eq_getElem _ _ (by omega),
      List.getD_eq_getElem _ _ hj]
    exact List.pairwise_iff_getElem.mp hasc i j (by omega) hj hij
  · intro k hk
    rw [mapK_storeMap hM] at hk
    rw [mapEntry_storeMap hM h64, List.getD_eq_default _ _ hk]

end Sys2Proof.Machine
end

