-- ==== Sys2Proof/Laws/Exec.lean ====
section
/-! SUPPORT. What each command's completion step can do, said once: every way it can end, with the
state it leaves. -/

namespace Sys2Proof.Machine

theorem exec_idle {s : State} (h : s.seq = .idle) (i : Instr) : exec i s = .next s := by
  cases i <;> exact whenPending_idle h

/-- MAP_BUILD: too wide, empty, or stored (spec/40_offset_map.md R115). -/
theorem execMapBuild_cases {s : State} {l : Snapshot} (h : s.seq = .busy l) :
    (64 < l.mapWidth.toNat ∧
      execMapBuild s = .next (finish l .paramInvalid 1 (invalidateMap s))) ∨
    (l.mapWidth.toNat ≤ 64 ∧ offsetMapOf l.mask l.mapWidth.toNat = [] ∧
      execMapBuild s =
        .next (finish l .emptyOffsetMap (BitVec.ofNat 32 l.mapWidth.toNat) (invalidateMap s))) ∨
    (l.mapWidth.toNat ≤ 64 ∧ offsetMapOf l.mask l.mapWidth.toNat ≠ [] ∧
      execMapBuild s =
        .next (finish l .none 0 (storeMap (offsetMapOf l.mask l.mapWidth.toNat) s))) := by
  simp only [execMapBuild, whenPending_busy h, raise, complete]
  by_cases hw : 64 < l.mapWidth.toNat
  · exact .inl ⟨hw, if_pos hw⟩
  · simp only [if_neg hw]
    cases hM : offsetMapOf l.mask l.mapWidth.toNat with
    | nil => exact .inr (.inl ⟨by omega, by simp, rfl⟩)
    | cons i r => exact .inr (.inr ⟨by omega, by simp, rfl⟩)

/-- READ_BITS: a failed check, nothing to do, the bytes stored, or a bus error
(spec/41_bit_channel.md R137, spec/60_exceptions.md R188). -/
theorem execReadBits_cases {s : State} {l : Snapshot} (h : s.seq = .busy l) :
    (∃ code info, checkChannel s l = .error code info ∧
      execReadBits s = .next (finish l code info s)) ∨
    (checkChannel s l = .nothing ∧ execReadBits s = .next (finish l .none 0 s)) ∨
    (ChannelReady s l ∧ BusQuiet s l .read ∧
      execReadBits s = .next (finish l .none 0
        { s with db := dbFill s.db l.dbAddr.toNat l.nbytes.toNat (readByte s l) })) ∨
    (ChannelReady s l ∧ ∃ j, j < nbits l ∧
      busError s.params (pbAddr l (offsetAt s l j)) .read = true ∧
      execReadBits s = .next (finish l .busError (BitVec.ofNat 32 (offsetAt s l j))
        (scrambleDb l s))) := by
  simp only [execReadBits, whenPending_busy h]
  cases hc : checkChannel s l with
  | error code info => exact .inl ⟨code, info, rfl, rfl⟩
  | nothing => exact .inr (.inl ⟨rfl, rfl⟩)
  | access =>
    have hr := checkChannel_access.mp hc
    cases hf : failingReads s l with
    | nil => exact .inr (.inr (.inl ⟨hr, failingReads_eq_nil.mp hf, rfl⟩))
    | cons k r =>
      have hm : pickOne s.draws (k :: r) ∈ failingReads s l := hf ▸ pickOne_mem s.draws k r
      obtain ⟨hm, hb⟩ := List.mem_filter.mp hm
      obtain ⟨j, hj, he⟩ := mem_footprintOffsets.mp hm
      exact .inr (.inr (.inr ⟨hr, j, hj, by rw [he]; exact hb, by rw [he]; rfl⟩))

/-- WRITE_BITS: a failed check, nothing to do, the bits stored, or a bus error
(spec/41_bit_channel.md R140, spec/60_exceptions.md R188). -/
theorem execWriteBits_cases {s : State} {l : Snapshot} (h : s.seq = .busy l) :
    (∃ code info, checkChannel s l = .error code info ∧
      execWriteBits s = .next (finish l code info s)) ∨
    (checkChannel s l = .nothing ∧ execWriteBits s = .next (finish l .none 0 s)) ∨
    (ChannelReady s l ∧ BusQuiet s l .read ∧ BusQuiet s l .write ∧
      execWriteBits s = .next (finish l .none 0
        (noteData l { s with mem := writeStream s l (dataBit s l) (nbits l) }))) ∨
    (ChannelReady s l ∧ ∃ j, j < nbits l ∧
      (busError s.params (pbAddr l (offsetAt s l j)) .read = true ∨
        busError s.params (pbAddr l (offsetAt s l j)) .write = true) ∧
      execWriteBits s = .next (finish l .busError (BitVec.ofNat 32 (offsetAt s l j))
        (scramblePb l s))) := by
  simp only [execWriteBits, whenPending_busy h]
  cases hc : checkChannel s l with
  | error code info => exact .inl ⟨code, info, rfl, rfl⟩
  | nothing => exact .inr (.inl ⟨rfl, rfl⟩)
  | access =>
    have hr := checkChannel_access.mp hc
    cases hf : failingWrites s l with
    | nil =>
      obtain ⟨h1, h2⟩ := failingWrites_eq_nil.mp hf
      exact .inr (.inr (.inl ⟨hr, h1, h2, rfl⟩))
    | cons k r =>
      have hm : pickOne s.draws (k :: r) ∈ failingWrites s l := hf ▸ pickOne_mem s.draws k r
      obtain ⟨hm, hb⟩ := List.mem_filter.mp hm
      obtain ⟨j, hj, he⟩ := mem_footprintOffsets.mp hm
      refine .inr (.inr (.inr ⟨hr, j, hj, ?_, by rw [he]; rfl⟩))
      rw [he]
      simpa using hb

/-- CRC_INIT (spec/42_crc.md R164). -/
theorem execCrcInit_eq {s : State} {l : Snapshot} (h : s.seq = .busy l) :
    execCrcInit s = .next (finish l .none 0 { s with crcState := crcInitValue }) :=
  whenPending_busy h

/-- The common end of CRC_UPDATE and CRC_COMPUTE (R163, R165, R166). -/
theorem feedDb_cases (c : Word) (l : Snapshot) (s : State) :
    (dbSize s < dbEnd l ∧ feedDb c l s = .next (finish l .dataBounds (dbEndInfo l) s)) ∨
    (dbEnd l ≤ dbSize s ∧ feedDb c l s = .next (finish l .none 0
      (noteData l { s with crcState := crcFeed c (dataBytes s l) }))) := by
  unfold feedDb
  by_cases hb : dbSize s < dbEnd l
  · exact .inl ⟨hb, by rw [if_pos hb]; rfl⟩
  · exact .inr ⟨by omega, by rw [if_neg hb]; rfl⟩

theorem execCrcUpdate_eq {s : State} {l : Snapshot} (h : s.seq = .busy l) :
    execCrcUpdate s = feedDb s.crcState l s := whenPending_busy h

theorem execCrcCompute_eq {s : State} {l : Snapshot} (h : s.seq = .busy l) :
    execCrcCompute s = feedDb crcInitValue l s := whenPending_busy h

/-- Every way a pending command can complete: the completion of R186 on a state in which only the map
register file, DB, system memory, CRC_STATE, the recorded faults and the draw counter can differ. -/
theorem exec_eq_finish {s : State} {l : Snapshot} (i : Instr) (h : s.seq = .busy l) :
    ∃ code info u, exec i s = .next (finish l code info u) ∧
      u = { s with
        mapFile := u.mapFile, mapLen := u.mapLen, mapValid := u.mapValid, db := u.db, mem := u.mem,
        crcState := u.crcState, faults := u.faults, draws := u.draws } ∧
      (u.faults = s.faults ∨
        u.faults = (unwritten s.db l.dbAddr.toNat l.nbytes.toNat).map .dbByteUnwritten ++ s.faults ∧
          dbEnd l ≤ dbSize s) ∧
      s.draws ≤ u.draws := by
  have feed : ∀ c, ∃ code info u, feedDb c l s = .next (finish l code info u) ∧
      u = { s with
        mapFile := u.mapFile, mapLen := u.mapLen, mapValid := u.mapValid, db := u.db, mem := u.mem,
        crcState := u.crcState, faults := u.faults, draws := u.draws } ∧
      (u.faults = s.faults ∨
        u.faults = (unwritten s.db l.dbAddr.toNat l.nbytes.toNat).map .dbByteUnwritten ++ s.faults ∧
          dbEnd l ≤ dbSize s) ∧
      s.draws ≤ u.draws := by
    intro c
    rcases feedDb_cases c l s with ⟨-, e⟩ | ⟨hb, e⟩
    · exact ⟨_, _, _, e, rfl, .inl rfl, Nat.le_refl _⟩
    · exact ⟨_, _, _, e, rfl, .inr ⟨rfl, hb⟩, Nat.le_add_right ..⟩
  cases i with
  | mapBuild =>
    rcases execMapBuild_cases h with ⟨-, e⟩ | ⟨-, -, e⟩ | ⟨-, -, e⟩ <;>
    exact ⟨_, _, _, e, rfl, .inl rfl, Nat.le_refl _⟩
  | readBits =>
    rcases execReadBits_cases h with ⟨_, _, -, e⟩ | ⟨-, e⟩ | ⟨-, -, e⟩ | ⟨-, _, -, -, e⟩
    · exact ⟨_, _, _, e, rfl, .inl rfl, Nat.le_refl _⟩
    · exact ⟨_, _, _, e, rfl, .inl rfl, Nat.le_refl _⟩
    · exact ⟨_, _, _, e, rfl, .inl rfl, Nat.le_refl _⟩
    · exact ⟨_, _, _, e, rfl, .inl rfl, Nat.le_succ _⟩
  | writeBits =>
    rcases execWriteBits_cases h with ⟨_, _, -, e⟩ | ⟨-, e⟩ | ⟨hr, -, -, e⟩ | ⟨hr, _, -, -, e⟩
    · exact ⟨_, _, _, e, rfl, .inl rfl, Nat.le_refl _⟩
    · exact ⟨_, _, _, e, rfl, .inl rfl, Nat.le_refl _⟩
    · exact ⟨_, _, _, e, rfl, .inr ⟨rfl, hr.dbFits⟩, Nat.le_add_right ..⟩
    · exact ⟨_, _, _, e, rfl, .inr ⟨rfl, hr.dbFits⟩, by simp; omega⟩
  | crcInit => exact ⟨_, _, _, execCrcInit_eq h, rfl, .inl rfl, Nat.le_refl _⟩
  | crcUpdate => simpa only [exec, execCrcUpdate_eq h] using feed s.crcState
  | crcCompute => simpa only [exec, execCrcCompute_eq h] using feed crcInitValue

/-- The same of a completion that is given. -/
theorem exec_next_finish {s t : State} {l : Snapshot} {i : Instr} (h : s.seq = .busy l)
    (he : exec i s = .next t) :
    ∃ code info u, t = finish l code info u ∧
      u = { s with
        mapFile := u.mapFile, mapLen := u.mapLen, mapValid := u.mapValid, db := u.db, mem := u.mem,
        crcState := u.crcState, faults := u.faults, draws := u.draws } := by
  obtain ⟨code, info, u, e, hu, -⟩ := exec_eq_finish i h
  rw [e] at he
  cases he
  exact ⟨code, info, u, rfl, hu⟩

/-- The block's turn: nothing when IDLE, else the decoded command or the completion of an illegal
word. -/
theorem blockStep_cases (s : State) :
    (s.seq = .idle ∧ blockStep s = .next s) ∨
    (∃ l i, s.seq = .busy l ∧ l.cmd = encode i ∧ blockStep s = exec i s) ∨
    (∃ l, s.seq = .busy l ∧ (∀ i, l.cmd ≠ encode i) ∧
      blockStep s = .next (finish l .illegalCommand l.cmd s)) := by
  cases hq : s.seq with
  | idle => exact .inl ⟨rfl, by simp [blockStep, hq]⟩
  | busy l =>
    right
    cases hd : decode l.cmd with
    | ok i => exact .inl ⟨l, i, rfl, decode_eq_ok.mp hd, by simp [blockStep, hq, hd]⟩
    | error e =>
      refine .inr ⟨l, rfl, fun i hi => ?_, by simp [blockStep, hq, hd, execIllegal, raise]⟩
      rw [decode_eq_ok.mpr hi] at hd
      cases hd

/-- Every way a pending word, legal or not, can complete: R186 on a state in which only what commands
write can differ. -/
theorem blockStep_eq_finish {s : State} {l : Snapshot} (hl : s.seq = .busy l) :
    ∃ code info u, blockStep s = .next (finish l code info u) ∧
      u = { s with
        mapFile := u.mapFile, mapLen := u.mapLen, mapValid := u.mapValid, db := u.db, mem := u.mem,
        crcState := u.crcState, faults := u.faults, draws := u.draws } ∧
      (u.faults = s.faults ∨
        u.faults = (unwritten s.db l.dbAddr.toNat l.nbytes.toNat).map .dbByteUnwritten ++ s.faults ∧
          dbEnd l ≤ dbSize s) ∧
      s.draws ≤ u.draws := by
  rcases blockStep_cases s with ⟨hi, -⟩ | ⟨l', i, h', -, e⟩ | ⟨l', h', -, e⟩
  · simp [hi] at hl
  · rw [e]
    exact exec_eq_finish i hl
  · rw [hl] at h'
    cases h'
    exact ⟨_, _, s, e, rfl, .inl rfl, Nat.le_refl _⟩

theorem blockStep_next_finish {s t : State} {l : Snapshot} (hl : s.seq = .busy l)
    (h : blockStep s = .next t) :
    ∃ code info u, t = finish l code info u ∧
      u = { s with
        mapFile := u.mapFile, mapLen := u.mapLen, mapValid := u.mapValid, db := u.db, mem := u.mem,
        crcState := u.crcState, faults := u.faults, draws := u.draws } := by
  obtain ⟨code, info, u, e, hu, -⟩ := blockStep_eq_finish hl
  rw [e] at h
  cases h
  exact ⟨code, info, u, rfl, hu⟩

/-! Completion without an error, and the frames. -/

theorem execReadBits_ready {s : State} {l : Snapshot} (hl : s.seq = .busy l)
    (hr : ChannelReady s l) (hq : BusQuiet s l .read) :
    execReadBits s = .next (finish l .none 0
      { s with db := dbFill s.db l.dbAddr.toNat l.nbytes.toNat (readByte s l) }) := by
  simp [execReadBits, whenPending_busy hl, checkChannel_access.mpr hr, failingReads_eq_nil.mpr hq,
    complete]

theorem execWriteBits_ready {s : State} {l : Snapshot} (hl : s.seq = .busy l)
    (hr : ChannelReady s l) (hq : BusQuiet s l .read) (hw : BusQuiet s l .write) :
    execWriteBits s = .next (finish l .none 0
      (noteData l { s with mem := writeStream s l (dataBit s l) (nbits l) })) := by
  simp [execWriteBits, whenPending_busy hl, checkChannel_access.mpr hr,
    failingWrites_eq_nil.mpr ⟨hq, hw⟩, complete]

/-- The same with data that stands in DB. -/
theorem execWriteBits_holds {s : State} {l : Snapshot} {D : List Byte} (hl : s.seq = .busy l)
    (hr : ChannelReady s l) (hq : BusQuiet s l .read) (hw : BusQuiet s l .write)
    (hD : D.length = l.nbytes.toNat) (h : DbHolds s.db l.dbAddr.toNat D) :
    execWriteBits s = .next (finish l .none 0
      { s with mem := writeStream s l (streamBit D) (nbits l) }) := by
  rw [execWriteBits_ready hl hr hq hw, dataBit_of_holds hD h, noteData_written]
  exact DbHolds.written (s := s) hD h

/-- A check of R134 that fails never gives NONE. -/
theorem checkChannel_error_ne_none {s : State} {l : Snapshot} {code : ErrCode} {info : Word}
    (h : checkChannel s l = .error code info) : code ≠ .none := by
  rcases checkChannel_error h with ⟨rfl, -⟩ | ⟨rfl, -⟩ | ⟨rfl, -⟩ | ⟨rfl, -⟩ <;> decide

/-- What a READ_BITS that ended with NONE has done. -/
theorem execReadBits_none {s t : State} {l : Snapshot} (hl : s.seq = .busy l)
    (h : execReadBits s = .next t) (he : t.errcode = .none) :
    t = finish l .none 0
      { s with db := dbFill s.db l.dbAddr.toNat l.nbytes.toNat (readByte s l) } := by
  rcases execReadBits_cases hl with ⟨_, _, hc, e⟩ | ⟨hc, e⟩ | ⟨-, -, e⟩ | ⟨-, _, -, -, e⟩ <;>
    rw [e] at h <;> cases h
  · exact absurd he (checkChannel_error_ne_none hc)
  · rw [checkChannel_nothing hc]; rfl
  · rfl
  · simp at he

/-- What a WRITE_BITS that ended with NONE has done. -/
theorem execWriteBits_none {s t : State} {l : Snapshot} (hl : s.seq = .busy l)
    (h : execWriteBits s = .next t) (he : t.errcode = .none) :
    (l.nbytes.toNat ≠ 0 → ChannelReady s l) ∧
      t = finish l .none 0
        (noteData l { s with mem := writeStream s l (dataBit s l) (nbits l) }) := by
  rcases execWriteBits_cases hl with ⟨_, _, hc, e⟩ | ⟨hc, e⟩ | ⟨hr, -, -, e⟩ | ⟨-, _, -, -, e⟩ <;>
    rw [e] at h <;> cases h
  · exact absurd he (checkChannel_error_ne_none hc)
  · have h0 := checkChannel_nothing hc
    refine ⟨fun h => absurd h0 h, ?_⟩
    rw [noteData, noteReads_written fun t ht => by omega, nbits, h0]
    rfl
  · exact ⟨fun _ => hr, rfl⟩
  · simp at he

/-- What MAP_BUILD can change. -/
theorem execMapBuild_frame {s t : State} {l : Snapshot} (hl : s.seq = .busy l)
    (h : execMapBuild s = .next t) :
    t = { s with
      mapFile := t.mapFile, mapLen := t.mapLen, mapValid := t.mapValid, seq := .idle, done := true,
      errcode := t.errcode, errInfo := t.errInfo, lastCmd := l.cmd } := by
  rcases execMapBuild_cases hl with ⟨-, e⟩ | ⟨-, -, e⟩ | ⟨-, -, e⟩ <;>
    rw [e] at h <;> cases h <;> rfl

/-- What the CRC commands that read DB can change. -/
theorem feedDb_frame {c : Word} {l : Snapshot} {s t : State} (h : feedDb c l s = .next t) :
    t = { s with
      crcState := t.crcState, faults := t.faults, draws := t.draws, seq := .idle, done := true,
      errcode := t.errcode, errInfo := t.errInfo, lastCmd := l.cmd } := by
  rcases feedDb_cases c l s with ⟨-, e⟩ | ⟨-, e⟩ <;> rw [e] at h <;> cases h <;> rfl

/-- Feeding a string that stands in DB. -/
theorem feedDb_holds {c : Word} {l : Snapshot} {s : State} {D : List Byte}
    (hb : dbEnd l ≤ dbSize s) (hD : D.length = l.nbytes.toNat)
    (h : DbHolds s.db l.dbAddr.toNat D) :
    feedDb c l s = .next (finish l .none 0 { s with crcState := crcFeed c D }) := by
  rw [feedDb, if_neg (by omega), dataBytes_of_holds hD h, noteData_written]
  · rfl
  · exact DbHolds.written (s := s) hD h

end Sys2Proof.Machine
end

