-- ==== Sys2Proof/Laws/Host.lean ====
section
/-! SUPPORT. What the host's and the platform's acts can do, said once. -/

namespace Sys2Proof.Machine

/-- A register read changes only the replies and the draw counter, and adds one reply. -/
theorem readRegister_eq (r : Reg) (s : State) :
    ∃ v n, readRegister r s = { s with replies := .data v :: s.replies, draws := n } ∧
      s.draws ≤ n := by
  unfold readRegister
  split
  · exact ⟨_, _, rfl, Nat.le_refl _⟩
  · split
    · exact ⟨_, _, rfl, Nat.le_succ _⟩
    · split
      · exact ⟨_, _, rfl, Nat.le_succ _⟩
      · exact ⟨_, _, rfl, Nat.le_refl _⟩

/-- The register map, inverted: which offset each register stands at. -/
theorem regAt_cases (n : Nat) :
    (n = 0x000 ∧ regAt n = .id) ∨
    (n = 0x004 ∧ regAt n = .ctrl) ∨
    (n = 0x008 ∧ regAt n = .status) ∨
    (n = 0x00C ∧ regAt n = .cmd) ∨
    (n = 0x010 ∧ regAt n = .maskLo) ∨
    (n = 0x014 ∧ regAt n = .maskHi) ∨
    (n = 0x018 ∧ regAt n = .stride) ∨
    (n = 0x01C ∧ regAt n = .mapWidth) ∨
    (n = 0x020 ∧ regAt n = .pbBase) ∨
    (n = 0x024 ∧ regAt n = .pbLen) ∨
    (n = 0x028 ∧ regAt n = .startPixel) ∨
    (n = 0x02C ∧ regAt n = .dbAddr) ∨
    (n = 0x030 ∧ regAt n = .nbytes) ∨
    (n = 0x034 ∧ regAt n = .crcState) ∨
    (n = 0x038 ∧ regAt n = .crcValue) ∨
    (n = 0x03C ∧ regAt n = .dbSize) ∨
    (n = 0x040 ∧ regAt n = .mapLen) ∨
    (n = 0x044 ∧ regAt n = .errInfo) ∨
    (n = 0x048 ∧ regAt n = .lastCmd) ∨
    (0x100 ≤ n ∧ n < 0x200 ∧ regAt n = .mapAt ((n - 0x100) / 4)) ∨
    regAt n = .reserved := by
  unfold regAt
  by_cases h0 : n = 0x000
  · exact (.inl ⟨h0, if_pos h0⟩)
  rw [if_neg h0]
  by_cases h1 : n = 0x004
  · exact .inr ((.inl ⟨h1, if_pos h1⟩))
  rw [if_neg h1]
  by_cases h2 : n = 0x008
  · exact .inr (.inr ((.inl ⟨h2, if_pos h2⟩)))
  rw [if_neg h2]
  by_cases h3 : n = 0x00C
  · exact .inr (.inr (.inr ((.inl ⟨h3, if_pos h3⟩))))
  rw [if_neg h3]
  by_cases h4 : n = 0x010
  · exact .inr (.inr (.inr (.inr ((.inl ⟨h4, if_pos h4⟩)))))
  rw [if_neg h4]
  by_cases h5 : n = 0x014
  · exact .inr (.inr (.inr (.inr (.inr ((.inl ⟨h5, if_pos h5⟩))))))
  rw [if_neg h5]
  by_cases h6 : n = 0x018
  · exact .inr (.inr (.inr (.inr (.inr (.inr ((.inl ⟨h6, if_pos h6⟩)))))))
  rw [if_neg h6]
  by_cases h7 : n = 0x01C
  · exact .inr (.inr (.inr (.inr (.inr (.inr (.inr ((.inl ⟨h7, if_pos h7⟩))))))))
  rw [if_neg h7]
  by_cases h8 : n = 0x020
  · exact .inr (.inr (.inr (.inr (.inr (.inr (.inr (.inr ((.inl ⟨h8, if_pos h8⟩)))))))))
  rw [if_neg h8]
  by_cases h9 : n = 0x024
  · exact .inr (.inr (.inr (.inr (.inr (.inr (.inr (.inr (.inr ((.inl ⟨h9, if_pos h9⟩))))))))))
  rw [if_neg h9]
  by_cases h10 : n = 0x028
  · exact .inr (.inr (.inr (.inr (.inr (.inr (.inr (.inr (.inr (.inr ((.inl ⟨h10, if_pos h10⟩)))))))))))
  rw [if_neg h10]
  by_cases h11 : n = 0x02C
  · exact .inr (.inr (.inr (.inr (.inr (.inr (.inr (.inr (.inr (.inr (.inr ((.inl ⟨h11, if_pos h11⟩))))))))))))
  rw [if_neg h11]
  by_cases h12 : n = 0x030
  · exact .inr (.inr (.inr (.inr (.inr (.inr (.inr (.inr (.inr (.inr (.inr (.inr ((.inl ⟨h12, if_pos h12⟩)))))))))))))
  rw [if_neg h12]
  by_cases h13 : n = 0x034
  · exact .inr (.inr (.inr (.inr (.inr (.inr (.inr (.inr (.inr (.inr (.inr (.inr (.inr ((.inl ⟨h13, if_pos h13⟩))))))))))))))
  rw [if_neg h13]
  by_cases h14 : n = 0x038
  · exact .inr (.inr (.inr (.inr (.inr (.inr (.inr (.inr (.inr (.inr (.inr (.inr (.inr (.inr ((.inl ⟨h14, if_pos h14⟩)))))))))))))))
  rw [if_neg h14]
  by_cases h15 : n = 0x03C
  · exact .inr (.inr (.inr (.inr (.inr (.inr (.inr (.inr (.inr (.inr (.inr (.inr (.inr (.inr (.inr ((.inl ⟨h15, if_pos h15⟩))))))))))))))))
  rw [if_neg h15]
  by_cases h16 : n = 0x040
  · exact .inr (.inr (.inr (.inr (.inr (.inr (.inr (.inr (.inr (.inr (.inr (.inr (.inr (.inr (.inr (.inr ((.inl ⟨h16, if_pos h16⟩)))))))))))))))))
  rw [if_neg h16]
  by_cases h17 : n = 0x044
  · exact .inr (.inr (.inr (.inr (.inr (.inr (.inr (.inr (.inr (.inr (.inr (.inr (.inr (.inr (.inr (.inr (.inr ((.inl ⟨h17, if_pos h17⟩))))))))))))))))))
  rw [if_neg h17]
  by_cases h18 : n = 0x048
  · exact .inr (.inr (.inr (.inr (.inr (.inr (.inr (.inr (.inr (.inr (.inr (.inr (.inr (.inr (.inr (.inr (.inr (.inr ((.inl ⟨h18, if_pos h18⟩)))))))))))))))))))
  rw [if_neg h18]
  by_cases h : 0x100 ≤ n ∧ n < 0x200
  · exact .inr (.inr (.inr (.inr (.inr (.inr (.inr (.inr (.inr (.inr (.inr (.inr (.inr (.inr (.inr (.inr (.inr (.inr (.inr ((.inl ⟨h.1, h.2, if_pos h⟩))))))))))))))))))))
  · rw [if_neg h]
    exact .inr (.inr (.inr (.inr (.inr (.inr (.inr (.inr (.inr (.inr (.inr (.inr (.inr (.inr (.inr (.inr (.inr (.inr (.inr ((.inr rfl))))))))))))))))))))

/-- A register access the block supports is an access to the register at its offset. -/
theorem hostRead_register {off : Offset} (s : State) (h1 : off.toNat < 0x10000)
    (h2 : off.toNat % 4 = 0) : hostRead .word off s = .next (readRegister (regAt off.toNat) s) := by
  have hw : inWindow off = false := decide_eq_false (by simp only [windowBase]; omega)
  simp [hostRead, supported, hw, h2]

theorem hostWrite_register {off : Offset} (v : Word) (s : State) (h1 : off.toNat < 0x10000)
    (h2 : off.toNat % 4 = 0) :
    hostWrite .word off v s = .next (writeRegister (regAt off.toNat) v s) := by
  have hw : inWindow off = false := decide_eq_false (by simp only [windowBase]; omega)
  simp [hostWrite, supported, hw, h2]

/-- A register that the pending command does not write, and that is not the STATUS of a MAP_BUILD,
reads its current value (spec/10_state.md R44). -/
theorem readRegister_current {r : Reg} {s : State}
    (h : ∀ i, pendingCommand s = some i → commandWrites i r = false ∧ ¬ (i = .mapBuild ∧ r = .status)) :
    readRegister r s = answer (.data (regValue r s)) s := by
  unfold readRegister
  cases hp : pendingCommand s with
  | none => rfl
  | some i =>
    obtain ⟨h1, h2⟩ := h i hp
    simp only [h1, Bool.false_eq_true, if_false, if_neg h2]

theorem pendingCommand_idle {s : State} (h : s.seq = .idle) : pendingCommand s = none := by
  simp [pendingCommand, h]

/-- An aligned DB-window access (spec/20_memory.md R67). -/
theorem hostRead_window {w : Width} {off : Offset} (s : State) (h1 : 0x10000 ≤ off.toNat)
    (h2 : off.toNat % w.bytes = 0) :
    hostRead w off s =
      .next (answer (.data (BitVec.ofNat 32 (windowRead s (off.toNat - windowBase) w.bytes)))
        (noteReads (off.toNat - windowBase)
          (min w.bytes (dbSize s - (off.toNat - windowBase))) s)) := by
  have hw : inWindow off = true := decide_eq_true (by simp only [windowBase]; omega)
  simp [hostRead, supported, hw, h2]

theorem hostWrite_window {w : Width} {off : Offset} (v : Word) (s : State)
    (h1 : 0x10000 ≤ off.toNat) (h2 : off.toNat % w.bytes = 0) :
    hostWrite w off v s =
      .next { s with db := windowWrite s (off.toNat - windowBase) w.bytes v } := by
  have hw : inWindow off = true := decide_eq_true (by simp only [windowBase]; omega)
  simp [hostWrite, supported, hw, h2]

/-- What an abort leaves (spec/70_reset_and_hazards.md R211). -/
theorem abortEffect_cases (s : State) :
    abortEffect s = s ∨
    (∃ l, s.seq = .busy l ∧ pendingCommand s = some .readBits ∧ abortEffect s = scrambleDb l s) ∨
    (∃ l, s.seq = .busy l ∧ pendingCommand s = some .writeBits ∧ ChannelReady s l ∧
      abortEffect s = scramblePb l s) := by
  unfold abortEffect
  split
  · rename_i l hq hp
    exact .inr (.inl ⟨l, hq, hp, rfl⟩)
  · rename_i l hq hp
    split
    · rename_i hc
      exact .inr (.inr ⟨l, hq, hp, checkChannel_access.mp hc, rfl⟩)
    · exact .inl rfl
    · exact .inl rfl
  · exact .inl rfl

/-- An abort changes DB, system memory, the recorded faults and the draw counter at most. -/
theorem abortEffect_frame (s : State) :
    abortEffect s = { s with
      db := (abortEffect s).db, mem := (abortEffect s).mem, faults := (abortEffect s).faults,
      draws := (abortEffect s).draws } := by
  rcases abortEffect_cases s with e | ⟨l, -, -, e⟩ | ⟨l, -, -, -, e⟩ <;> rw [e] <;> rfl

/-- The faults an abort records: none, or those of a WRITE_BITS whose data counts as read. -/
theorem abortEffect_faults (s : State) :
    ((pendingCommand s ≠ some .writeBits → (abortEffect s).faults = s.faults) ∧
      ((abortEffect s).faults = s.faults ∨ ∃ l, s.seq = .busy l ∧ ChannelReady s l ∧
        (abortEffect s).faults =
          (unwritten s.db l.dbAddr.toNat l.nbytes.toNat).map .dbByteUnwritten ++ s.faults)) ∧
    s.draws ≤ (abortEffect s).draws := by
  rcases abortEffect_cases s with e | ⟨l, -, -, e⟩ | ⟨l, hl, hp, hr, e⟩ <;> rw [e]
  · exact ⟨⟨fun _ => rfl, .inl rfl⟩, Nat.le_refl _⟩
  · exact ⟨⟨fun _ => rfl, .inl rfl⟩, Nat.le_succ _⟩
  · exact ⟨⟨fun h => absurd hp h, .inr ⟨l, hl, hr, rfl⟩⟩, by simp; omega⟩

/-- The DB that a scramble leaves stays inside `DB_SIZE` bytes. -/
theorem wf_scrambleDb {l : Snapshot} {s : State}
    (h : Memory.wf dbUnlisted (dbSize s) s.db) :
    Memory.wf dbUnlisted (dbSize s) (scrambleDb l s).db := by
  rw [scrambleDb_db]
  exact wf_dbFill h (by omega)

theorem wf_windowWrite {s : State} {k n : Nat} {v : Word}
    (h : Memory.wf dbUnlisted (dbSize s) s.db) :
    Memory.wf dbUnlisted (dbSize s) (windowWrite s k n v) := wf_dbFill h (by omega)

/-- What an abort leaves of DB, system memory and the faults, command by command
(spec/70_reset_and_hazards.md R211); `t` is any state with these three. -/
theorem abortEffect_reads {s t : State} (hd : t.db = (abortEffect s).db)
    (hm : t.mem = (abortEffect s).mem) (hf : t.faults = (abortEffect s).faults) :
    (pendingCommand s ≠ some .readBits → t.db = s.db) ∧
    (pendingCommand s ≠ some .writeBits → t.mem = s.mem ∧ t.faults = s.faults) ∧
    (∀ l, s.seq = .busy l → pendingCommand s = some .readBits → t.db = (scrambleDb l s).db) ∧
    (∀ l, s.seq = .busy l → pendingCommand s = some .writeBits →
      (s.mem.Pairwise (fun c d => c.1 < d.1) → MapOk s → FootprintOldOrData s t l) ∧
      (t.faults = s.faults ∨ RecordsReads s t l.dbAddr.toNat l.nbytes.toNat)) := by
  rcases abortEffect_cases s with e | ⟨l, hl, hp, e⟩ | ⟨l, hl, hp, hr, e⟩ <;>
    rw [e] at hd hm hf
  · refine ⟨fun _ => hd, fun _ => ⟨hm, hf⟩, fun l hl hp => ?_, fun l _ _ =>
      ⟨fun _ _ a c _ => .inl (by rw [hm]), .inl hf⟩⟩
    have h : abortEffect s = scrambleDb l s := by simp only [abortEffect, hl, hp]
    rw [hd, ← h, e]
  · refine ⟨fun h => absurd hp h, fun _ => ⟨hm, hf⟩, fun l' hl' _ => ?_, fun _ _ h => ?_⟩
    · rw [hl] at hl'
      cases hl'
      exact hd
    · rw [hp] at h
      cases h
  · refine ⟨fun _ => hd, fun h => absurd hp h, fun _ _ h => ?_, fun l' hl' _ => ?_⟩
    · rw [hp] at h
      cases h
    · rw [hl] at hl'
      cases hl'
      exact ⟨fun h1 h2 => footprint_scramblePb h1 h2 hr hm, .inr (RecordsReads.of_faults hf)⟩

/-- Any state keeps its map register file good through a change of other fields. -/
theorem MapOk.congr {s t : State} (h : MapOk s) (h1 : t.mapFile = s.mapFile)
    (h2 : t.mapLen = s.mapLen) (h3 : t.mapValid = s.mapValid) : MapOk t := by
  have e : mapEntry t = mapEntry s := mapEntry_congr h1
  have eK : mapK t = mapK s := by simp [mapK, h2]
  simp only [MapOk, e, eK, h2, h3]
  exact h

theorem mapOk_reset : MapOk State.reset := by
  refine ⟨fun _ => ⟨rfl, fun k => ?_⟩, fun h => by simp [State.reset] at h⟩
  exact mapEntry_invalidateMap State.reset k

/-- One step: the block's turn, with or without a `block` event, or the act at the head. -/
theorem step_eq (s : State) :
    step s = blockStep s ∨ ∃ e r, s.inputs = e :: r ∧ (touchesWindow e && isBusy s) = false ∧
      step s = act e (popInput s) := by
  unfold step turn
  cases hi : s.inputs with
  | nil => exact .inl rfl
  | cons e r =>
    by_cases hb : (touchesWindow e && isBusy s) = true
    · exact .inl (if_pos hb)
    · exact .inr ⟨e, r, rfl, by simpa using hb, if_neg hb⟩

/-- A host read always answers, and changes only the host's own record and the draw counter. -/
theorem hostRead_eq (s : State) (w : Width) (off : Offset) :
    ∃ r new n, hostRead w off s =
      .next { s with replies := r :: s.replies, faults := new ++ s.faults, draws := n } ∧
      s.draws ≤ n ∧
      ∀ f ∈ new, (f = .unsupported w off ∧ supported w off = false) ∨
        ∃ k, f = .dbByteUnwritten k ∧ k < dbSize s ∧ dbRead s.db k = none := by
  unfold hostRead
  split
  · rename_i h
    exact ⟨_, [_], _, rfl, Nat.le_refl _, by simp [h]⟩
  · split
    · refine ⟨_, _, _, rfl, Nat.le_add_right .., fun f hf => .inr ?_⟩
      obtain ⟨k, hk, rfl⟩ := List.mem_map.mp hf
      obtain ⟨h1, h2, h3⟩ := mem_unwritten.mp hk
      exact ⟨k, rfl, by omega, h3⟩
    · obtain ⟨v, n, e, hn⟩ := readRegister_eq (regAt off.toNat) s
      rw [e]
      exact ⟨_, [], n, rfl, hn, by simp⟩

/-- What owning an address means (spec/20_memory.md R74). -/
theorem ownsAddress_eq_true {s : State} {a : Nat} : ownsAddress s a = true ↔
    ∃ l, s.seq = .busy l ∧
      (pendingCommand s = some .readBits ∨ pendingCommand s = some .writeBits) ∧
      l.pbBase.toNat ≤ a ∧ a < l.pbBase.toNat + l.pbLen.toNat := by
  unfold ownsAddress
  constructor
  · intro h
    split at h
    · rename_i l hq hp
      exact ⟨l, hq, .inl hp, by simpa using h⟩
    · rename_i l hq hp
      exact ⟨l, hq, .inr hp, by simpa using h⟩
    · cases h
  · rintro ⟨l, hq, hp | hp, h⟩ <;> rw [hq, hp] <;> exact decide_eq_true h

/-- A host write is always answered; the parameters stay, and no fault but those of an unsupported
access or of an aborted WRITE_BITS is recorded. -/
theorem hostWrite_eq (s : State) (w : Width) (off : Offset) (v : Word) :
    ∃ t new, hostWrite w off v s = .next t ∧ t.params = s.params ∧ s.draws ≤ t.draws ∧
      t.faults = new ++ s.faults ∧
      ∀ f ∈ new, (f = .unsupported w off ∧ supported w off = false) ∨
        ∃ k, f = .dbByteUnwritten k ∧ k < dbSize s ∧ dbRead s.db k = none := by
  unfold hostWrite
  split
  · rename_i h
    exact ⟨_, [_], rfl, rfl, Nat.le_refl _, rfl, by simp [h]⟩
  · split
    · exact ⟨_, [], rfl, rfl, Nat.le_refl _, rfl, by simp⟩
    · refine ⟨writeRegister (regAt off.toNat) v s, ?_⟩
      unfold writeRegister
      split <;> first | exact ⟨[], rfl, rfl, Nat.le_refl _, rfl, by simp⟩ | skip
      · unfold writeCtrl
        split
        · have hp : (softReset s).params = s.params := by
            rw [softReset, clearBlock_params, abortEffect_frame s]
          obtain ⟨⟨-, h | ⟨l, -, hr, h⟩⟩, hd⟩ := abortEffect_faults s
          · exact ⟨[], rfl, hp, hd, h, by simp⟩
          · refine ⟨_, rfl, hp, hd, h, fun f hf => .inr ?_⟩
            obtain ⟨k, hk, rfl⟩ := List.mem_map.mp hf
            obtain ⟨-, h2, h3⟩ := mem_unwritten.mp hk
            have := hr.dbFits
            exact ⟨k, rfl, by omega, h3⟩
        · exact ⟨[], rfl, rfl, Nat.le_refl _, rfl, by simp⟩
      · unfold writeCmd
        split <;> exact ⟨[], rfl, rfl, Nat.le_refl _, rfl, by simp⟩

/-- The bits of STATUS, one by one (spec/10_state.md R24). -/
theorem statusWordWith_bits (mv : Bool) (s : State) :
    let x := statusWordWith mv s
    x.getLsbD 0 = isBusy s ∧ x.getLsbD 1 = s.done ∧ x.getLsbD 2 = errFlag s ∧
      x.getLsbD 3 = s.ovr ∧ x.getLsbD 4 = mv ∧ x.toNat / 32 % 8 = 0 ∧ x.toNat / 2048 = 0 ∧
      x.toNat / 256 % 8 = s.errcode.bits.toNat := by
  simp only [statusWordWith]
  generalize isBusy s = a
  generalize s.done = b
  generalize errFlag s = c
  generalize s.ovr = d
  generalize s.errcode.bits = e
  revert a b c d e mv
  decide

end Sys2Proof.Machine
end

