-- ==== Sys2Proof/Laws/PerInstr.lean ====
section
/-! SUPPORT. The family of statements made per instruction: the command word of an instruction is
legal and decodes to it (spec/30_encoding.md R92). -/

namespace Sys2Proof.Laws.CommandWord

/-- The word of an instruction is legal, and the decoder reads the instruction from it. -/
def Statement (i : Instr) : Prop :=
  i.wellFormed = true ∧ legalWord (encode i) = true ∧ decode (encode i) = .ok i

theorem mapBuild : Statement .mapBuild := by unfold Statement; decide
theorem readBits : Statement .readBits := by unfold Statement; decide
theorem writeBits : Statement .writeBits := by unfold Statement; decide
theorem crcInit : Statement .crcInit := by unfold Statement; decide
theorem crcUpdate : Statement .crcUpdate := by unfold Statement; decide
theorem crcCompute : Statement .crcCompute := by unfold Statement; decide

end Sys2Proof.Laws.CommandWord
end

