-- ==== Sys2Proof/Machine/HostProgram.lean ====
section
/-! DEFINITION. The host-access notation of spec/30_encoding.md R96, each statement expanded into the
events the machine takes. The expected values some statements carry are checks of a reader's, not
accesses, and have no place here. -/

namespace Sys2Proof.Machine

/-- The statements of R96; a register is named by its offset in the register map. -/
inductive HostStatement where
  | wr (off : Offset) (v : Word)
  | rd (off : Offset)
  | wrdb (k : Nat) (bs : List Byte)
  | rddb (k n : Nat)
  | mem (a : Nat) (bs : List Byte)
  | cmd (i : Instr)
  | wait
  | setmask (m : Mask)
  deriving DecidableEq, Repr

/-- Byte writes of `bs` to consecutive places, the first at `k`. -/
def eachByte (f : Nat → Byte → Event) : Nat → List Byte → List Event
  | _, [] => []
  | k, b :: bs => f k b :: eachByte f (k + 1) bs

/-- The host accesses of a statement (R96). `wait` polls STATUS until BUSY reads 0: the block takes
its turn and one poll sees BUSY = 0 (log 26). -/
def HostStatement.events : HostStatement → List Event
  | .wr off v => [.write .word off v]
  | .rd off => [.read .word off]
  | .wrdb k bs =>
    eachByte (fun i b => .write .byte (BitVec.ofNat 17 (windowBase + i)) (b.setWidth 32)) k bs
  | .rddb k n =>
    (List.range n).map fun i => .read .byte (BitVec.ofNat 17 (windowBase + k + i))
  | .mem a bs => eachByte (fun i b => .memWrite (BitVec.ofNat 32 i) b) a bs
  | .cmd i => [.write .word 0x00C#17 (encode i)]
  | .wait => [.block, .read .word 0x008#17]
  | .setmask m => [.write .word 0x014#17 (m.extractLsb' 32 32), .write .word 0x010#17 (m.extractLsb' 0 32)]

/-- The accesses of a program, in order. -/
def programEvents (p : List HostStatement) : List Event := p.flatMap HostStatement.events

end Sys2Proof.Machine
end

