-- ==== Sys2Proof/Tests/Slice0.lean ====
section
/-! SUPPORT. The model's own tests. Expected values are those of spec/95_test_vectors.md, named in each
comment, or are counted out by hand from the cited rule. After them, for every statement that has
hypotheses, a concrete state and operands that meet them. -/

namespace Sys2Proof.Tests

open Sys2Proof Sys2Proof.Machine

/-! Helpers. -/

/-- A snapshot of zeros. -/
def blank : Snapshot where
  cmd := 0
  mask := 0
  stride := 0
  mapWidth := 0
  pbBase := 0
  pbLen := 0
  startPixel := 0
  dbAddr := 0
  nbytes := 0

/-- The reset machine with a pending command. -/
def pending (l : Snapshot) : State := { State.reset with seq := .busy l }

/-- Bytes at consecutive addresses, none of them equal to what an unlisted address reads as. -/
def cells : Nat → List Byte → Memory
  | _, [] => []
  | a, b :: bs => (a, b) :: cells (a + 1) bs

/-- A machine with a map, system memory and DB, and a pending command. -/
def pixels (M : List Nat) (mem db : Memory) (l : Snapshot) : State :=
  { storeMap M State.reset with mem := mem, db := db, seq := .busy l }

/-- What holds of the next state; false if there is none. -/
def after (r : Result) (p : State → Bool) : Bool :=
  match r with
  | .next t => p t
  | .fault _ => false
  | .refused _ => false

theorem next_of_after {r : Result} {p : State → Bool} (h : after r p = true) :
    ∃ t, r = .next t ∧ p t = true := by
  cases r with
  | next t => exact ⟨t, rfl, h⟩
  | fault f => cases h
  | refused r => cases h

/-- Whether a command ended with this code. -/
def ended (code : ErrCode) (t : State) : Bool := decide (t.errcode = code)

theorem ended_none {r : Result} (h : after r (ended .none) = true) :
    ∃ t, r = .next t ∧ t.errcode = .none := by
  obtain ⟨t, e, p⟩ := next_of_after h
  exact ⟨t, e, of_decide_eq_true p⟩

/-! Well-formedness: one ill-formed word per check (spec/30_encoding.md R93, vector VE1). -/

theorem test_reserved_bit_4_refused : reservedBitsClear 0x00000011#32 = false := by decide
theorem test_reserved_bit_31_refused : reservedBitsClear 0x80000002#32 = false := by decide
theorem test_op_0_refused : opNotZero 0x00000000#32 = false := by decide
theorem test_op_7_refused : opAssigned 0x00000007#32 = false := by decide
theorem test_op_15_refused : opAssigned 0x0000000F#32 = false := by decide
theorem test_illegal_words_refused :
    [0x00000000#32, 0x00000007#32, 0x0000000F#32, 0x00000011#32, 0x80000002#32].all
      (fun w => !legalWord w) = true := by decide
theorem test_command_words_legal :
    [0x00000001#32, 0x00000002#32, 0x00000003#32, 0x00000004#32, 0x00000005#32,
      0x00000006#32].all legalWord = true := by decide

/-! Decoding: RSVD in bits 31:4, OP in bits 3:0, as R90 and the `word` column of R92 give them. -/

theorem test_decode_map_build :
    decode (0b0000000000000000000000000000#28 ++ 0b0001#4) = .ok .mapBuild := by decide
theorem test_decode_read_bits :
    decode (0b0000000000000000000000000000#28 ++ 0b0010#4) = .ok .readBits := by decide
theorem test_decode_write_bits :
    decode (0b0000000000000000000000000000#28 ++ 0b0011#4) = .ok .writeBits := by decide
theorem test_decode_crc_init :
    decode (0b0000000000000000000000000000#28 ++ 0b0100#4) = .ok .crcInit := by decide
theorem test_decode_crc_update :
    decode (0b0000000000000000000000000000#28 ++ 0b0101#4) = .ok .crcUpdate := by decide
theorem test_decode_crc_compute :
    decode (0b0000000000000000000000000000#28 ++ 0b0110#4) = .ok .crcCompute := by decide
theorem test_decode_op_7 :
    decode (0b0000000000000000000000000000#28 ++ 0b0111#4) = .error .reservedOp := by decide
theorem test_decode_reserved_bit :
    decode (0b1000000000000000000000000000#28 ++ 0b0010#4) = .error .reservedBitSet := by decide
theorem test_decode_table_words :
    [1, 2, 3, 4, 5, 6].map (decodeTableWord 32) =
      [some .mapBuild, some .readBits, some .writeBits, some .crcInit, some .crcUpdate,
        some .crcCompute] := by decide
theorem test_decode_table_word_too_wide : decodeTableWord 64 0x100000001 = none := by decide

/-! MAP_BUILD. -/

/-- VM1 (S1): the map of the source's own example. -/
theorem test_map_build_vm1 :
    after (exec .mapBuild (pending { blank with
      cmd := 1, mask := 0x8421000000000001, mapWidth := 64 })) (fun t =>
        (List.range 6).map (mapEntry t) == [0, 5, 10, 15, 63, 0] && mapK t == 5 &&
          statusWord t == 0x00000012#32) = true := by decide

/-- VM13: a width of 65 invalidates an older map, STATUS 0x00000306. -/
theorem test_map_build_vm13 :
    after (exec .mapBuild (pixels [7] [] [] { blank with
      cmd := 1, mask := 0x8421000000000001, mapWidth := 65 })) (fun t =>
        mapEntry t 0 == 0 && mapK t == 0 && t.errInfo == 1 &&
          statusWord t == 0x00000306#32) = true := by decide

/-! READ_BITS. -/

/-- The pixel buffer of VB5. -/
def vb5 (len : Word) : State :=
  pixels [7, 15, 23]
    (cells 0x80000000 [0x01] ++ cells 0x80000002 [0x01, 0xFF, 0xFE, 0xFF, 0x10, 0x11, 0x10, 0x03,
      0x02, 0x03])
    [] { blank with
      cmd := 2, stride := 3, pbBase := 0x80000000, pbLen := len, nbytes := 2 }

/-- VB5: two bytes over three channels. -/
theorem test_read_bits_vb5 :
    after (exec .readBits (vb5 16)) (fun t =>
      t.db == [(0, 0xB5#8), (1, 0x50#8)] && t.errcode == .none) = true := by decide

/-- VB12: the information word of BOUNDS_EXCEEDED saturates. -/
theorem test_read_bits_vb12 :
    after (exec .readBits (pixels [63] [] [] { blank with
      cmd := 2, stride := 8, startPixel := 0xFFFFFFFF, nbytes := 1, pbLen := 0x1000 })) (fun t =>
        t.errcode == .boundsExceeded && t.errInfo == 0xFFFFFFFF#32) = true := by decide

/-! WRITE_BITS. -/

/-- VB3: bits inside bytes, PB = FF DE 7B FF. -/
theorem test_write_bits_vb3 :
    after (exec .writeBits (pixels [0, 5, 10, 15] (cells 0x80000000 [0xFF, 0xFF, 0xFF, 0xFF])
      [(0, 0xC3)] { blank with
        cmd := 3, stride := 2, pbBase := 0x80000000, pbLen := 4, nbytes := 1 })) (fun t =>
          t.mem == cells 0x80000000 [0xFF, 0xDE, 0x7B, 0xFF] && t.errcode == .none) = true := by
  decide

/-- The write of VB1, and of VB2 with a shorter buffer. -/
def vb1 (len : Word) : State :=
  pixels [7] [] [(0, 0xA5)] { blank with
    cmd := 3, stride := 3, pbBase := 0x80000000, pbLen := len, startPixel := 2, nbytes := 1 }

/-- VB2: the last byte outside the buffer, STATUS 0x00000216, nothing written. -/
theorem test_write_bits_vb2 :
    after (exec .writeBits (vb1 27)) (fun t =>
      t.mem == [] && t.errInfo == 27 && statusWord t == 0x00000216#32) = true := by decide

/-! The CRC commands. -/

/-- VC8: CRC_INIT succeeds whatever DB_ADDR holds. -/
theorem test_crc_init_vc8 :
    after (exec .crcInit { pending { blank with cmd := 4, dbAddr := 0xFFFFFFFF, nbytes := 9 } with
      crcState := 0x12345678 }) (fun t =>
        t.crcState == 0 && crcValue t == 0xFFFFFFFF#32 && t.errcode == .none) = true := by decide

/-- VC7: "9" fed behind "12345678". -/
theorem test_crc_update_vc7 :
    after (exec .crcUpdate { pending { blank with cmd := 5, dbAddr := 8, nbytes := 1 } with
      crcState := 0x20E779A2, db := [(8, 0x39)] }) (fun t =>
        t.crcState == 0x89A1897F#32 && crcValue t == 0x765E7680#32) = true := by decide

/-- VC8: a string that ends past DB_SIZE. -/
theorem test_crc_update_vc8 :
    after (exec .crcUpdate (pending { blank with cmd := 5, dbAddr := 4090, nbytes := 7 }))
      (fun t => t.errcode == .dataBounds && t.errInfo == 4097 && t.crcState == 0) = true := by
  decide

/-- VC4a: the byte FF, from a state that does not matter. -/
theorem test_crc_compute_vc4a :
    after (exec .crcCompute { pending { blank with cmd := 6, nbytes := 1 } with
      crcState := 0xFFFFFFFF, db := [(0, 0xFF)] }) (fun t =>
        t.crcState == 0xB1F740B4#32 && crcValue t == 0x4E08BF4B#32) = true := by decide

/-- R212: a byte that nothing has written is recorded as a fault, and the command completes. -/
theorem test_crc_compute_unwritten :
    after (exec .crcCompute { pending { blank with cmd := 6, nbytes := 2 } with
      db := [(0, 0x61)] }) (fun t =>
        t.faults == [.dbByteUnwritten 1] && t.errcode == .none && t.done && !isBusy t) = true := by
  decide

/-- R212, for WRITE_BITS: it completes, and DB keeps having no value there. -/
theorem test_write_bits_unwritten :
    after (exec .writeBits (pixels [7] [] [(0, 0xA5)] { blank with
      cmd := 3, stride := 1, pbBase := 0x80000000, pbLen := 16, nbytes := 2 })) (fun t =>
        t.faults == [.dbByteUnwritten 1] && t.errcode == .none && t.db == [(0, 0xA5)]) = true := by
  decide

/-! The sequencer and the host's side. -/

/-- VE1: an illegal word, STATUS 0x00000406. -/
theorem test_illegal_word_ve1 :
    after (step (pending { blank with cmd := 0x11 })) (fun t =>
      t.errInfo == 0x11#32 && t.lastCmd == 0x11#32 && statusWord t == 0x00000406#32) = true := by
  decide

/-- VB17: READ_BITS as the first command after reset, STRIDE still 0. -/
theorem test_first_command_vb17 :
    after (step (State.reset.withFetchWord 32 2)) (fun t =>
      t.errcode == .paramInvalid && t.errInfo == 2#32 && t.lastCmd == 2#32) = true := by decide

/-- VE3: the interrupt rises with the completion, a W1C write of DONE lowers it. -/
theorem test_interrupt_ve3 :
    after (step { pending { blank with cmd := 4 } with ie := true }) (fun t =>
      irq t && after (hostWrite .word 0x008 0x00000002 t) (fun u => !irq u)) = true := by decide

/-- VE2, run 1: a CMD write while BUSY sets OVR, STATUS 0x00000009. -/
theorem test_overrun_ve2 :
    after (hostWrite .word 0x00C 2 (pending { blank with cmd := 4 })) (fun t =>
      statusWord t == 0x00000009#32 && t.seq == .busy { blank with cmd := 4 }) = true := by decide

/-- VE4: a soft reset keeps DB and drops the IE bit of its own write. -/
theorem test_soft_reset_ve4 :
    after (hostWrite .word 0x004 3 { storeMap [7] State.reset with
      crcState := 5, db := [(0, 0x01)] }) (fun t =>
        t == { State.reset with db := [(0, 0x01)] }) = true := by decide

/-- VE5: a DB byte read before any DB write is a recorded fault, and the run goes on. -/
theorem test_unwritten_window_byte_ve5 :
    after (hostRead .byte 0x10000 State.reset) (fun t =>
      t.faults == [.dbByteUnwritten 0] && t.replies.length == 1) = true := by decide

/-- R74: a read of an owned byte is a recorded fault and gives no value; the command still completes. -/
theorem test_owned_read_recorded :
    after (step { pending { blank with cmd := 2, pbBase := 0x80000000, pbLen := 8 } with
      inputs := [.memRead 0x80000007] }) (fun t =>
        t.faults == [.bufferOwned 0x80000007] && t.replies == [.noValue] &&
          after (step t) (fun u => u.done && u.faults == t.faults)) = true := by decide

/-- R74: a write to an owned byte is a recorded fault; behind the buffer it is made. -/
theorem test_owned_write_recorded :
    after (hostMemWrite 0x80000000 0x5A (pending { blank with
      cmd := 3, pbBase := 0x80000000, pbLen := 8 })) (fun t =>
        t.faults == [.bufferOwned 0x80000000] && isBusy t) = true ∧
    after (hostMemWrite 0x80000008 0x5A (pending { blank with
      cmd := 3, pbBase := 0x80000000, pbLen := 8 })) (fun t =>
        t.faults == [] && t.mem == [(0x80000008, 0x5A#8)]) = true := by decide

/-- P2's `cmd WRITE_BITS` and `wait`, and its `setmask`, as accesses (R96). -/
theorem test_program_notation :
    programEvents [.setmask 0x0100000000000000, .wrdb 0 [0xA5], .cmd .writeBits, .wait] =
      [.write .word 0x014 0x01000000, .write .word 0x010 0x00000000,
        .write .byte 0x10000 0xA5, .write .word 0x00C 0x00000003, .block,
        .read .word 0x008] := by decide

/-- The memory of the reset state is canonical. -/
theorem test_reset_memories_canonical :
    Memory.wf (some sysUnlisted) sysSize State.reset.mem ∧
      Memory.wf dbUnlisted (dbSize State.reset) State.reset.db := by decide

/-! Witnesses: the hypotheses of every statement that has some, met by concrete data, each clause at a
boundary of its range. -/

/-- The invariant holds of every test state whose memories are canonical. -/
theorem inv_pixels {M : List Nat} {mem db : Memory} (l : Snapshot) (hne : M ≠ [])
    (hM : M.length ≤ 64) (h64 : ∀ i ∈ M, i < 64) (hasc : M.Pairwise (· < ·))
    (hmem : Memory.wf (some sysUnlisted) sysSize mem) (hdb : Memory.wf dbUnlisted 4096 db) :
    BlockInv (pixels M mem db l) :=
  ⟨hmem, hdb, (mapOk_storeMap hne hM h64 hasc State.reset).congr rfl rfl rfl, fun _ => rfl,
    ⟨rfl, .inl rfl⟩⟩

/-- The smallest useful transfer: one byte through one bit of each of eight one-byte pixels. -/
def small (cmd : Word) (mem db : Memory) : State :=
  pixels [7] mem db { blank with
    cmd := cmd, stride := 1, pbBase := 0x80000000, pbLen := 8, nbytes := 1 }

/-- The snapshot of `small`. -/
def smallL (cmd : Word) : Snapshot :=
  { blank with cmd := cmd, stride := 1, pbBase := 0x80000000, pbLen := 8, nbytes := 1 }

theorem small_inv (cmd : Word) {mem db : Memory}
    (hmem : Memory.wf (some sysUnlisted) sysSize mem) (hdb : Memory.wf dbUnlisted 4096 db) :
    BlockInv (small cmd mem db) :=
  inv_pixels _ (by decide) (by decide) (by decide) (by decide) hmem hdb

theorem small_ready (cmd : Word) (mem db : Memory) :
    ChannelReady (small cmd mem db) (smallL cmd) := by
  have h1 : mapEntry (small cmd mem db) (mapK (small cmd mem db) - 1) < 8 := by
    show mapEntry (storeMap [7] State.reset) (mapK (storeMap [7] State.reset) - 1) < 8
    decide
  have h2 : lastOffset (small cmd mem db) (smallL cmd) < 8 := by
    show lastOffset (storeMap [7] State.reset) (smallL 0) < 8
    decide
  exact ⟨Nat.le_refl _, (by decide : (1 : Nat) ≤ 8), rfl, h1, (by decide : (0x80000000 + 8 : Nat) ≤ 2 ^ 32),
    (by decide : (0 + 1 : Nat) ≤ 4096), (by decide : (1 : Nat) ≠ 0), h2⟩

theorem small_quiet (cmd : Word) (mem db : Memory) (kind : Config.AccessKind) :
    BusQuiet (small cmd mem db) (smallL cmd) kind := fun _ _ => rfl

/-- `DecoderAcceptsExactlyLegalWords`: the last legal word, the illegal ones around the range. -/
theorem witness_decoder :
    legalWord 0x00000001 = true ∧ legalWord 0x00000006 = true ∧ legalWord 0x00000000 = false ∧
      legalWord 0x00000007 = false ∧ legalWord 0x00000010 = false := by decide

/-- `StepRunsDecodedCommand`, each clause. -/
theorem witness_step_runs :
    (∃ (s : State) (l : Snapshot), s.seq = .busy l ∧ decode l.cmd = .ok .readBits ∧
      s.inputs = []) ∧
    (∃ (s : State) (l : Snapshot), s.seq = .busy l ∧ decode l.cmd = .ok .crcInit ∧
      s.inputs = [.block]) ∧
    (∃ (s : State) (l : Snapshot), s.seq = .busy l ∧ decode l.cmd = .ok .writeBits ∧
      s.inputs = [.read .byte 0x10000] ∧ touchesWindow (.read .byte 0x10000) = true) ∧
    State.reset.inputs = [] ∧ decodeTableWord 32 6 = some .crcCompute :=
  ⟨⟨pending { blank with cmd := 2 }, _, rfl, by decide, rfl⟩,
    ⟨{ pending { blank with cmd := 4 } with inputs := [.block] }, _, rfl, by decide, rfl⟩,
    ⟨{ pending { blank with cmd := 3 } with inputs := [.read .byte 0x10000] }, _, rfl, by decide,
      rfl, by decide⟩, rfl, by decide⟩

/-- `DbAccessHeldUntilCompletion`: the first and the last offset of the window. -/
theorem witness_db_access_held :
    ∀ off ∈ [0x10000#17, 0x1FFFF#17], ∃ s t : State, isBusy s = true ∧
      s.inputs = [.read .byte off] ∧ touchesWindow (.read .byte off) = true ∧
      step s = .next t := by
  intro off h
  simp only [List.mem_cons, List.not_mem_nil, or_false] at h
  rcases h with rfl | rfl
  · exact ⟨{ pending { blank with cmd := 4 } with inputs := [.read .byte 0x10000] }, _, rfl, rfl,
      by decide, rfl⟩
  · exact ⟨{ pending { blank with cmd := 4 } with inputs := [.read .byte 0x1FFFF] }, _, rfl, rfl,
      by decide, rfl⟩

/-- `CtrlWriteStoresIeOrResets`: the values 1, 2 and 3. -/
theorem witness_ctrl_write :
    (1#32).getLsbD 1 = false ∧ (2#32).getLsbD 1 = true ∧ (3#32).getLsbD 1 = true := by decide

/-- `StatusRegisterShowsFlags`: idle, and busy with a command that is not MAP_BUILD. -/
theorem witness_status :
    pendingCommand State.reset ≠ some .mapBuild ∧
      pendingCommand (pending { blank with cmd := 2 }) ≠ some .mapBuild := by decide

/-- `CmdWriteIssuesOrDrops`: idle with an illegal word, and busy. -/
theorem witness_cmd_write :
    State.reset.seq = .idle ∧ legalWord 0x00000007 = false ∧ legalWord 0xFFFFFFFF = false ∧
      ∃ l, (pending blank).seq = .busy l := ⟨rfl, by decide, by decide, _, rfl⟩

/-- `OperandRegistersStoreTheirBits`: two operand registers, the first and the last. -/
theorem witness_operand_registers :
    (0x010#17, 32) ∈ operandRegisters ∧ (0x030#17, 32) ∈ operandRegisters ∧
      (0x018#17, 4) ∈ operandRegisters ∧ (0x01C#17, 7) ∈ operandRegisters := by decide

/-- `ReservedOffsetsReadZero`: both ends of both ranges. -/
theorem witness_reserved_offsets :
    ∀ off ∈ [0x0004C#17, 0x000FC#17, 0x00200#17, 0x0FFFC#17], off.toNat % 4 = 0 ∧
      (0x04C ≤ off.toNat ∧ off.toNat ≤ 0x0FC ∨ 0x200 ≤ off.toNat ∧ off.toNat ≤ 0xFFFC) := by
  intro off h
  simp only [List.mem_cons, List.not_mem_nil, or_false] at h
  rcases h with rfl | rfl | rfl | rfl <;> simp

/-- `ReadOnlyRegistersShowValues`: not busy, and the first and last map entry. -/
theorem witness_read_only : isBusy State.reset = false ∧ (0 : Nat) < 64 ∧ (63 : Nat) < 64 := by
  decide

/-- `PendingCommandIgnoresOperandRegisters` and `PendingCommandCompletes`: a pending command, with data
that nothing has written and with no event queued. -/
theorem witness_pending :
    isBusy (small 3 [] []) = true ∧ (small 3 [] []).seq = .busy (smallL 3) ∧
      (small 3 [] []).inputs = [] := ⟨rfl, rfl, rfl⟩

/-- `BusyReadsAreFreeOrCurrent`: written registers at both ends of each range, STATUS, and registers
beside them. -/
theorem witness_busy_reads :
    pendingCommand (pending { blank with cmd := 1 }) = some .mapBuild ∧
    pendingCommand (pending { blank with cmd := 6 }) = some .crcCompute ∧
    (∀ off ∈ [0x040#17, 0x100#17, 0x1FC#17], off.toNat % 4 = 0 ∧ off.toNat < 0x10000 ∧
      (off.toNat = 0x040 ∨ (0x100 ≤ off.toNat ∧ off.toNat ≤ 0x1FC))) ∧
    (∀ off ∈ [0x034#17, 0x038#17], off.toNat % 4 = 0 ∧ off.toNat < 0x10000 ∧
      (off.toNat = 0x034 ∨ off.toNat = 0x038)) ∧
    (0x008#17).toNat = 0x008 ∧
    ∀ off ∈ [0x000#17, 0x0FC#17, 0x200#17, 0xFFFC#17], off.toNat % 4 = 0 ∧
      off.toNat < 0x10000 ∧ off.toNat ≠ 0x008 ∧ off.toNat ≠ 0x034 ∧ off.toNat ≠ 0x038 ∧
      ¬ (off.toNat = 0x040 ∨ (0x100 ≤ off.toNat ∧ off.toNat ≤ 0x1FC)) := by
  refine ⟨by decide, by decide, ?_, ?_, rfl, ?_⟩ <;> intro off h <;>
    simp only [List.mem_cons, List.not_mem_nil, or_false] at h
  · rcases h with rfl | rfl | rfl <;> simp
  · rcases h with rfl | rfl <;> simp
  · rcases h with rfl | rfl | rfl | rfl <;> simp

/-- `IrqFollowsIeAndDone`, each clause. -/
theorem witness_irq :
    (∃ s t, isBusy s = true ∧ blockStep s = .next t) ∧
    (∃ s t, s.done = true ∧ (1#32).getLsbD 0 = true ∧ (1#32).getLsbD 1 = false ∧
      hostWrite .word 0x004#17 1 s = .next t) ∧
    (∃ s t, (2#32).getLsbD 1 = true ∧ hostWrite .word 0x008#17 2 s = .next t) ∧
    (∃ s t, (0#32).getLsbD 0 = false ∧ hostWrite .word 0x004#17 0 s = .next t) ∧
    (∃ s t, (3#32).getLsbD 1 = true ∧ hostWrite .word 0x004#17 3 s = .next t) ∧
    (∃ s t, s.seq = .idle ∧ hostWrite .word 0x00C#17 4 s = .next t) :=
  ⟨⟨pending { blank with cmd := 4 }, _, rfl, rfl⟩,
    ⟨{ State.reset with done := true }, _, rfl, by decide, by decide, rfl⟩,
    ⟨{ State.reset with done := true, ie := true }, _, by decide, rfl⟩,
    ⟨{ State.reset with done := true, ie := true }, _, by decide, rfl⟩,
    ⟨{ State.reset with done := true, ie := true }, _, by decide, rfl⟩,
    ⟨{ State.reset with done := true, ie := true }, _, rfl, rfl⟩⟩

/-- `SoftResetClearsAndAborts`: with READ_BITS, WRITE_BITS and no command pending; a DB byte inside
and one outside the output range. -/
theorem witness_soft_reset :
    (BlockInv (small 2 [] []) ∧ (small 2 [] []).seq = .busy (smallL 2) ∧
      pendingCommand (small 2 [] []) = some .readBits ∧
      (smallL 2).dbAddr.toNat ≤ 0 ∧ 0 < dbEnd (smallL 2) ∧ 0 < dbSize (small 2 [] []) ∧
      ¬ ((smallL 2).dbAddr.toNat ≤ 1 ∧ 1 < dbEnd (smallL 2))) ∧
    (BlockInv (small 3 [] [(0, 0xA5)]) ∧
      (small 3 [] [(0, 0xA5)]).seq = .busy (smallL 3) ∧
      pendingCommand (small 3 [] [(0, 0xA5)]) = some .writeBits) ∧
    BlockInv State.reset ∧ pendingCommand State.reset = none ∧ (2#32).getLsbD 1 = true :=
  ⟨⟨small_inv 2 (by decide) (by decide), rfl, by decide, by decide, by decide, by decide,
      by decide⟩,
    ⟨small_inv 3 (by decide) (by decide), rfl, by decide⟩,
    ⟨Memory.wf_nil _ _, Memory.wf_nil _ _, mapOk_reset, (fun h => by cases h),
      ⟨rfl, .inl rfl⟩⟩, rfl, by decide⟩

/-- `PowerOnResetForgetsDb`: with no command and with a WRITE_BITS pending. -/
theorem witness_power_on :
    ({ State.reset with inputs := [.powerOn], db := [(0, 0x01)] }.inputs = .powerOn :: [] ∧
      pendingCommand { State.reset with inputs := [.powerOn], db := [(0, 0x01)] } ≠
        some .writeBits) ∧
    ({ small 3 [] [] with inputs := [.powerOn] }.inputs = .powerOn :: [] ∧
      { small 3 [] [] with inputs := [.powerOn] }.seq = .busy (smallL 3) ∧
      pendingCommand { small 3 [] [] with inputs := [.powerOn] } = some .writeBits ∧
      BlockInv { small 3 [] [] with inputs := [.powerOn] }) := by
  have h := small_inv 3 (mem := []) (db := []) (by decide) (by decide)
  exact ⟨⟨rfl, by decide⟩, rfl, rfl, by decide, ⟨h.mem, h.db, h.map, h.busy, h.error⟩⟩

/-- `WindowWriteLanesAreLittleEndian`: the first byte, the last halfword and the last word of the
window; DB bytes inside and outside of what is written. -/
theorem witness_window_write :
    (0x10000 ≤ (0x10000#17).toNat ∧ (0x10000#17).toNat % Width.byte.bytes = 0) ∧
    (0x10000 ≤ (0x1FFFE#17).toNat ∧ (0x1FFFE#17).toNat % Width.half.bytes = 0) ∧
    (0x10000 ≤ (0x1FFFC#17).toNat ∧ (0x1FFFC#17).toNat % Width.word.bytes = 0) ∧
    (0x11000 - 0x10000 = dbSize State.reset) := by decide

/-- `WindowReadLanesAreLittleEndian`: a word that ends past DB_SIZE, and an unwritten byte. -/
theorem witness_window_read :
    (let s := { State.reset with params := { dbTop := 0, busErrors := [] }, db := [(0, 0x5A)] };
      0x10000 ≤ (0x10000#17).toNat ∧ (0x10000#17).toNat % Width.word.bytes = 0 ∧
      (∀ i, i < Width.word.bytes → 0 + i < dbSize s → dbRead s.db (0 + i) ≠ none) ∧
      dbSize s ≤ 0 + 1) ∧
    (0 < Width.byte.bytes ∧ 0 + 0 < dbSize State.reset ∧
      dbRead State.reset.db (0 + 0) = none) := by decide

/-- `UnsupportedAccessHasNoEffect`: a byte and a misaligned word in the register space, a misaligned
halfword and word in the window. -/
theorem witness_unsupported :
    ((0x00000#17).toNat < 0x10000 ∧ Width.byte ≠ .word) ∧
    ((0x0FFFF#17).toNat < 0x10000 ∧ (0x0FFFF#17).toNat % 4 ≠ 0) ∧
    (0x10000 ≤ (0x10001#17).toNat ∧ (0x10001#17).toNat % Width.half.bytes ≠ 0) ∧
    (0x10000 ≤ (0x1FFFE#17).toNat ∧ (0x1FFFE#17).toNat % Width.word.bytes ≠ 0) := by decide

/-- `OwnedBufferAccessFaults`: the first and last owned address, the first behind them, and an idle
block. -/
theorem witness_owned_buffer :
    (small 2 [] []).seq = .busy (smallL 2) ∧
    pendingCommand (small 2 [] []) = some .readBits ∧
    (∀ a ∈ [0x80000000#32, 0x80000007#32], (smallL 2).pbBase.toNat ≤ a.toNat ∧
      a.toNat < (smallL 2).pbBase.toNat + (smallL 2).pbLen.toNat) ∧
    ¬ ((smallL 2).pbBase.toNat ≤ (0x80000008#32).toNat ∧
      (0x80000008#32).toNat < (smallL 2).pbBase.toNat + (smallL 2).pbLen.toNat) ∧
    pendingCommand State.reset ≠ some .readBits ∧
    pendingCommand State.reset ≠ some .writeBits ∧
    Memory.wf (some sysUnlisted) sysSize State.reset.mem := by
  refine ⟨rfl, by decide, ?_, by simp [smallL, blank], by decide, by decide, by decide⟩
  intro a h
  simp only [List.mem_cons, List.not_mem_nil, or_false] at h
  rcases h with rfl | rfl <;> simp [smallL, blank]

/-- `EqualReadsMakeEqualMemories`. -/
theorem witness_canonical :
    Memory.wf (some sysUnlisted) sysSize [(0, 0x01#8), (0xFFFFFFFF, 0xFF#8)] ∧
    Memory.wf dbUnlisted 65536 [(0, 0x00#8), (65535, 0xFF#8)] ∧ 0xFFFFFFFF < sysSize := by decide

/-- `OffsetMapListsFlaggedBits` and `LowMaskBitsHaveNoEffect`: width 64, and a mask bit below a width
of 63. -/
theorem witness_offset_map :
    (64 : Nat) ≤ 64 ∧ 4 < (offsetMapOf 0x8421000000000001 64).length ∧ (63 : Nat) ≤ 64 ∧
    ∀ b, b < 64 → 64 - 63 ≤ b →
      (0x8421000000000001#64).getLsbD b = (0x8421000000000000#64).getLsbD b := by decide

/-- `MapBuildStoresTheMap`: the least and the greatest legal width. -/
theorem witness_map_build :
    (∃ (s : State) (l : Snapshot), s.seq = .busy l ∧ l.mapWidth.toNat = 64 ∧
      ∃ i, i < l.mapWidth.toNat ∧ l.mask.getLsbD (63 - i) = true) ∧
    ∃ (s : State) (l : Snapshot), s.seq = .busy l ∧ l.mapWidth.toNat = 1 ∧
      ∃ i, i < l.mapWidth.toNat ∧ l.mask.getLsbD (63 - i) = true :=
  ⟨⟨pending { blank with cmd := 1, mask := 1, mapWidth := 64 }, _, rfl, by decide, 63, by decide,
      by decide⟩,
    ⟨pending { blank with cmd := 1, mask := 0x8000000000000000, mapWidth := 1 }, _, rfl,
      by decide, 0, by decide, by decide⟩⟩

/-- `MapBuildFailureInvalidates`: width 65, a zero mask, and bits below the width only. -/
theorem witness_map_build_failure :
    (∃ (s : State) (l : Snapshot), s.seq = .busy l ∧ 64 < l.mapWidth.toNat) ∧
    (∃ (s : State) (l : Snapshot), s.seq = .busy l ∧ l.mapWidth.toNat ≤ 64 ∧
      offsetMapOf l.mask l.mapWidth.toNat = []) :=
  ⟨⟨pending { blank with mapWidth := 65 }, _, rfl, by decide⟩,
    ⟨pending { blank with mapWidth := 63, mask := 1 }, _, rfl, by decide, by decide⟩⟩

/-- `AllBitsMaskBuildsIdentity`: strides 1 and 8. -/
theorem witness_all_bits :
    (∃ (s : State) (l : Snapshot), s.seq = .busy l ∧ l.mask = allBits 1 ∧
      l.mapWidth.toNat = 8 * 1) ∧
    ∃ (s : State) (l : Snapshot), s.seq = .busy l ∧ l.mask = allBits 8 ∧
      l.mapWidth.toNat = 8 * 8 :=
  ⟨⟨pending { blank with mask := allBits 1, mapWidth := 8 }, _, rfl, rfl, by decide⟩,
    ⟨pending { blank with mask := allBits 8, mapWidth := 64 }, _, rfl, rfl, by decide⟩⟩

/-- `MapAndCrcChangeOnlyByTheirCommands`: a step that changes each. -/
theorem witness_map_and_crc_change :
    (∃ s t, step s = .next t ∧ t.mapValid ≠ s.mapValid) ∧
    (∃ s t, step s = .next t ∧ t.crcState ≠ s.crcState) := by
  obtain ⟨t, h, p⟩ := next_of_after (r := step (pending { blank with
    cmd := 1, mask := 1, mapWidth := 64 })) (p := fun t => t.mapValid) (by decide)
  exact ⟨⟨_, t, h, by rw [p]; decide⟩,
    ⟨{ pending { blank with cmd := 4 } with crcState := 1 }, _, rfl, by decide⟩⟩

/-- `FootprintSpansPixelsInOrder`. -/
theorem witness_footprint :
    MapOk (small 2 [] []) ∧ (small 2 [] []).mapValid = true ∧
    mapEntry (small 2 [] []) (mapK (small 2 [] []) - 1) < 8 * (smallL 2).stride.toNat ∧
    (smallL 2).nbytes.toNat ≠ 0 :=
  ⟨(small_inv 2 (by decide) (by decide)).map, rfl, (small_ready 2 [] []).fits, by decide⟩

/-- A snapshot for the checks of R134, at map [7]. -/
def chk (stride : BitVec 4) (base len da n : Word) : Snapshot :=
  { blank with
    cmd := 2, stride := stride, pbBase := base, pbLen := len, dbAddr := da, nbytes := n }

/-- `ChannelReportsFirstFailure`: each clause at the value next to where it ends (VB13, VB15, VB16,
VB2). -/
theorem witness_first_failure :
    let s := pixels [7] [] [] blank
    ((chk 0 0 0 0 0).stride.toNat < 1 ∧ 8 < (chk 9 0 0 0 0).stride.toNat) ∧
    (1 ≤ (chk 1 0 0 0 0).stride.toNat ∧ (chk 8 0 0 0 0).stride.toNat ≤ 8 ∧
      State.reset.mapValid = false ∧ s.mapValid = true) ∧
    (8 * 1 ≤ mapEntry (storeMap [8] State.reset) (mapK (storeMap [8] State.reset) - 1) ∧
      mapEntry s (mapK s - 1) < 8 * 1) ∧
    (let l := chk 1 0xFFFFFFF0 0x11 0 0; 2 ^ 32 < l.pbBase.toNat + l.pbLen.toNat) ∧
    (let l := chk 1 0xFFFFFFF0 0x10 4095 2;
      l.pbBase.toNat + l.pbLen.toNat ≤ 2 ^ 32 ∧ dbSize s < l.dbAddr.toNat + l.nbytes.toNat) ∧
    (let l := chk 1 0 0 4096 0;
      l.dbAddr.toNat + l.nbytes.toNat ≤ dbSize s ∧ l.nbytes.toNat = 0) ∧
    (let l := chk 1 0 7 4095 1;
      l.dbAddr.toNat + l.nbytes.toNat ≤ dbSize s ∧ l.nbytes.toNat ≠ 0 ∧
        l.pbLen.toNat ≤ (0 + (8 * 1 - 1) / mapK s) * 1 +
          mapEntry s ((8 * 1 - 1) % mapK s) / 8) := by decide

/-- `BoundsExceededExactlyWhenOutside`: VB2's buffer, one byte too short, and VB1's. -/
theorem witness_bounds :
    (vb1 27).mapValid = true ∧ MapOk (vb1 27) ∧
    (∃ l, (vb1 27).seq = .busy l ∧ 1 ≤ l.stride.toNat ∧ l.stride.toNat ≤ 8 ∧
      mapEntry (vb1 27) (mapK (vb1 27) - 1) < 8 * l.stride.toNat ∧
      l.pbBase.toNat + l.pbLen.toNat ≤ 2 ^ 32 ∧
      l.dbAddr.toNat + l.nbytes.toNat ≤ dbSize (vb1 27) ∧ l.nbytes.toNat ≠ 0 ∧
      ∃ j, j < nbits l ∧ l.pbLen.toNat ≤ offsetAt (vb1 27) l j) ∧
    ∃ l, (vb1 28).seq = .busy l ∧ ∀ j, j < nbits l → ¬ l.pbLen.toNat ≤ offsetAt (vb1 28) l j :=
  ⟨rfl, (inv_pixels _ (by decide) (by decide) (by decide) (by decide) (by decide)
      (by decide)).map,
    ⟨_, rfl, by decide, by decide, by decide, by decide, by decide, by decide, 7, by decide,
      by decide⟩,
    ⟨_, rfl, by decide⟩⟩

/-- `ReadBitsStoresTheStream`. -/
theorem witness_read_bits :
    (small 2 [] []).seq = .busy (smallL 2) ∧ ChannelReady (small 2 [] []) (smallL 2) ∧
      BusQuiet (small 2 [] []) (smallL 2) .read :=
  ⟨rfl, small_ready 2 [] [], small_quiet 2 [] [] .read⟩

/-- `ReadBitsFrame`: a READ_BITS that stores. -/
theorem witness_read_bits_frame :
    ∃ s t l, s.seq = .busy l ∧ exec .readBits s = .next t ∧ t.errcode = .none :=
  ⟨small 2 [] [], _, _, rfl, execReadBits_ready rfl (small_ready 2 [] []) (small_quiet 2 _ _ _),
    rfl⟩

/-- `ReadBitsDependsOnlyOnFootprint`: memories that differ in a bit outside the footprint. -/
theorem witness_read_bits_footprint :
    let s := small 2 [] []
    let s' := small 2 [(0x80000000, 0x80#8)] []
    s.seq = .busy (smallL 2) ∧ s'.seq = .busy (smallL 2) ∧ s.mem ≠ s'.mem ∧
    s.mapFile = s'.mapFile ∧ s.mapLen = s'.mapLen ∧
    (∀ j, j < nbits (smallL 2) →
      (sysRead s.mem (pbAddr (smallL 2) (offsetAt s (smallL 2) j))).getLsbD (bitAt s j) =
        (sysRead s'.mem (pbAddr (smallL 2) (offsetAt s (smallL 2) j))).getLsbD (bitAt s j)) ∧
    (∃ t, exec .readBits s = .next t ∧ t.errcode = .none) ∧
    ∃ t, exec .readBits s' = .next t ∧ t.errcode = .none :=
  ⟨rfl, rfl, by decide, rfl, rfl, by decide,
    ⟨_, execReadBits_ready rfl (small_ready 2 _ _) (small_quiet 2 _ _ _), rfl⟩,
    ⟨_, execReadBits_ready rfl (small_ready 2 _ _) (small_quiet 2 _ _ _), rfl⟩⟩

/-- The byte A5 stands in DB of these states. -/
theorem small_holds (cmd : Word) (mem : Memory) :
    DbHolds (small cmd mem [(0, 0xA5)]).db (smallL cmd).dbAddr.toNat [0xA5] := by
  intro t ht
  have : t = 0 := by simpa using ht
  subst this
  rfl

theorem small_written (cmd : Word) (mem : Memory) :
    DbWritten (small cmd mem [(0, 0xA5)]) (smallL cmd) := by
  intro t ht
  have : t < 1 := ht
  have : t = 0 := by omega
  subst this
  simp [small, pixels, smallL, blank, dbRead, Memory.lookup]

/-- `WriteBitsSetsExactlyTheFootprint`: the inputs, and a WRITE_BITS that completes with NONE. -/
theorem witness_write_bits :
    let s := small 3 [] [(0, 0xA5)]
    BlockInv s ∧ s.seq = .busy (smallL 3) ∧ ChannelReady s (smallL 3) ∧
      BusQuiet s (smallL 3) .read ∧ BusQuiet s (smallL 3) .write ∧ DbWritten s (smallL 3) ∧
      ∃ t, exec .writeBits s = .next t ∧ t.errcode = .none :=
  ⟨small_inv 3 (by decide) (by decide), rfl, small_ready 3 _ _, small_quiet 3 _ _ _,
    small_quiet 3 _ _ _, small_written 3 [], ended_none (by decide)⟩

/-- `WriteBitsFrame` and `WriteThenReadReturnsTheData`: a WRITE_BITS and a READ_BITS of its bits. -/
theorem witness_write_then_read :
    ∃ t u v l l', BlockInv (small 3 [] [(0, 0xA5)]) ∧ (small 3 [] [(0, 0xA5)]).seq = .busy l ∧
      exec .writeBits (small 3 [] [(0, 0xA5)]) = .next t ∧ t.errcode = .none ∧
      u.seq = .busy l' ∧ u.mapFile = (small 3 [] [(0, 0xA5)]).mapFile ∧
      u.mapLen = (small 3 [] [(0, 0xA5)]).mapLen ∧ (∀ a, sysRead u.mem a = sysRead t.mem a) ∧
      l'.stride = l.stride ∧ l'.startPixel = l.startPixel ∧ l'.nbytes = l.nbytes ∧
      l'.pbBase = l.pbBase ∧ exec .readBits u = .next v ∧ v.errcode = .none ∧
      0 < l.nbytes.toNat ∧
      dbRead (small 3 [] [(0, 0xA5)]).db (l.dbAddr.toNat + 0) = some 0xA5 := by
  obtain ⟨t, e, he⟩ := ended_none (r := exec .writeBits (small 3 [] [(0, 0xA5)])) (by decide)
  exact ⟨t, small 2 t.mem [(0, 0xA5)], _, smallL 3, smallL 2,
    small_inv 3 (by decide) (by decide), rfl, e, he, rfl, rfl, rfl, fun _ => rfl, rfl, rfl, rfl,
    rfl, execReadBits_ready rfl (small_ready 2 t.mem _) (small_quiet 2 _ _ _), rfl, by decide, rfl⟩

/-- `SplitStreamsEqualOne`: two bytes at once, and one byte and one byte, for both commands. -/
theorem witness_split_streams :
    let l := fun (cmd n : Word) => ({ blank with
      cmd := cmd, stride := 1, pbBase := 0x80000000, pbLen := 16, nbytes := n } : Snapshot)
    let s := fun (cmd : Word) => pixels [7] [] [(0, 0xA5), (1, 0x3C)] (l cmd 2)
    (l 2 2).nbytes.toNat = (1#32).toNat + (1#32).toNat ∧ 8 * (1#32).toNat % mapK (s 2) = 0 ∧
    (8#32).toNat = (l 2 2).startPixel.toNat + 8 * (1#32).toNat / mapK (s 2) ∧
    (1#32).toNat = (l 2 2).dbAddr.toNat + (1#32).toNat ∧
    (∃ t, exec .readBits { s 2 with seq := .busy { l 2 2 with nbytes := 1 } } = .next t ∧
      t.errcode = .none ∧ ∃ u, exec .readBits { t with seq := .busy { l 2 2 with
        nbytes := 1, startPixel := 8, dbAddr := 1 } } = .next u ∧ u.errcode = .none) ∧
    (∃ v, exec .readBits { s 2 with seq := .busy (l 2 2) } = .next v ∧ v.errcode = .none) ∧
    (∃ t, exec .writeBits { s 3 with seq := .busy { l 3 2 with nbytes := 1 } } = .next t ∧
      t.errcode = .none ∧ ∃ u, exec .writeBits { t with seq := .busy { l 3 2 with
        nbytes := 1, startPixel := 8, dbAddr := 1 } } = .next u ∧ u.errcode = .none) ∧
    (∃ v, exec .writeBits { s 3 with seq := .busy (l 3 2) } = .next v ∧ v.errcode = .none) ∧
    DbWritten (s 3) (l 3 2) := by
  intro l s
  have written : ∀ t, t < 2 → dbRead [(0, 0xA5#8), (1, 0x3C#8)] (0 + t) ≠ none := by decide
  have two : ∀ {r : Result} {f : State → Result},
      after r (fun t => ended .none t && after (f t) (ended .none)) = true →
      ∃ t, r = .next t ∧ t.errcode = .none ∧ ∃ u, f t = .next u ∧ u.errcode = .none := by
    intro r f h
    obtain ⟨t, e, p⟩ := next_of_after h
    obtain ⟨p1, p2⟩ := Bool.and_eq_true_iff.mp p
    exact ⟨t, e, of_decide_eq_true p1, ended_none p2⟩
  exact ⟨by decide, by decide, by decide, by decide, two (by decide), ended_none (by decide),
    two (by decide), ended_none (by decide), written⟩

/-- `AllBitsMapCopiesBytes`: the eight entries of a one-byte pixel. -/
theorem witness_all_bits_copy :
    let l : Snapshot := { blank with
      cmd := 3, stride := 1, pbBase := 0x80000000, pbLen := 1, nbytes := 1 }
    let s := pixels [0, 1, 2, 3, 4, 5, 6, 7] [] [(0, 0xA5)] l
    BlockInv s ∧ s.seq = .busy l ∧ ChannelReady s l ∧ mapK s = 8 * l.stride.toNat ∧
      (∀ k, k < 8 * l.stride.toNat → mapEntry s k = k) ∧ BusQuiet s l .read ∧
      BusQuiet s l .write ∧ ([0xA5#8] : List Byte).length = l.nbytes.toNat ∧
      DbHolds s.db l.dbAddr.toNat [0xA5] :=
  ⟨inv_pixels _ (by decide) (by decide) (by decide) (by decide) (by decide) (by decide), rfl,
    ⟨by decide, by decide, rfl, by decide, by decide, by decide, by decide, by decide⟩, by decide,
    by decide, (fun _ _ => rfl), (fun _ _ => rfl), by decide, small_holds 3 []⟩

/-- `small` on a platform that fails accesses of one kind at the last footprint byte. -/
def failing (cmd : Word) (kind : Config.AccessKind) : State :=
  { small cmd [] [(0, 0xA5)] with
    params := { dbTop := 4095, busErrors := [⟨0x80000007, 0x80000007, kind⟩] } }

theorem failing_ready (cmd : Word) (kind : Config.AccessKind) :
    BlockInv (failing cmd kind) ∧ ChannelReady (failing cmd kind) (smallL cmd) := by
  have h := small_ready cmd [] [(0, 0xA5)]
  have hI := small_inv cmd (mem := []) (db := [(0, 0xA5)]) (by decide) (by decide)
  exact ⟨⟨hI.mem, hI.db, hI.map, hI.busy, hI.error⟩,
    ⟨h.stride_pos, h.stride_le, h.valid, h.fits, h.noWrap, h.dbFits, h.bytes, h.inBuffer⟩⟩

/-- `BusErrorLeavesOldOrNew`: a failing read, and a failing write. -/
theorem witness_bus_error :
    (BlockInv (failing 2 .read) ∧ (failing 2 .read).seq = .busy (smallL 2) ∧
      ChannelReady (failing 2 .read) (smallL 2) ∧ ∃ j, j < nbits (smallL 2) ∧
      busError (failing 2 .read).params
        (pbAddr (smallL 2) (offsetAt (failing 2 .read) (smallL 2) j)) .read = true) ∧
    (BlockInv (failing 3 .write) ∧ (failing 3 .write).seq = .busy (smallL 3) ∧
      ChannelReady (failing 3 .write) (smallL 3) ∧ ∃ j, j < nbits (smallL 3) ∧
      busError (failing 3 .write).params
        (pbAddr (smallL 3) (offsetAt (failing 3 .write) (smallL 3) j)) .write = true) :=
  ⟨⟨(failing_ready 2 .read).1, rfl, (failing_ready 2 .read).2, 7, by decide, by decide⟩,
    ⟨(failing_ready 3 .write).1, rfl, (failing_ready 3 .write).2, 7, by decide, by decide⟩⟩

/-- `UnwrittenDbByteFaults`: the only byte of a range is unwritten, and one that ends at DB_SIZE. -/
theorem witness_unwritten :
    (small 3 [] []).seq = .busy (smallL 3) ∧
    (smallL 3).dbAddr.toNat + (smallL 3).nbytes.toNat ≤ dbSize (small 3 [] []) ∧
    dbRead (small 3 [] []).db (smallL 3).dbAddr.toNat = none ∧
    ChannelReady (small 3 [] []) (smallL 3) ∧
    (4095#32).toNat + (1#32).toNat ≤ dbSize State.reset :=
  ⟨rfl, by decide, rfl, small_ready 3 [] [], by decide⟩

/-- A snapshot for the CRC commands. -/
def crcL (da n : Word) : Snapshot := { blank with dbAddr := da, nbytes := n }

/-- `CrcInitStartsAChecksum`, `CrcUpdateFeedsDb` and `CrcComputeFeedsFromInit`: a string past DB_SIZE
by one byte, one that ends at DB_SIZE, and the empty one. -/
theorem witness_crc_commands :
    ((pending (crcL 4096 1)).seq = .busy (crcL 4096 1) ∧
      dbSize (pending (crcL 4096 1)) < (crcL 4096 1).dbAddr.toNat + (crcL 4096 1).nbytes.toNat) ∧
    ((crcL 4095 1).dbAddr.toNat + (crcL 4095 1).nbytes.toNat ≤ dbSize (pending (crcL 4095 1)) ∧
      ([0x01#8] : List Byte).length = (crcL 4095 1).nbytes.toNat ∧
      DbHolds [(4095, 0x01#8)] (crcL 4095 1).dbAddr.toNat [0x01#8]) ∧
    ((crcL 4096 0).dbAddr.toNat + (crcL 4096 0).nbytes.toNat ≤ dbSize (pending (crcL 4096 0)) ∧
      ([] : List Byte).length = (crcL 4096 0).nbytes.toNat ∧
      DbHolds [] (crcL 4096 0).dbAddr.toNat []) := by
  refine ⟨⟨rfl, by decide⟩, ⟨by decide, by decide, fun t ht => ?_⟩,
    ⟨by decide, by decide, fun _ h => absurd h (Nat.not_lt_zero _)⟩⟩
  have : t = 0 := by simpa using ht
  subst this
  decide

/-- `CrcChains`: CRC_COMPUTE over one byte and CRC_UPDATE over another. -/
theorem witness_crc_chains :
    let s := small 6 [] [(0, 0xA5)]
    ∃ t u v, s.seq = .busy (smallL 6) ∧ ([0xA5#8] : List Byte).length = (smallL 6).nbytes.toNat ∧
      DbHolds s.db (smallL 6).dbAddr.toNat [0xA5] ∧ exec .crcCompute s = .next t ∧
      t.errcode = .none ∧ u.crcState = t.crcState ∧ u.seq = .busy (smallL 5) ∧
      DbHolds u.db (smallL 5).dbAddr.toNat [0xA5] ∧ exec .crcUpdate u = .next v ∧
      v.errcode = .none := by
  obtain ⟨t, e, he⟩ := ended_none (r := exec .crcCompute (small 6 [] [(0, 0xA5)])) (by decide)
  exact ⟨t, { small 5 [] [(0, 0xA5)] with crcState := t.crcState }, _, rfl, by decide,
    small_holds 6 [], e, he, rfl, rfl, small_holds 5 [], rfl, rfl⟩

/-- `CrcDetectsByteChange`: two bytes, and the first and last bit. -/
theorem witness_byte_change : (0x00#8) ≠ 0x01#8 ∧ (0 : Nat) < 8 ∧ (7 : Nat) < 8 := by decide

/-- `MapAndCrcCommandFrame`: a completion of MAP_BUILD and of each CRC command. -/
theorem witness_command_frame :
    ∀ i ∈ [Instr.mapBuild, .crcInit, .crcUpdate, .crcCompute], i ≠ .readBits ∧ i ≠ .writeBits ∧
      ∃ s t l, s.seq = .busy l ∧ exec i s = .next t := by
  intro i hi
  have h : after (exec i (pending blank)) (fun _ => true) = true ∧ i ≠ .readBits ∧
      i ≠ .writeBits := by
    revert i
    decide
  obtain ⟨t, e, -⟩ := next_of_after h.1
  exact ⟨h.2.1, h.2.2, pending blank, t, blank, rfl, e⟩

/-- `CompletionWritesTheRegisters` and `CommandsLeaveOperands`: a completion, with and without an
error, and a step. -/
theorem witness_completion :
    (∃ s t l, s.seq = .busy l ∧ blockStep s = .next t ∧ t.errcode = .none) ∧
    (∃ s t l, s.seq = .busy l ∧ blockStep s = .next t ∧ t.errcode = .illegalCommand) ∧
    (∃ s t, exec .crcInit s = .next t) ∧ ∃ s t, step s = .next t :=
  ⟨⟨pending { blank with cmd := 4 }, _, _, rfl, rfl, rfl⟩,
    ⟨pending { blank with cmd := 7 }, _, _, rfl, rfl, rfl⟩,
    ⟨pending { blank with cmd := 4 }, _, rfl⟩, ⟨State.reset, _, rfl⟩⟩

/-- `IllegalWordCompletesAsIllegal`: the words of VE1, and idle and busy states. -/
theorem witness_illegal :
    (∀ w ∈ [0x00000000#32, 0x00000007#32, 0x0000000F#32, 0x00000011#32, 0x80000002#32],
      w.toNat % 16 = 0 ∨ 7 ≤ w.toNat % 16 ∨ w.toNat / 16 ≠ 0) ∧
    State.reset.seq = .idle ∧
    ∃ (s : State) (l : Snapshot), s.seq = .busy l ∧ l.cmd = 0x00000011#32 :=
  ⟨(by
      intro w h
      simp only [List.mem_cons, List.not_mem_nil, or_false] at h
      rcases h with rfl | rfl | rfl | rfl | rfl <;> simp), rfl, pending { blank with cmd := 0x11 }, _, rfl, rfl⟩

/-- `FailedCommandWritesNothing`: a failing MAP_BUILD and a failing CRC_UPDATE. -/
theorem witness_failed_command :
    ∀ l ∈ [{ blank with cmd := 1 }, { blank with cmd := 5, dbAddr := 4096, nbytes := 1 }],
      ∃ s t, s.seq = .busy l ∧ blockStep s = .next t ∧ t.errcode ≠ .none ∧
        t.errcode ≠ .busError := by
  intro l hl
  have h : after (blockStep (pending l)) (fun t =>
      decide (t.errcode ≠ .none ∧ t.errcode ≠ .busError)) = true := by
    revert l
    decide
  obtain ⟨t, e, p⟩ := next_of_after h
  exact ⟨pending l, t, rfl, e, of_decide_eq_true p⟩

/-- `PendingCommandCompletes`, its last clause: the data is written. -/
theorem witness_pending_completes :
    (small 3 [] [(0, 0xA5)]).seq = .busy (smallL 3) ∧
      DbWritten (small 3 [] [(0, 0xA5)]) (smallL 3) ∧ (small 3 [] [(0, 0xA5)]).inputs = [] :=
  ⟨rfl, small_written 3 [], rfl⟩

/-- `EveryStepGoesOnAndFaultsAsTheSpec`: each kind of fault is recorded by some step. -/
theorem witness_faults :
    after (step { State.reset with inputs := [.read .byte 0x00000] }) (fun t =>
      t.faults == [.unsupported .byte 0x00000]) = true ∧
    after (step { State.reset with inputs := [.read .half 0x10000] }) (fun t =>
      t.faults == [.dbByteUnwritten 0, .dbByteUnwritten 1]) = true ∧
    after (step { pending { blank with cmd := 2, pbLen := 1 } with inputs := [.memRead 0] })
      (fun t => t.faults == [.bufferOwned 0]) = true := by decide

/-- `StepKeepsInvariant`: a step of a state that meets the invariant. -/
theorem witness_invariant :
    BlockInv (small 3 [] [(0, 0xA5)]) ∧ ∃ t, step (small 3 [] [(0, 0xA5)]) = .next t := by
  obtain ⟨t, e, -⟩ := ended_none (r := step (small 3 [] [(0, 0xA5)])) (by decide)
  exact ⟨small_inv 3 (by decide) (by decide), t, e⟩

end Sys2Proof.Tests
end

section
/-! The register file as the host sees it (spec/10_state.md R22 to R44): at which offset a register
stands, when a read is free, and what a read and a write of each kind of register does. -/

namespace Sys2Proof.Machine

/-! The register map, inverted. -/

theorem regAt_eq_ctrl {n : Nat} : regAt n = .ctrl ↔ n = 0x004 := by
  fun_cases regAt n <;> simp <;> omega

theorem regAt_eq_status {n : Nat} : regAt n = .status ↔ n = 0x008 := by
  fun_cases regAt n <;> simp <;> omega

theorem regAt_eq_reserved {n : Nat} (h4 : n % 4 = 0) (hn : n < 0x10000) : regAt n = .reserved ↔
    0x04C ≤ n ∧ n ≤ 0x0FC ∨ 0x200 ≤ n ∧ n ≤ 0xFFFC := by
  fun_cases regAt n <;> simp <;> omega

theorem regAt_eq_mapAt {n k : Nat} :
    regAt n = .mapAt k ↔ 0x100 ≤ n ∧ n < 0x200 ∧ (n - 0x100) / 4 = k := by
  fun_cases regAt n <;> simp <;> omega

/-- The list of R44 by offset: which registers a command writes as a whole. -/
theorem commandWrites_regAt {i : Instr} {n : Nat} (h4 : n % 4 = 0) :
    commandWrites i (regAt n) = true ↔
      (i = .mapBuild ∧ (n = 0x040 ∨ (0x100 ≤ n ∧ n ≤ 0x1FC))) ∨
      ((i = .crcInit ∨ i = .crcUpdate ∨ i = .crcCompute) ∧ (n = 0x034 ∨ n = 0x038)) := by
  fun_cases regAt n <;> cases i <;> simp [commandWrites] <;> omega

/-- The offset of MAP[k], as it is written in the statements. -/
theorem mapOffset_toNat {k : Nat} (hk : k < 64) :
    (BitVec.ofNat 17 (0x100 + 4 * k)).toNat = 0x100 + 4 * k := by
  rw [BitVec.toNat_ofNat]
  omega

theorem regAt_mapOffset {k : Nat} (hk : k < 64) :
    regAt (BitVec.ofNat 17 (0x100 + 4 * k)).toNat = .mapAt k := by
  rw [mapOffset_toNat hk, regAt_eq_mapAt]
  omega

/-! Reads. -/

/-- The registers that some pending command makes a read of free, in whole or in part (R44). -/
def freeWhileBusy : Reg → Bool
  | .status => true
  | .crcState => true
  | .crcValue => true
  | .mapLen => true
  | .mapAt _ => true
  | _ => false

theorem commandWrites_of_not_free {r : Reg} (h : freeWhileBusy r = false) (i : Instr) :
    commandWrites i r = false ∧ ¬ (i = .mapBuild ∧ r = .status) := by
  cases r <;> cases h <;> cases i <;> simp [commandWrites]

/-- A register access whose register is not free while the state's command is pending. -/
theorem hostRead_current {off : Offset} {s : State} (h1 : off.toNat < 0x10000)
    (h2 : off.toNat % 4 = 0)
    (h : ∀ i, pendingCommand s = some i → commandWrites i (regAt off.toNat) = false ∧
      ¬ (i = .mapBuild ∧ regAt off.toNat = .status)) :
    hostRead .word off s =
      .next { s with replies := .data (regValue (regAt off.toNat) s) :: s.replies } := by
  rw [hostRead_register s h1 h2, readRegister_current h]
  rfl

/-- In every state, a register that no command writes reads its value. -/
theorem hostRead_steady {off : Offset} (s : State) (h1 : off.toNat < 0x10000)
    (h2 : off.toNat % 4 = 0) (h : freeWhileBusy (regAt off.toNat) = false) :
    hostRead .word off s =
      .next { s with replies := .data (regValue (regAt off.toNat) s) :: s.replies } :=
  hostRead_current h1 h2 fun i _ => commandWrites_of_not_free h i

/-- With no command pending every register reads its value. -/
theorem hostRead_idle {off : Offset} {s : State} (h1 : off.toNat < 0x10000)
    (h2 : off.toNat % 4 = 0) (h : isBusy s = false) :
    hostRead .word off s =
      .next { s with replies := .data (regValue (regAt off.toNat) s) :: s.replies } :=
  hostRead_current h1 h2 fun i hi => by
    rw [pendingCommand_idle (isBusy_eq_false.mp h)] at hi
    cases hi

theorem readRegister_written {r : Reg} {i : Instr} {s : State} (hp : pendingCommand s = some i)
    (h : commandWrites i r = true) :
    readRegister r s = answer (.data (Config.freeWord s.draws)) (takeDraw s) := by
  simp [readRegister, hp, h]

theorem readRegister_status_mapBuild {s : State} (hp : pendingCommand s = some .mapBuild) :
    readRegister .status s =
      answer (.data (statusWordWith (Config.freeBit s.draws 0) s)) (takeDraw s) := by
  simp [readRegister, hp, commandWrites]

/-! The fields of CTRL and STATUS (R23, R24). -/

theorem ctrlWord_bit_zero (s : State) : (ctrlWord s).getLsbD 0 = s.ie := by
  rw [ctrlWord, BitVec.getLsbD_append]
  simp

theorem ctrlWord_bit_pos (s : State) {i : Nat} (hi : 1 ≤ i) : (ctrlWord s).getLsbD i = false := by
  rw [ctrlWord, BitVec.getLsbD_append]
  simp [Nat.not_lt.mpr hi]

theorem errFlag_eq_true {s : State} : errFlag s = true ↔ s.errcode ≠ .none := by
  cases h : s.errcode <;> simp [errFlag, h, ErrCode.bits]

/-- The MAP_VALID argument of `statusWordWith` shows in bit 4 only. -/
theorem statusWordWith_getLsbD_ne (mv mv' : Bool) (s : State) {b : Nat} (hb : b ≠ 4) :
    (statusWordWith mv s).getLsbD b = (statusWordWith mv' s).getLsbD b := by
  simp only [statusWordWith, BitVec.getLsbD_append]
  by_cases h : b - 1 - 1 - 1 - 1 < 1
  · have h3 : b - 1 - 1 - 1 < 1 := by omega
    simp only [h3, if_true]
  · simp only [h, if_false]

/-! The operand registers (R26 to R33). -/

/-- The width of an operand register's field; no other register has one. -/
def operandWidth : Reg → Option Nat
  | .maskLo => some 32
  | .maskHi => some 32
  | .stride => some 4
  | .mapWidth => some 7
  | .pbBase => some 32
  | .pbLen => some 32
  | .startPixel => some 32
  | .dbAddr => some 32
  | .nbytes => some 32
  | _ => none

/-- `operandWidth` says of the register at each offset what the list of the statements says. -/
theorem operandRegisters_spec : ∀ p ∈ operandRegisters, p.1.toNat < 0x10000 ∧ p.1.toNat % 4 = 0 ∧
    operandWidth (regAt p.1.toNat) = some p.2 := by decide

theorem regAt_operandRegisters_inj : ∀ p ∈ operandRegisters, ∀ q ∈ operandRegisters,
    regAt q.1.toNat = regAt p.1.toNat → q.1 = p.1 := by decide

section

variable {r : Reg} {n : Nat} (hr : operandWidth r = some n)

include hr

theorem operand_not_free : freeWhileBusy r = false := by
  cases r <;> cases hr <;> rfl

theorem writeRegister_operand_frame (v : Word) (s : State) :
    writeRegister r v s = copyOperands (writeRegister r v s) s := by
  cases r <;> cases hr <;> rfl

/-- A written operand register reads back the bits of its field. -/
theorem regValue_writeRegister_operand (v : Word) (s : State) :
    regValue r (writeRegister r v s) = BitVec.ofNat 32 (v.toNat % 2 ^ n) := by
  apply BitVec.eq_of_toNat_eq
  have hv := v.isLt
  cases r <;> cases hr <;> simp [regValue, writeRegister] <;> omega

theorem regValue_writeRegister_ne {q : Reg} {m : Nat} (hq : operandWidth q = some m) (hne : q ≠ r)
    (v : Word) (s : State) : regValue q (writeRegister r v s) = regValue q s := by
  cases r <;> cases hr <;> cases q <;> cases hq <;> simp [regValue, writeRegister] at hne ⊢

end

/-! CMD (R25). -/

theorem legalWord_encode (i : Instr) : legalWord (encode i) = true := by cases i <;> decide

/-- A pending illegal word completes with ILLEGAL_COMMAND (R93, R183). -/
theorem blockStep_illegal {s : State} {l : Snapshot} (hl : s.seq = .busy l)
    (hw : legalWord l.cmd = false) :
    blockStep s = .next (finish l .illegalCommand l.cmd s) := by
  rcases blockStep_cases s with ⟨hi, -⟩ | ⟨l', i, hl', he, -⟩ | ⟨l', hl', -, e⟩
  · rw [hl] at hi
    cases hi
  · rw [hl] at hl'
    cases hl'
    rw [he, legalWord_encode] at hw
    cases hw
  · rw [hl] at hl'
    cases hl'
    exact e

theorem writeCmd_idle {s : State} (h : s.seq = .idle) (w : Word) : writeCmd w s = issue w s := by
  simp [writeCmd, isBusy_idle h]

theorem writeCmd_busy {s : State} {l : Snapshot} (h : s.seq = .busy l) (w : Word) :
    writeCmd w s = { s with ovr := true } := by
  simp [writeCmd, isBusy_busy h]

/-! CTRL (R23). -/

theorem writeCtrl_softReset {v : Word} (h : v.getLsbD 1 = true) (s : State) :
    writeCtrl v s = softReset s := if_pos h

theorem writeCtrl_ie {v : Word} (h : v.getLsbD 1 = false) (s : State) :
    writeCtrl v s = { s with ie := v.getLsbD 0 } := if_neg (by rw [h]; exact Bool.false_ne_true)

/-- Settles O5: no command writes ID. -/
theorem idRegisterIsConstant : Obligations.IdRegisterIsConstant := by
  intro s v
  exact ⟨hostRead_steady s (by decide) (by decide) rfl,
    hostWrite_register v s (by decide) (by decide), by decide, by decide, by decide, by decide⟩

/-- Settles O6, by SOFT_RESET of the word written. -/
theorem ctrlWriteStoresIeOrResets : Obligations.CtrlWriteStoresIeOrResets := by
  intro s v
  have hw : hostWrite .word 0x004#17 v s = .next (writeCtrl v s) :=
    hostWrite_register v s (by decide) (by decide)
  refine ⟨⟨ctrlWord s, hostRead_steady s (by decide) (by decide) rfl, ctrlWord_bit_zero s,
    fun i hi => ctrlWord_bit_pos s hi⟩, fun hv => ?_, fun hv => ⟨?_, rfl⟩⟩
  · rw [hw, writeCtrl_ie hv]
  · rw [hw, writeCtrl_softReset hv]

/-- Settles O7: outside a MAP_BUILD the read is the current word, whose bits `statusWordWith_bits`
gives; ERRCODE's numbers go code by code. -/
theorem statusRegisterShowsFlags : Obligations.StatusRegisterShowsFlags := by
  intro s v
  refine ⟨fun hp => ?_, hostWrite_register v s (by decide) (by decide)⟩
  obtain ⟨hbusy, hdone, herr, hovr, hvalid, hrsv, hrsv', hcode⟩ := statusWordWith_bits s.mapValid s
  refine ⟨statusWord s, ?_, hbusy, hdone, ?_, hovr, hvalid, hrsv, hrsv', ?_⟩
  · refine hostRead_current (by decide) (by decide) fun i hi => ⟨by cases i <;> rfl, ?_⟩
    rintro ⟨rfl, -⟩
    exact hp hi
  · rw [statusWord, herr, errFlag_eq_true]
  · rw [statusWord, hcode]
    cases s.errcode <;> rfl

/-- Settles O8, by the state of the sequencer. -/
theorem cmdWriteIssuesOrDrops : Obligations.CmdWriteIssuesOrDrops := by
  intro s w
  have hw : hostWrite .word 0x00C#17 w s = .next (writeCmd w s) :=
    hostWrite_register w s (by decide) (by decide)
  refine ⟨hostRead_steady s (by decide) (by decide) rfl, fun hi => ?_, fun l hl => ?_⟩
  · rw [hw, writeCmd_idle hi]
    exact ⟨_, rfl, rfl, fun hill => ⟨_, blockStep_illegal (issue_seq s w) hill, rfl⟩⟩
  · rw [hw, writeCmd_busy hl]

/-- Settles O9, register by register through `operandWidth`. -/
theorem operandRegistersStoreTheirBits : Obligations.OperandRegistersStoreTheirBits := by
  intro p hp s v
  obtain ⟨h1, h2, hwidth⟩ := operandRegisters_spec p hp
  refine ⟨writeRegister (regAt p.1.toNat) v s, hostWrite_register v s h1 h2, ?_, fun q hq hne => ?_,
    writeRegister_operand_frame hwidth v s⟩
  · rw [hostRead_steady _ h1 h2 (operand_not_free hwidth), regValue_writeRegister_operand hwidth]
  · obtain ⟨-, -, hqwidth⟩ := operandRegisters_spec q hq
    exact regValue_writeRegister_ne hwidth hqwidth
      (fun h => hne (regAt_operandRegisters_inj p hp q hq h)) v s

/-- Settles O10: the two ranges are the offsets that name no register. -/
theorem reservedOffsetsReadZero : Obligations.ReservedOffsetsReadZero := by
  intro s off v h4 hrange
  have hlt : off.toNat < 0x10000 := by omega
  have hreg : regAt off.toNat = .reserved := (regAt_eq_reserved h4 hlt).mpr hrange
  have hread := hostRead_steady s hlt h4 (by rw [hreg]; rfl)
  have hwrite := hostWrite_register v s hlt h4
  rw [hreg] at hread hwrite
  exact ⟨hread, hwrite⟩

/-- Settles O11: IDLE, every register reads its value; a read-only register has no write. -/
theorem readOnlyRegistersShowValues : Obligations.ReadOnlyRegistersShowValues := by
  intro s v
  refine ⟨fun hb => ⟨hostRead_idle (by decide) (by decide) hb,
    hostRead_idle (by decide) (by decide) hb,
    ⟨s.mapLen.setWidth 32, ?_, hostRead_idle (by decide) (by decide) hb⟩,
    hostRead_idle (by decide) (by decide) hb, hostRead_idle (by decide) (by decide) hb,
    fun k hk => ⟨BitVec.ofNat 32 (mapEntry s k), ?_, ?_⟩⟩, fun off hoff => ?_, fun k hk => ?_⟩
  · have := s.mapLen.isLt
    simp only [mapK, BitVec.toNat_setWidth]
    omega
  · have := mapEntry_lt s k
    simp only [BitVec.toNat_ofNat]
    omega
  · have hread := hostRead_idle (off := BitVec.ofNat 17 (0x100 + 4 * k)) (s := s)
      (by rw [mapOffset_toNat hk]; omega) (by rw [mapOffset_toNat hk]; omega) hb
    rw [regAt_mapOffset hk] at hread
    exact hread
  · simp only [List.mem_cons, List.not_mem_nil, or_false] at hoff
    rcases hoff with rfl | rfl | rfl | rfl | rfl | rfl <;>
      exact hostWrite_register v s (by decide) (by decide)
  · have hwrite := hostWrite_register (off := BitVec.ofNat 17 (0x100 + 4 * k)) v s
      (by rw [mapOffset_toNat hk]; omega) (by rw [mapOffset_toNat hk]; omega)
    rw [regAt_mapOffset hk] at hwrite
    exact hwrite

/-- Settles O12: no command writes DB_SIZE, and the parameter fits 17 bits. -/
theorem dbSizeRegisterReadsParameter : Obligations.DbSizeRegisterReadsParameter := by
  intro s
  have hpos := dbSize_pos s
  have hle := dbSize_le s
  have hx : (BitVec.ofNat 32 (dbSize s)).toNat = dbSize s := by
    rw [BitVec.toNat_ofNat]
    omega
  refine ⟨BitVec.ofNat 32 (dbSize s), hostRead_steady s (by decide) (by decide) rfl, hx,
    by omega, by omega, fun i hi => ?_⟩
  have hpow : 2 ^ 17 ≤ 2 ^ i := Nat.pow_le_pow_right (by omega) hi
  exact Nat.testBit_lt_two_pow (by omega)

/-- Settles O14: the list of R44 by offset (`commandWrites_regAt`), then STATUS under a MAP_BUILD. -/
theorem busyReadsAreFreeOrCurrent : Obligations.BusyReadsAreFreeOrCurrent := by
  intro s i off hp h4 hlt
  refine ⟨fun hw => ?_, fun hi hoff => ?_, fun hw hs => ?_⟩
  · rw [hostRead_register s hlt h4, readRegister_written hp ((commandWrites_regAt h4).mpr hw)]
    rfl
  · subst hi
    refine ⟨statusWordWith (Config.freeBit s.draws 0) s, ?_,
      fun b hb => statusWordWith_getLsbD_ne _ _ s hb⟩
    rw [hostRead_register s hlt h4, regAt_eq_status.mpr hoff, readRegister_status_mapBuild hp]
    rfl
  · refine hostRead_current hlt h4 fun j hj => ?_
    rw [hp] at hj
    cases hj
    rw [regAt_eq_status, ← Bool.not_eq_true, commandWrites_regAt h4]
    exact ⟨hw, hs⟩

end Sys2Proof.Machine
end

section
/-! What a step can change of the operand registers, the map, CRC_STATE and the model's record
(spec/10_state.md R34, R40, R43, R45, R46, R50). -/

namespace Sys2Proof.Machine

/-! The operand registers, which no completion reads or writes. -/

theorem feedDb_copyOperands (o s : State) (c : Word) (l : Snapshot) : ∃ t,
    feedDb c l s = .next t ∧ feedDb c l (copyOperands o s) = .next (copyOperands o t) := by
  have hsize : dbSize (copyOperands o s) = dbSize s := rfl
  unfold feedDb
  rw [hsize]
  by_cases h : dbSize s < dbEnd l
  · simp only [if_pos h]
    exact ⟨_, rfl, rfl⟩
  · simp only [if_neg h]
    exact ⟨_, rfl, rfl⟩

theorem execMapBuild_copyOperands {s : State} {l : Snapshot} (hl : s.seq = .busy l) (o : State) :
    ∃ t, execMapBuild s = .next t ∧
      execMapBuild (copyOperands o s) = .next (copyOperands o t) := by
  have hl' : (copyOperands o s).seq = .busy l := hl
  simp only [execMapBuild, whenPending_busy hl, whenPending_busy hl']
  by_cases hw : 64 < l.mapWidth.toNat
  · simp only [if_pos hw]
    exact ⟨_, rfl, rfl⟩
  · simp only [if_neg hw]
    cases offsetMapOf l.mask l.mapWidth.toNat <;> exact ⟨_, rfl, rfl⟩

theorem execReadBits_copyOperands {s : State} {l : Snapshot} (hl : s.seq = .busy l) (o : State) :
    ∃ t, execReadBits s = .next t ∧
      execReadBits (copyOperands o s) = .next (copyOperands o t) := by
  have hl' : (copyOperands o s).seq = .busy l := hl
  have hcheck : checkChannel (copyOperands o s) l = checkChannel s l := rfl
  have hfail : failingReads (copyOperands o s) l = failingReads s l := rfl
  simp only [execReadBits, whenPending_busy hl, whenPending_busy hl', hcheck, hfail]
  cases checkChannel s l with
  | error code info => exact ⟨_, rfl, rfl⟩
  | nothing => exact ⟨_, rfl, rfl⟩
  | access => cases failingReads s l <;> exact ⟨_, rfl, rfl⟩

theorem execWriteBits_copyOperands {s : State} {l : Snapshot} (hl : s.seq = .busy l) (o : State) :
    ∃ t, execWriteBits s = .next t ∧
      execWriteBits (copyOperands o s) = .next (copyOperands o t) := by
  have hl' : (copyOperands o s).seq = .busy l := hl
  have hcheck : checkChannel (copyOperands o s) l = checkChannel s l := rfl
  have hfail : failingWrites (copyOperands o s) l = failingWrites s l := rfl
  simp only [execWriteBits, whenPending_busy hl, whenPending_busy hl', hcheck, hfail]
  cases checkChannel s l with
  | error code info => exact ⟨_, rfl, rfl⟩
  | nothing => exact ⟨_, rfl, rfl⟩
  | access => cases failingWrites s l <;> exact ⟨_, rfl, rfl⟩

/-- Every command reads its snapshot only (R45): other operand registers, the same completion. -/
theorem exec_copyOperands {s : State} {l : Snapshot} (hl : s.seq = .busy l) (o : State)
    (i : Instr) :
    ∃ t, exec i s = .next t ∧ exec i (copyOperands o s) = .next (copyOperands o t) := by
  have hl' : (copyOperands o s).seq = .busy l := hl
  cases i with
  | mapBuild => exact execMapBuild_copyOperands hl o
  | readBits => exact execReadBits_copyOperands hl o
  | writeBits => exact execWriteBits_copyOperands hl o
  | crcInit => exact ⟨_, execCrcInit_eq hl, execCrcInit_eq hl'⟩
  | crcUpdate =>
    simp only [exec, execCrcUpdate_eq hl, execCrcUpdate_eq hl']
    exact feedDb_copyOperands o s s.crcState l
  | crcCompute =>
    simp only [exec, execCrcCompute_eq hl, execCrcCompute_eq hl']
    exact feedDb_copyOperands o s crcInitValue l

/-- Settles O13, command by command; an illegal word reads no operand either. -/
theorem pendingCommandIgnoresOperandRegisters :
    Obligations.PendingCommandIgnoresOperandRegisters := by
  intro s o hb
  obtain ⟨l, hl⟩ := isBusy_eq_true.mp hb
  have hl' : (copyOperands o s).seq = .busy l := hl
  simp only [blockStep, hl, hl']
  cases decode l.cmd with
  | ok i => exact exec_copyOperands hl o i
  | error e => exact ⟨_, rfl, rfl⟩

/-- The model's record from `s` to `t`: the same parameters, no draw and no fault taken back. -/
structure RecordGrows (s t : State) : Prop where
  params : t.params = s.params
  draws : s.draws ≤ t.draws
  faults : ∃ new, t.faults = new ++ s.faults

theorem RecordGrows.refl (s : State) : RecordGrows s s := ⟨rfl, Nat.le_refl _, [], rfl⟩

theorem blockStep_recordGrows {s t : State} (h : blockStep s = .next t) : RecordGrows s t := by
  cases hq : s.seq with
  | idle =>
    simp only [blockStep, hq] at h
    cases h
    exact .refl s
  | busy l =>
    obtain ⟨code, info, u, e, hu, hfaults, hdraws⟩ := blockStep_eq_finish hq
    rw [e] at h
    cases h
    refine ⟨by rw [hu]; rfl, hdraws, ?_⟩
    rcases hfaults with hf | ⟨hf, -⟩
    · exact ⟨[], hf⟩
    · exact ⟨_, hf⟩

theorem hostMemRead_recordGrows {s t : State} {a : Word} (h : hostMemRead a s = .next t) :
    RecordGrows s t := by
  unfold hostMemRead at h
  split at h <;> cases h
  · exact ⟨rfl, Nat.le_refl _, [_], rfl⟩
  · exact ⟨rfl, Nat.le_refl _, [], rfl⟩

theorem hostMemWrite_recordGrows {s t : State} {a : Word} {v : Byte}
    (h : hostMemWrite a v s = .next t) : RecordGrows s t := by
  unfold hostMemWrite at h
  split at h <;> cases h
  · exact ⟨rfl, Nat.le_succ _, [_], rfl⟩
  · exact ⟨rfl, Nat.le_refl _, [], rfl⟩

theorem powerOnReset_recordGrows (s : State) : RecordGrows s (powerOnReset s) := by
  obtain ⟨⟨-, hfaults⟩, hdraws⟩ := abortEffect_faults s
  have hparams : (powerOnReset s).params = s.params := by
    rw [powerOnReset, softReset, abortEffect_frame s]
    rfl
  refine ⟨hparams, hdraws, ?_⟩
  rcases hfaults with hf | ⟨l, -, -, hf⟩
  · exact ⟨[], hf⟩
  · exact ⟨_, hf⟩

theorem act_recordGrows {e : Event} {s t : State} (h : act e s = .next t) : RecordGrows s t := by
  cases e with
  | block => exact blockStep_recordGrows h
  | read w off =>
    obtain ⟨r, new, n, e, hn, -⟩ := hostRead_eq s w off
    rw [act, e] at h
    cases h
    exact ⟨rfl, hn, new, rfl⟩
  | write w off v =>
    obtain ⟨u, new, e, hparams, hdraws, hfaults, -⟩ := hostWrite_eq s w off v
    rw [act, e] at h
    cases h
    exact ⟨hparams, hdraws, new, hfaults⟩
  | memRead a => exact hostMemRead_recordGrows h
  | memWrite a v => exact hostMemWrite_recordGrows h
  | powerOn =>
    cases h
    exact powerOnReset_recordGrows s

theorem step_recordGrows {s t : State} (h : step s = .next t) : RecordGrows s t := by
  rcases step_eq s with e | ⟨ev, r, -, -, e⟩ <;> rw [e] at h
  · exact blockStep_recordGrows h
  · obtain ⟨hparams, hdraws, hfaults⟩ := act_recordGrows h
    exact ⟨hparams, hdraws, hfaults⟩

/-- Settles O57: a completion changes only what `exec_eq_finish` names; a step's record grows. -/
theorem commandsLeaveOperands : Obligations.CommandsLeaveOperands := by
  refine ⟨fun s t i h => ?_, fun s t h => ?_⟩
  · cases hq : s.seq with
    | idle =>
      rw [exec_idle hq] at h
      cases h
      exact ⟨rfl, rfl, rfl, rfl, rfl, rfl, Nat.le_refl _⟩
    | busy l =>
      obtain ⟨code, info, u, e, hu, -, hdraws⟩ := exec_eq_finish i hq
      rw [e] at h
      cases h
      refine ⟨?_, ?_, ?_, ?_, ?_, ?_, hdraws⟩ <;> rw [hu] <;> rfl
  · obtain ⟨hparams, hdraws, hfaults⟩ := step_recordGrows h
    exact ⟨hparams, hdraws, hfaults⟩

/-! The map register file and CRC_STATE (R34, R40). -/

/-- The map register file with its length and valid bit is the same in both states. -/
structure SameMap (s t : State) : Prop where
  mapFile : t.mapFile = s.mapFile
  mapLen : t.mapLen = s.mapLen
  mapValid : t.mapValid = s.mapValid

/-- The map and CRC_STATE are the same in both states. -/
structure SameUnits (s t : State) : Prop extends SameMap s t where
  crcState : t.crcState = s.crcState

theorem feedDb_sameMap {c : Word} {l : Snapshot} {s t : State} (h : feedDb c l s = .next t) :
    SameMap s t := by
  rw [feedDb_frame h]
  exact ⟨rfl, rfl, rfl⟩

theorem execReadBits_sameUnits {s t : State} {l : Snapshot} (hl : s.seq = .busy l)
    (h : execReadBits s = .next t) : SameUnits s t := by
  rcases execReadBits_cases hl with ⟨_, _, -, e⟩ | ⟨-, e⟩ | ⟨-, -, e⟩ | ⟨-, _, -, -, e⟩ <;>
    rw [e] at h <;> cases h <;> exact ⟨⟨rfl, rfl, rfl⟩, rfl⟩

theorem execWriteBits_sameUnits {s t : State} {l : Snapshot} (hl : s.seq = .busy l)
    (h : execWriteBits s = .next t) : SameUnits s t := by
  rcases execWriteBits_cases hl with ⟨_, _, -, e⟩ | ⟨-, e⟩ | ⟨-, -, -, e⟩ | ⟨-, _, -, -, e⟩ <;>
    rw [e] at h <;> cases h <;> exact ⟨⟨rfl, rfl, rfl⟩, rfl⟩

/-- Of the commands only MAP_BUILD changes the map. -/
theorem exec_sameMap {i : Instr} {s t : State} {l : Snapshot} (hl : s.seq = .busy l)
    (hi : i ≠ .mapBuild) (h : exec i s = .next t) : SameMap s t := by
  cases i with
  | mapBuild => exact absurd rfl hi
  | readBits => exact (execReadBits_sameUnits hl h).toSameMap
  | writeBits => exact (execWriteBits_sameUnits hl h).toSameMap
  | crcInit =>
    rw [exec, execCrcInit_eq hl] at h
    cases h
    exact ⟨rfl, rfl, rfl⟩
  | crcUpdate => exact feedDb_sameMap ((execCrcUpdate_eq hl).symm.trans h)
  | crcCompute => exact feedDb_sameMap ((execCrcCompute_eq hl).symm.trans h)

/-- The commands of the CRC unit. -/
def isCrcCommand : Instr → Bool
  | .crcInit => true
  | .crcUpdate => true
  | .crcCompute => true
  | _ => false

/-- Of the commands only those of the CRC unit change CRC_STATE. -/
theorem exec_crcState {i : Instr} {s t : State} {l : Snapshot} (hl : s.seq = .busy l)
    (hi : isCrcCommand i = false) (h : exec i s = .next t) : t.crcState = s.crcState := by
  cases i with
  | mapBuild => rw [execMapBuild_frame hl h]
  | readBits => exact (execReadBits_sameUnits hl h).crcState
  | writeBits => exact (execWriteBits_sameUnits hl h).crcState
  | crcInit => cases hi
  | crcUpdate => cases hi
  | crcCompute => cases hi

/-- The block's turn changes the map under a MAP_BUILD and CRC_STATE under a CRC command only. -/
theorem blockStep_units {s t : State} (h : blockStep s = .next t) :
    (SameMap s t ∨ pendingCommand s = some .mapBuild) ∧
    (t.crcState = s.crcState ∨ ∃ i, isCrcCommand i = true ∧ pendingCommand s = some i) := by
  rcases blockStep_cases s with ⟨-, e⟩ | ⟨l, i, hl, hcmd, e⟩ | ⟨l, -, -, e⟩ <;> rw [e] at h
  · cases h
    exact ⟨.inl ⟨rfl, rfl, rfl⟩, .inl rfl⟩
  · have hp : pendingCommand s = some i := pendingCommand_busy hl (decode_eq_ok.mpr hcmd)
    refine ⟨?_, ?_⟩
    · by_cases hi : i = .mapBuild
      · exact .inr (hi ▸ hp)
      · exact .inl (exec_sameMap hl hi h)
    · cases hi : isCrcCommand i with
      | true => exact .inr ⟨i, hi, hp⟩
      | false => exact .inl (exec_crcState hl hi h)
  · cases h
    exact ⟨.inl ⟨rfl, rfl, rfl⟩, .inl rfl⟩

/-- An event that resets the block: power-on, or a CTRL write with SOFT_RESET. -/
def IsReset (e : Event) : Prop :=
  e = .powerOn ∨ ∃ v, e = .write .word 0x004#17 v ∧ v.getLsbD 1 = true

/-- Of the register writes only a soft reset changes the map or CRC_STATE. -/
theorem writeRegister_sameUnits {r : Reg} {v : Word} (h : r = .ctrl → v.getLsbD 1 = false)
    (s : State) : SameUnits s (writeRegister r v s) := by
  cases r with
  | ctrl =>
    rw [writeRegister, writeCtrl_ie (h rfl)]
    exact ⟨⟨rfl, rfl, rfl⟩, rfl⟩
  | cmd =>
    rw [writeRegister, writeCmd]
    split <;> exact ⟨⟨rfl, rfl, rfl⟩, rfl⟩
  | _ => exact ⟨⟨rfl, rfl, rfl⟩, rfl⟩

/-- A host write is rejected, or writes DB, or writes the register at its offset. -/
theorem hostWrite_cases (w : Width) (off : Offset) (v : Word) (s : State) :
    hostWrite w off v s = .next (rejectAccess w off s) ∨
    (∃ d, hostWrite w off v s = .next { s with db := d }) ∨
    (w = .word ∧ hostWrite w off v s = .next (writeRegister (regAt off.toNat) v s)) := by
  unfold hostWrite
  cases hs : supported w off with
  | false => exact .inl rfl
  | true =>
    cases hw : inWindow off with
    | true => exact .inr (.inl ⟨_, rfl⟩)
    | false =>
      simp only [supported, hw, Bool.false_eq_true, if_false, Bool.and_eq_true,
        decide_eq_true_eq] at hs
      exact .inr (.inr ⟨hs.1, rfl⟩)

theorem hostWrite_sameUnits_or_reset {w : Width} {off : Offset} {v : Word} {s t : State}
    (h : hostWrite w off v s = .next t) :
    SameUnits s t ∨ IsReset (.write w off v) := by
  rcases hostWrite_cases w off v s with e | ⟨d, e⟩ | ⟨hw, e⟩ <;> rw [e] at h <;> cases h
  · exact .inl ⟨⟨rfl, rfl, rfl⟩, rfl⟩
  · exact .inl ⟨⟨rfl, rfl, rfl⟩, rfl⟩
  · by_cases hreset : regAt off.toNat = .ctrl ∧ v.getLsbD 1 = true
    · obtain ⟨hctrl, hv⟩ := hreset
      have hoff : off = 0x004#17 := BitVec.eq_of_toNat_eq (regAt_eq_ctrl.mp hctrl)
      exact .inr (.inr ⟨v, by rw [hw, hoff], hv⟩)
    · exact .inl (writeRegister_sameUnits (fun hctrl => by simpa [hctrl] using hreset) s)

theorem hostMemRead_sameUnits {s t : State} {a : Word} (h : hostMemRead a s = .next t) :
    SameUnits s t := by
  unfold hostMemRead at h
  split at h <;> cases h <;> exact ⟨⟨rfl, rfl, rfl⟩, rfl⟩

theorem hostMemWrite_sameUnits {s t : State} {a : Word} {v : Byte}
    (h : hostMemWrite a v s = .next t) : SameUnits s t := by
  unfold hostMemWrite at h
  split at h <;> cases h <;> exact ⟨⟨rfl, rfl, rfl⟩, rfl⟩

/-- Of the acts outside the block only a reset changes the map or CRC_STATE. -/
theorem act_sameUnits_or_reset {e : Event} {s t : State} (he : e ≠ .block) (h : act e s = .next t) :
    SameUnits s t ∨ IsReset e := by
  cases e with
  | block => exact absurd rfl he
  | read w off =>
    obtain ⟨r, new, n, e, -⟩ := hostRead_eq s w off
    rw [act, e] at h
    cases h
    exact .inl ⟨⟨rfl, rfl, rfl⟩, rfl⟩
  | write w off v => exact hostWrite_sameUnits_or_reset h
  | memRead a => exact .inl (hostMemRead_sameUnits h)
  | memWrite a v => exact .inl (hostMemWrite_sameUnits h)
  | powerOn => exact .inr (.inl rfl)

/-- One step is a turn of the block on `s`, the act at the head of its inputs popped or not, or
another act. -/
theorem step_block_or_act (s : State) :
    step s = blockStep s ∨ step s = blockStep (popInput s) ∨
    ∃ e r, s.inputs = e :: r ∧ e ≠ .block ∧ step s = act e (popInput s) := by
  rcases step_eq s with e | ⟨ev, r, hin, -, e⟩
  · exact .inl e
  · by_cases hev : ev = .block
    · subst hev
      exact .inr (.inl e)
    · exact .inr (.inr ⟨ev, r, hin, hev, e⟩)

/-- A step changes the map under a MAP_BUILD, CRC_STATE under a CRC command, or either by a reset. -/
theorem step_units {s t : State} (h : step s = .next t) :
    ((SameMap s t ∨ pendingCommand s = some .mapBuild) ∧
      (t.crcState = s.crcState ∨ ∃ i, isCrcCommand i = true ∧ pendingCommand s = some i)) ∨
    ∃ e r, s.inputs = e :: r ∧ IsReset e := by
  rcases step_block_or_act s with e | e | ⟨ev, r, hin, hev, e⟩ <;> rw [e] at h
  · exact .inl (blockStep_units h)
  · obtain ⟨hmap, hcrc⟩ := blockStep_units h
    exact .inl ⟨hmap.imp_left fun hm => ⟨hm.mapFile, hm.mapLen, hm.mapValid⟩, hcrc⟩
  · rcases act_sameUnits_or_reset hev h with hu | hreset
    · exact .inl ⟨.inl ⟨hu.mapFile, hu.mapLen, hu.mapValid⟩, .inl hu.crcState⟩
    · exact .inr ⟨ev, r, hin, hreset⟩

/-- Settles O30, by `step_units`. -/
theorem mapAndCrcChangeOnlyByTheirCommands : Obligations.MapAndCrcChangeOnlyByTheirCommands := by
  intro s t h reset
  rcases step_units h with ⟨hmap, hcrc⟩ | ⟨e, r, hin, he⟩
  · refine ⟨fun hne => ?_, fun hne => ?_⟩
    · rcases hmap with ⟨hfile, hlen, hvalid⟩ | hp
      · simp [hfile, hlen, hvalid] at hne
      · exact .inl hp
    · rcases hcrc with heq | ⟨i, hi, hp⟩
      · exact absurd heq hne
      · cases i with
        | crcInit => exact .inl hp
        | crcUpdate => exact .inr (.inl hp)
        | crcCompute => exact .inr (.inr (.inl hp))
        | _ => cases hi
  · have hreset : reset := by
      rcases he with rfl | ⟨v, rfl, hv⟩
      · exact .inl ⟨r, hin⟩
      · exact .inr ⟨v, r, hin, hv⟩
    exact ⟨fun _ => .inr hreset, fun _ => .inr (.inr (.inr hreset))⟩

/-! Reset (R50). -/

/-- Settles O16, field by field. -/
theorem resetMatchesStateTable : Obligations.ResetMatchesStateTable :=
  ⟨rfl, rfl, rfl, rfl, rfl, rfl, rfl, rfl, rfl, rfl, rfl, rfl, rfl, rfl, rfl, rfl, rfl,
    by decide, rfl, (mapOk_reset.1 rfl).2, rfl, rfl, fun _ => rfl, rfl⟩

/-- Settles O59: empty memories, a cleared map, IDLE and no error. -/
theorem resetMeetsInvariant : Obligations.ResetMeetsInvariant where
  mem := Memory.wf_nil _ _
  db := Memory.wf_nil _ _
  map := mapOk_reset
  busy := fun h => by cases h
  error := ⟨rfl, .inl rfl⟩

end Sys2Proof.Machine
end

section
/-! Memory as the host sees it (spec/20_memory.md R60 to R78): canonical memories, the lanes of the DB
window, which accesses are supported or owned, and the faults a step records. -/

namespace Sys2Proof.Machine

/-! Canonical memories (R64). -/

theorem Memory.mem_iff_lookup {m : Memory} (hm : m.Pairwise fun c d => c.1 < d.1) {c : Host.Cell} :
    c ∈ m ↔ Memory.lookup m c.1 = some c.2 :=
  ⟨Memory.lookup_of_mem hm, Memory.mem_of_lookup⟩

/-- A sorted memory is determined by what it lists at each address. -/
theorem Memory.ext_lookup {m n : Memory} (hm : m.Pairwise fun c d => c.1 < d.1)
    (hn : n.Pairwise fun c d => c.1 < d.1) (h : ∀ a, Memory.lookup m a = Memory.lookup n a) :
    m = n := by
  have : Std.Irrefl fun c d : Host.Cell => c.1 < d.1 := ⟨fun c => Nat.lt_irrefl c.1⟩
  have : Std.Antisymm fun c d : Host.Cell => c.1 < d.1 :=
    ⟨fun _ _ hcd hdc => absurd hcd (Nat.lt_asymm hdc)⟩
  exact hm.eq_of_mem_iff hn fun c => by
    rw [Memory.mem_iff_lookup hm, Memory.mem_iff_lookup hn, h]

/-- In a canonical system memory an address is listed exactly when it does not read 0. -/
theorem lookup_eq_sysRead {m : Memory} (hm : Memory.wf (some sysUnlisted) sysSize m) (a : Nat) :
    Memory.lookup m a = if sysRead m a = sysUnlisted then none else some (sysRead m a) := by
  cases h : Memory.lookup m a with
  | none => simp [sysRead, h]
  | some v =>
    have hv : v ≠ sysUnlisted := fun e => (hm.2 _ (Memory.mem_of_lookup h)).2 (congrArg some e)
    simp [sysRead, h, hv]

theorem sysMemory_ext {m n : Memory} (hm : Memory.wf (some sysUnlisted) sysSize m)
    (hn : Memory.wf (some sysUnlisted) sysSize n) (h : ∀ a, sysRead m a = sysRead n a) : m = n :=
  Memory.ext_lookup hm.1 hn.1 fun a => by rw [lookup_eq_sysRead hm, lookup_eq_sysRead hn, h]

/-- What a byte of system memory reads after a store. -/
theorem sysRead_sysWrite {m : Memory} {a : Nat} {v : Byte} (hm : m.Pairwise fun c d => c.1 < d.1)
    (k : Nat) : sysRead (sysWrite m a v) k = if k = a then v else sysRead m k := by
  by_cases hk : k = a
  · rw [if_pos hk, hk, sysRead_sysWrite_self hm]
  · rw [if_neg hk, sysRead_sysWrite_ne hk]

theorem sysWrite_sysWrite {m : Memory} {a : Nat} (hm : Memory.wf (some sysUnlisted) sysSize m)
    (ha : a < sysSize) (v w : Byte) : sysWrite (sysWrite m a v) a w = sysWrite m a w := by
  have hv := wf_sysWrite (v := v) hm ha
  refine sysMemory_ext (wf_sysWrite hv ha) (wf_sysWrite hm ha) fun k => ?_
  rw [sysRead_sysWrite hv.1, sysRead_sysWrite hm.1, sysRead_sysWrite hm.1]
  by_cases hk : k = a <;> simp [hk]

theorem sysWrite_sysRead {m : Memory} {a : Nat} (hm : Memory.wf (some sysUnlisted) sysSize m)
    (ha : a < sysSize) : sysWrite m a (sysRead m a) = m := by
  refine sysMemory_ext (wf_sysWrite hm ha) hm fun k => ?_
  rw [sysRead_sysWrite hm.1]
  by_cases hk : k = a <;> simp [hk]

/-- Settles O24: a canonical memory is determined by its reads, and the laws of the store follow. -/
theorem equalReadsMakeEqualMemories : Obligations.EqualReadsMakeEqualMemories :=
  ⟨fun _ _ hm hn h => sysMemory_ext hm hn h, fun _ _ _ hm hn h => Memory.ext_lookup hm.1 hn.1 h,
    fun _ _ v w hm ha =>
      ⟨sysRead_sysWrite_self hm.1, sysWrite_sysWrite hm ha v w, sysWrite_sysRead hm ha⟩⟩

/-! Supported accesses (R66, R67). -/

theorem widthBytes_le (w : Width) : w.bytes ≤ 4 := by cases w <;> decide

theorem inWindow_eq_true {off : Offset} : inWindow off = true ↔ 0x10000 ≤ off.toNat :=
  decide_eq_true_iff

/-- The accesses the block does not support: in the register space all but aligned words, in the
window the misaligned ones. -/
theorem supported_eq_false {w : Width} {off : Offset} : supported w off = false ↔
    off.toNat < 0x10000 ∧ (w ≠ .word ∨ off.toNat % 4 ≠ 0) ∨
      0x10000 ≤ off.toNat ∧ off.toNat % w.bytes ≠ 0 := by
  unfold supported
  by_cases hw : inWindow off = true
  · have h := inWindow_eq_true.mp hw
    simp [hw, h, Nat.not_lt.mpr h]
  · have h : off.toNat < 0x10000 := Nat.lt_of_not_le (mt inWindow_eq_true.mpr hw)
    simp only [if_neg hw, Bool.and_eq_false_iff, decide_eq_false_iff_not, h, Nat.not_le.mpr h,
      true_and, false_and, or_false, ne_eq]

theorem hostRead_unsupported {w : Width} {off : Offset} (s : State) (h : supported w off = false) :
    hostRead w off s = .next (rejectAccess w off s) := if_pos h

theorem hostWrite_unsupported {w : Width} {off : Offset} (v : Word) (s : State)
    (h : supported w off = false) : hostWrite w off v s = .next (rejectAccess w off s) := if_pos h

/-- Settles O21: both kinds of access are rejected. -/
theorem unsupportedAccessHasNoEffect : Obligations.UnsupportedAccessHasNoEffect := fun s _ _ v h =>
  have hs := supported_eq_false.mpr h
  ⟨hostRead_unsupported s hs, hostWrite_unsupported v s hs⟩

/-- Settles O22, by `hostRead_eq`. -/
theorem hostReadsHaveNoSideEffect : Obligations.HostReadsHaveNoSideEffect := by
  intro s w off
  obtain ⟨r, new, n, e, -⟩ := hostRead_eq s w off
  exact ⟨_, r, new, e, rfl⟩

/-! The lanes of the DB window (R61, R62). -/

/-- What DB reads after a window write: the lane below DB_SIZE and inside the width, else as before. -/
theorem dbRead_windowWrite (s : State) (k n : Nat) (v : Word) (x : Nat) :
    dbRead (windowWrite s k n v) x =
      if k ≤ x ∧ x < k + n ∧ x < dbSize s then some (v.extractLsb' (8 * (x - k)) 8)
      else dbRead s.db x := by
  rw [windowWrite, dbRead_dbFill]
  exact if_congr (by omega) rfl rfl

/-- Settles O19, by what DB reads after a window write. -/
theorem windowWriteLanesAreLittleEndian : Obligations.WindowWriteLanesAreLittleEndian :=
  fun s _ _ v hoff halign =>
    ⟨_, hostWrite_window v s hoff halign, rfl, dbRead_windowWrite s _ _ v⟩

theorem windowByte_of_some {s : State} {k : Nat} {b : Byte} (hk : k < dbSize s)
    (hb : dbRead s.db k = some b) : windowByte s k = b := by
  rw [windowByte, if_pos hk, dbByte_of_some hb]

theorem windowByte_past {s : State} {k : Nat} (hk : dbSize s ≤ k) : windowByte s k = 0 :=
  if_neg (Nat.not_lt.mpr hk)

theorem windowRead_lt (s : State) (k n : Nat) : windowRead s k n < 2 ^ (8 * n) := by
  induction n generalizing k with
  | zero => exact Nat.one_pos
  | succ n ih =>
    have hbyte := (windowByte s k).isLt
    have hrest := ih (k + 1)
    rw [windowRead, Nat.mul_succ, Nat.pow_add]
    omega

/-- Lane `i` of a window read is the byte at index `k + i`. -/
theorem windowRead_lane (s : State) {k n i : Nat} (hi : i < n) :
    (windowRead s k n >>> (8 * i)) % 2 ^ 8 = (windowByte s (k + i)).toNat := by
  induction n generalizing k i with
  | zero => omega
  | succ n ih =>
    have hbyte := (windowByte s k).isLt
    rw [windowRead]
    cases i with
    | zero =>
      simp only [Nat.mul_zero, Nat.shiftRight_zero, Nat.add_zero]
      omega
    | succ i =>
      have hshift : ((windowByte s k).toNat + 256 * windowRead s (k + 1) n) >>> 8 =
          windowRead s (k + 1) n := by
        rw [Nat.shiftRight_eq_div_pow]
        omega
      rw [Nat.mul_succ, Nat.add_comm (8 * i), Nat.shiftRight_add, hshift, ih (by omega),
        Nat.add_right_comm, Nat.add_assoc]

theorem windowRead_lt_word (s : State) (k : Nat) (w : Width) :
    windowRead s k w.bytes < 2 ^ 32 :=
  Nat.lt_of_lt_of_le (windowRead_lt s k w.bytes)
    (Nat.pow_le_pow_right (by decide) (Nat.mul_le_mul_left 8 (widthBytes_le w)))

/-- The word a window read answers is wide enough for its lanes. -/
theorem windowRead_toNat (s : State) (k : Nat) (w : Width) :
    (BitVec.ofNat 32 (windowRead s k w.bytes)).toNat = windowRead s k w.bytes := by
  rw [BitVec.toNat_ofNat, Nat.mod_eq_of_lt (windowRead_lt_word s k w)]

theorem windowRead_extractLsb' (s : State) {k i : Nat} {w : Width} (hi : i < w.bytes) :
    (BitVec.ofNat 32 (windowRead s k w.bytes)).extractLsb' (8 * i) 8 = windowByte s (k + i) := by
  apply BitVec.eq_of_toNat_eq
  rw [BitVec.extractLsb'_toNat, windowRead_toNat, windowRead_lane s hi]

/-- Settles O20: the lanes are `windowByte`s, and the faults those of `noteReads`. -/
theorem windowReadLanesAreLittleEndian : Obligations.WindowReadLanesAreLittleEndian := by
  intro s w off hoff halign k
  refine ⟨_, _, hostRead_window s hoff halign, rfl, fun i b hi hk hb => ?_, fun i hi hk => ?_, ?_,
    RecordsReads.of_faults rfl, fun hwritten => ?_⟩
  · rw [windowRead_extractLsb' s hi]
    exact windowByte_of_some hk hb
  · rw [windowRead_extractLsb' s hi]
    exact windowByte_past hk
  · rw [windowRead_toNat]
    exact windowRead_lt s _ _
  · have hnote : noteReads k (min w.bytes (dbSize s - k)) s = s :=
      noteReads_written fun t ht => hwritten t (by omega) (by omega)
    exact congrArg (answer _) hnote

/-! The hold of a window access (R77, R78). -/

/-- With an access to the window at the head, a busy block has the turn. -/
theorem step_held {s : State} {e : Event} {r : List Event} (hb : isBusy s = true)
    (hin : s.inputs = e :: r) (he : touchesWindow e = true) : step s = blockStep s := by
  simp [step, turn, hin, he, hb]

/-- An idle block leaves the turn to the act at the head. -/
theorem step_idle {s : State} {e : Event} {r : List Event} (hb : isBusy s = false)
    (hin : s.inputs = e :: r) : step s = act e { s with inputs := r } := by
  simp [step, turn, popInput, hin, hb]

/-- Settles O4: the completion leaves the block IDLE and the acts to come as they are. -/
theorem dbAccessHeldUntilCompletion : Obligations.DbAccessHeldUntilCompletion := by
  intro s t e r hb hin he ht
  rw [step_held hb hin he] at ht
  obtain ⟨l, hl⟩ := isBusy_eq_true.mp hb
  obtain ⟨code, info, u, htu, hu⟩ := blockStep_next_finish hl ht
  have hidle : isBusy t = false := by rw [htu]; rfl
  have hinputs : t.inputs = e :: r := by rw [htu, finish_inputs, hu, hin]
  exact ⟨ht, hidle, hinputs, step_idle hidle hinputs⟩

/-! Ownership of the pixel buffer (R74). -/

theorem hostMemRead_owned {s : State} {a : Word} (h : ownsAddress s a.toNat = true) :
    hostMemRead a s = .next { s with
      replies := .noValue :: s.replies, faults := .bufferOwned a :: s.faults } := if_pos h

theorem hostMemRead_free {s : State} {a : Word} (h : ownsAddress s a.toNat = false) :
    hostMemRead a s = .next { s with
      replies := .data ((sysRead s.mem a.toNat).setWidth 32) :: s.replies } :=
  if_neg (ne_true_of_eq_false h)

theorem hostMemWrite_owned {s : State} {a : Word} (v : Byte) (h : ownsAddress s a.toNat = true) :
    hostMemWrite a v s = .next { s with
      mem := sysWrite s.mem a.toNat (Config.freeByte s.draws 0)
      faults := .bufferOwned a :: s.faults
      draws := s.draws + 1 } := if_pos h

theorem hostMemWrite_free {s : State} {a : Word} (v : Byte) (h : ownsAddress s a.toNat = false) :
    hostMemWrite a v s = .next { s with mem := sysWrite s.mem a.toNat v } :=
  if_neg (ne_true_of_eq_false h)

/-- Settles O23, by whether the block owns the address. -/
theorem ownedBufferAccessFaults : Obligations.OwnedBufferAccessFaults := by
  intro s a v
  refine ⟨fun l hl hp hlo hhi => ?_, fun hfree => ?_⟩
  · have howned := ownsAddress_eq_true.mpr ⟨l, hl, hp, hlo, hhi⟩
    exact ⟨hostMemRead_owned howned, _, hostMemWrite_owned v howned, rfl,
      fun x hx => sysRead_sysWrite_ne hx⟩
  · have hunowned : ownsAddress s a.toNat = false := by
      refine eq_false_of_ne_true fun howned => ?_
      obtain ⟨l, hl, hp, hrange⟩ := ownsAddress_eq_true.mp howned
      rcases hfree with ⟨hread, hwrite⟩ | ⟨l', hl', hout⟩
      · exact hp.elim hread hwrite
      · cases hl.symm.trans hl'
        exact hout hrange
    exact ⟨hostMemRead_free hunowned, _, hostMemWrite_free v hunowned, rfl,
      fun x hx => sysRead_sysWrite_ne hx, fun hm => sysRead_sysWrite_self hm.1⟩

/-! The frames of the bit channel (R72). -/

/-- A fill of part of a range keeps every byte outside the range. -/
theorem dbRead_dbFill_outside {d : Memory} {start n len k : Nat} {f : Nat → Byte} (hn : n ≤ len)
    (hk : ¬ (start ≤ k ∧ k < start + len)) : dbRead (dbFill d start n f) k = dbRead d k := by
  rw [dbRead_dbFill, if_neg (by omega)]

/-- Settles O35, by the four ways a READ_BITS can end; both that change DB fill its output range. -/
theorem readBitsFrame : Obligations.ReadBitsFrame := by
  intro s t l hl ht
  rcases execReadBits_cases hl with ⟨_, _, -, e⟩ | ⟨-, e⟩ | ⟨-, -, e⟩ | ⟨-, _, -, -, e⟩ <;>
    cases e.symm.trans ht
  · exact ⟨rfl, fun _ _ => rfl, fun _ => rfl⟩
  · exact ⟨rfl, fun _ _ => rfl, fun _ => rfl⟩
  · exact ⟨rfl, fun _ hk => dbRead_dbFill_outside (Nat.le_refl _) hk, fun _ => rfl⟩
  · exact ⟨rfl, fun _ hk => dbRead_dbFill_outside (Nat.min_le_left ..) hk, fun _ => rfl⟩

/-- Settles O38, by the four ways a WRITE_BITS can end; both that change memory are a write loop. -/
theorem writeBitsFrame : Obligations.WriteBitsFrame := by
  intro s t l hl ht
  rcases execWriteBits_cases hl with ⟨_, _, -, e⟩ | ⟨-, e⟩ | ⟨-, -, -, e⟩ | ⟨-, _, -, -, e⟩ <;>
    cases e.symm.trans ht
  · exact ⟨rfl, .inl rfl, fun _ => rfl, fun _ _ => rfl⟩
  · exact ⟨rfl, .inl rfl, fun _ => rfl, fun _ _ => rfl⟩
  · exact ⟨rfl, .inr (RecordsReads.of_faults rfl), fun _ => rfl,
      fun _ ha => sysRead_writeStream_other ha⟩
  · exact ⟨rfl, .inr (RecordsReads.of_faults rfl), fun _ => rfl,
      fun _ ha => sysRead_writeStream_other ha⟩

/-! The faults a step records (R66, R67, R74, spec/70_reset_and_hazards.md R212). -/

/-- The faults that the act `e` may record in the state `s`. -/
inductive ActFault (s : State) : Event → Fault → Prop where
  | read {w off} (h : supported w off = false) : ActFault s (.read w off) (.unsupported w off)
  | write {w off} (v : Word) (h : supported w off = false) :
      ActFault s (.write w off v) (.unsupported w off)
  | unwritten {e k} (hk : k < dbSize s) (h : dbRead s.db k = none) :
      ActFault s e (.dbByteUnwritten k)
  | memRead {a} (h : ownsAddress s a.toNat = true) : ActFault s (.memRead a) (.bufferOwned a)
  | memWrite {a} (v : Byte) (h : ownsAddress s a.toNat = true) :
      ActFault s (.memWrite a v) (.bufferOwned a)

/-- The result `r` of a step from `s` goes on and records faults of the act `e` only. -/
def GoesOn (s : State) (e : Event) (r : Result) : Prop :=
  ∃ t new, r = .next t ∧ t.faults = new ++ s.faults ∧ ∀ f ∈ new, ActFault s e f

theorem GoesOn.of_same {s t : State} (e : Event) (h : t.faults = s.faults) :
    GoesOn s e (.next t) := ⟨t, [], rfl, h, by simp⟩

/-- Reading DB bytes inside `DB_SIZE` records faults of unwritten bytes. -/
theorem GoesOn.of_reads {s t : State} {start len : Nat} (e : Event)
    (h : t.faults = (unwritten s.db start len).map .dbByteUnwritten ++ s.faults)
    (hlen : start + len ≤ dbSize s) : GoesOn s e (.next t) := by
  refine ⟨t, _, rfl, h, fun f hf => ?_⟩
  obtain ⟨k, hk, rfl⟩ := List.mem_map.mp hf
  obtain ⟨-, hlt, hnone⟩ := mem_unwritten.mp hk
  exact .unwritten (by omega) hnone

theorem blockStep_goesOn (s : State) (e : Event) : GoesOn s e (blockStep s) := by
  cases hq : s.seq with
  | idle =>
    have h : blockStep s = .next s := by simp only [blockStep, hq]
    rw [h]
    exact .of_same e rfl
  | busy l =>
    obtain ⟨code, info, u, h, -, hfaults, -⟩ := blockStep_eq_finish hq
    rw [h]
    rcases hfaults with hf | ⟨hf, hlen⟩
    · exact .of_same e hf
    · exact .of_reads e hf hlen

theorem powerOnReset_goesOn (s : State) : GoesOn s .powerOn (.next (powerOnReset s)) := by
  obtain ⟨⟨-, hf | ⟨l, -, hready, hf⟩⟩, -⟩ := abortEffect_faults s
  · exact .of_same _ hf
  · exact .of_reads _ hf hready.dbFits

theorem hostMemRead_goesOn (s : State) (a : Word) : GoesOn s (.memRead a) (hostMemRead a s) := by
  cases h : ownsAddress s a.toNat with
  | true => exact ⟨_, [_], hostMemRead_owned h, rfl, by simpa using .memRead h⟩
  | false => exact hostMemRead_free h ▸ .of_same _ rfl

theorem hostMemWrite_goesOn (s : State) (a : Word) (v : Byte) :
    GoesOn s (.memWrite a v) (hostMemWrite a v s) := by
  cases h : ownsAddress s a.toNat with
  | true => exact ⟨_, [_], hostMemWrite_owned v h, rfl, by simpa using .memWrite v h⟩
  | false => exact hostMemWrite_free v h ▸ .of_same _ rfl

theorem act_goesOn (e : Event) (s : State) : GoesOn s e (act e s) := by
  cases e with
  | block => exact blockStep_goesOn s .block
  | read w off =>
    obtain ⟨r, new, n, h, -, hnew⟩ := hostRead_eq s w off
    refine ⟨_, new, h, rfl, fun f hf => ?_⟩
    rcases hnew f hf with ⟨rfl, hs⟩ | ⟨k, rfl, hk, hnone⟩
    · exact .read hs
    · exact .unwritten hk hnone
  | write w off v =>
    obtain ⟨t, new, h, -, -, hfaults, hnew⟩ := hostWrite_eq s w off v
    refine ⟨t, new, h, hfaults, fun f hf => ?_⟩
    rcases hnew f hf with ⟨rfl, hs⟩ | ⟨k, rfl, hk, hnone⟩
    · exact .write v hs
    · exact .unwritten hk hnone
  | memRead a => exact hostMemRead_goesOn s a
  | memWrite a v => exact hostMemWrite_goesOn s a v
  | powerOn => exact powerOnReset_goesOn s

/-- The event taken from the head of the inputs decides nothing about the faults. -/
theorem GoesOn.of_popInput {s : State} {e : Event} {r : Result} (h : GoesOn (popInput s) e r) :
    GoesOn s e r := by
  obtain ⟨t, new, hr, hfaults, hnew⟩ := h
  refine ⟨t, new, hr, hfaults, fun f hf => ?_⟩
  cases hnew f hf with
  | read hs => exact .read hs
  | write v hs => exact .write v hs
  | unwritten hk hnone => exact .unwritten hk hnone
  | memRead howned => exact .memRead howned
  | memWrite v howned => exact .memWrite v howned

/-- A step is the block's turn or the act at the head of the inputs. -/
theorem step_goesOn (s : State) :
    ∃ e, (e ≠ .block → ∃ r, s.inputs = e :: r) ∧ GoesOn s e (step s) := by
  rcases step_eq s with h | ⟨e, r, hin, -, h⟩ <;> rw [h]
  · exact ⟨.block, fun hne => absurd rfl hne, blockStep_goesOn s .block⟩
  · exact ⟨e, fun _ => ⟨r, hin⟩, (act_goesOn e (popInput s)).of_popInput⟩

/-- Settles O58, by the kind of fault: each names the act at the head of the inputs or a DB byte. -/
theorem everyStepGoesOnAndFaultsAsTheSpec : Obligations.EveryStepGoesOnAndFaultsAsTheSpec := by
  intro s
  obtain ⟨e, hhead, t, new, hstep, hfaults, hnew⟩ := step_goesOn s
  refine ⟨t, new, hstep, hfaults, fun f hf => ?_⟩
  cases hnew f hf with
  | read hs => exact .inl ⟨_, _, rfl, .inl (hhead nofun), supported_eq_false.mp hs⟩
  | write v hs => exact .inl ⟨_, _, rfl, .inr ⟨v, hhead nofun⟩, supported_eq_false.mp hs⟩
  | unwritten hk hnone => exact .inr (.inl ⟨_, rfl, hk, hnone⟩)
  | memRead howned =>
    obtain ⟨l, hl, hp, hrange⟩ := ownsAddress_eq_true.mp howned
    exact .inr (.inr ⟨_, l, rfl, hl, .inl (hhead nofun), hp, hrange⟩)
  | memWrite v howned =>
    obtain ⟨l, hl, hp, hrange⟩ := ownsAddress_eq_true.mp howned
    exact .inr (.inr ⟨_, l, rfl, hl, .inr ⟨v, hhead nofun⟩, hp, hrange⟩)

end Sys2Proof.Machine
end

section
/-! The command word (spec/30_encoding.md R90 to R95): the legal words, the decoder that takes exactly
these, and the course of an illegal word. -/

namespace Sys2Proof.Machine

/-! Legality (R93), stated apart from the decoder's fields. -/

/-- The legal words are the values 1 to 6. -/
theorem legalWord_eq_true {w : Word} : legalWord w = true ↔ 1 ≤ w.toNat ∧ w.toNat ≤ 6 := by
  simp only [legalWord, reservedBitsClear, opNotZero, opAssigned, Bool.and_eq_true,
    decide_eq_true_eq]
  omega

/-- An illegal word has OP 0, an unassigned OP or a reserved bit set. -/
theorem legalWord_eq_false {w : Word} : legalWord w = false ↔
    w.toNat % 16 = 0 ∨ 7 ≤ w.toNat % 16 ∨ w.toNat / 16 ≠ 0 := by
  rw [← Bool.not_eq_true, legalWord_eq_true]
  omega

/-- The legal words are those of the table (R92). -/
theorem legalWord_iff_encode {w : Word} : legalWord w = true ↔ ∃ i, encode i = w := by
  constructor
  · intro hw
    obtain ⟨hpos, hle⟩ := legalWord_eq_true.mp hw
    have hvalue : w.toNat = 1 ∨ w.toNat = 2 ∨ w.toNat = 3 ∨ w.toNat = 4 ∨ w.toNat = 5 ∨
        w.toNat = 6 := by omega
    rcases hvalue with h | h | h | h | h | h
    · exact ⟨.mapBuild, BitVec.eq_of_toNat_eq h.symm⟩
    · exact ⟨.readBits, BitVec.eq_of_toNat_eq h.symm⟩
    · exact ⟨.writeBits, BitVec.eq_of_toNat_eq h.symm⟩
    · exact ⟨.crcInit, BitVec.eq_of_toNat_eq h.symm⟩
    · exact ⟨.crcUpdate, BitVec.eq_of_toNat_eq h.symm⟩
    · exact ⟨.crcCompute, BitVec.eq_of_toNat_eq h.symm⟩
  · rintro ⟨i, rfl⟩
    exact legalWord_encode i

/-! The decoder (R92, R93, R94). -/

theorem decode_of_illegal {w : Word} (hw : legalWord w = false) : ∃ e, decode w = .error e := by
  cases hd : decode w with
  | error e => exact ⟨e, rfl⟩
  | ok i =>
    rw [decode_eq_ok.mp hd, legalWord_encode] at hw
    cases hw

/-- On a 32-bit value the table's decoder is `decode`. -/
theorem decodeTableWord_toNat (w : Word) :
    decodeTableWord 32 w.toNat = (decode w).toOption := by
  rw [decodeTableWord, Nat.mod_eq_of_lt w.isLt, if_pos w.isLt, BitVec.ofNat_toNat,
    BitVec.setWidth_eq]
  cases decode w <;> rfl

/-- Settles O2: a legal word is an instruction's, and `decode_encode` reads it back; no other word
decodes, since every word that does is legal. -/
theorem decoderAcceptsExactlyLegalWords : Obligations.DecoderAcceptsExactlyLegalWords := by
  refine ⟨fun i _ => ⟨legalWord_encode i, decode_encode i⟩, fun w => ⟨fun hw => ?_, fun hw => ?_⟩⟩
  · obtain ⟨i, rfl⟩ := legalWord_iff_encode.mp hw
    refine ⟨i, decode_encode i, rfl, ?_⟩
    rw [decodeTableWord_toNat, decode_encode]
    rfl
  · obtain ⟨e, he⟩ := decode_of_illegal hw
    refine ⟨⟨e, he⟩, ?_⟩
    rw [decodeTableWord_toNat, he]
    rfl

/-- Settles O1: the three legal words are encodings; each illegal one fails its own check of R93. -/
theorem commandWordsDecodeAsTabulated : Obligations.CommandWordsDecodeAsTabulated :=
  ⟨decode_encode .mapBuild, decode_encode .writeBits, decode_encode .crcUpdate, by decide,
    by decide⟩

/-- Settles O54: the write to CMD issues any word, and the block's turn finds it illegal. -/
theorem illegalWordCompletesAsIllegal : Obligations.IllegalWordCompletesAsIllegal := by
  intro w hw
  refine ⟨fun s hidle => ?_, fun s l hl hcmd => ?_⟩
  · have hissue : hostWrite .word 0x00C#17 w s = .next (issue w s) := by
      rw [← writeCmd_idle hidle]
      exact hostWrite_register w s (by decide) (by decide)
    exact ⟨_, latch w s, hissue, rfl, rfl⟩
  · subst hcmd
    exact blockStep_illegal hl (legalWord_eq_false.mpr hw)

end Sys2Proof.Machine
end

section
/-! The map unit (spec/40_offset_map.md R110 to R116): the list of flagged indices, counted and ranked
by mask bits, and what MAP_BUILD and the other commands without a pixel buffer do. -/

namespace Sys2Proof.Machine

/-! The flagged indices (R110, R111, R112). -/

theorem nodup_offsetMapOf (m : Mask) (w : Nat) : (offsetMapOf m w).Nodup :=
  (pairwise_offsetMapOf m w).imp Nat.ne_of_lt

/-- R111: the list depends on mask bits 63 down to 64 - w only. -/
theorem offsetMapOf_congr {m m' : Mask} {w : Nat} (hw : w ≤ 64)
    (h : ∀ b, 64 - w ≤ b → b < 64 → m.getLsbD b = m'.getLsbD b) :
    offsetMapOf m w = offsetMapOf m' w :=
  List.filter_congr fun i hi => by
    rw [List.mem_range] at hi
    exact h (63 - i) (by omega) (by omega)

theorem offsetMapOf_eq_nil {m : Mask} {w : Nat} (hw : w ≤ 64) :
    offsetMapOf m w = [] ↔ ∀ b, 64 - w ≤ b → b < 64 → m.getLsbD b = false := by
  simp only [List.eq_nil_iff_forall_not_mem, mem_offsetMapOf, not_and, Bool.not_eq_true]
  constructor
  · intro h b hlo hhi
    simpa [show 63 - (63 - b) = b by omega] using h (63 - b) (by omega)
  · exact fun h i hi => h (63 - i) (by omega) (by omega)

/-- The set mask bits from 64 - w up are those of the flagged indices. -/
theorem maskBits_perm_offsetMapOf (m : Mask) {w : Nat} (hw : w ≤ 64) :
    ((List.range 64).filter fun b => decide (64 - w ≤ b) && m.getLsbD b).Perm
      ((offsetMapOf m w).map (63 - ·)) := by
  have hinj : ((offsetMapOf m w).map (63 - ·)).Nodup :=
    (nodup_offsetMapOf m w).map_on fun i hi j hj hij => by
      have hi := (mem_offsetMapOf.mp hi).1
      have hj := (mem_offsetMapOf.mp hj).1
      omega
  refine (List.perm_ext_iff_of_nodup (List.nodup_range.filter _) hinj).mpr fun b => ?_
  simp only [List.mem_filter, List.mem_range, Bool.and_eq_true, decide_eq_true_eq, List.mem_map,
    mem_offsetMapOf]
  constructor
  · rintro ⟨hb, hlo, hbit⟩
    have hback : 63 - (63 - b) = b := by omega
    exact ⟨63 - b, ⟨by omega, by rwa [hback]⟩, hback⟩
  · rintro ⟨i, ⟨hi, hbit⟩, rfl⟩
    exact ⟨by omega, by omega, hbit⟩

theorem length_offsetMapOf (m : Mask) {w : Nat} (hw : w ≤ 64) :
    (offsetMapOf m w).length =
      ((List.range 64).filter fun b => decide (64 - w ≤ b) && m.getLsbD b).length := by
  rw [(maskBits_perm_offsetMapOf m hw).length_eq, List.length_map]

/-- The entries before entry `k` are the flagged indices below it. -/
theorem take_offsetMapOf (m : Mask) (w : Nat) {k : Nat} (hk : k < (offsetMapOf m w).length) :
    ((offsetMapOf m w).take k).Perm (offsetMapOf m (offsetMapOf m w)[k]) := by
  have hasc := List.pairwise_iff_getElem.mp (pairwise_offsetMapOf m w)
  have hkw := (mem_offsetMapOf.mp (List.getElem_mem hk)).1
  refine (List.perm_ext_iff_of_nodup ((nodup_offsetMapOf m w).sublist (List.take_sublist ..))
    (nodup_offsetMapOf m _)).mpr fun i => ?_
  rw [List.mem_take_iff_getElem, mem_offsetMapOf]
  constructor
  · rintro ⟨j, hj, rfl⟩
    exact ⟨hasc j k (by omega) hk (by omega), (mem_offsetMapOf.mp (List.getElem_mem _)).2⟩
  · rintro ⟨hik, hflag⟩
    obtain ⟨j, hj, rfl⟩ := List.getElem_of_mem (mem_offsetMapOf.mpr ⟨Nat.lt_trans hik hkw, hflag⟩)
    have hjk : j < k := by
      rcases Nat.lt_trichotomy j k with hlt | rfl | hgt
      · exact hlt
      · exact absurd hik (Nat.lt_irrefl _)
      · exact absurd hik (Nat.lt_asymm (hasc k j hk hj hgt))
    exact ⟨j, by omega, rfl⟩

/-- Entry `k` has rank `k`: so many flagged indices come before it. -/
theorem length_offsetMapOf_getElem (m : Mask) (w : Nat) {k : Nat}
    (hk : k < (offsetMapOf m w).length) : (offsetMapOf m (offsetMapOf m w)[k]).length = k := by
  rw [← (take_offsetMapOf m w hk).length_eq, List.length_take]
  omega

/-- Settles O25: members, order, and the count of the mask bits of the list and of each prefix. -/
theorem offsetMapListsFlaggedBits : Obligations.OffsetMapListsFlaggedBits := by
  intro m w hw M
  have hlt : ∀ i ∈ M, i < w := fun i hi => (mem_offsetMapOf.mp hi).1
  refine ⟨fun i => mem_offsetMapOf, pairwise_offsetMapOf m w, nodup_offsetMapOf m w,
    fun i hi => ?_, length_offsetMapOf m hw, length_offsetMapOf_le m w, fun k hk => ?_⟩
  · have := hlt i hi
    omega
  · have hentry := hlt _ (List.getElem_mem hk)
    have hbound : ∀ b, 63 - M[k] < b ↔ 64 - M[k] ≤ b := fun b => by omega
    simp only [hbound]
    rw [← length_offsetMapOf m (by omega), length_offsetMapOf_getElem m w hk]

/-- Settles O26, by `offsetMapOf_congr`. -/
theorem lowMaskBitsHaveNoEffect : Obligations.LowMaskBitsHaveNoEffect :=
  fun _ _ _ hw h => offsetMapOf_congr hw h

/-! MAP_BUILD (R113, R114, R115). -/

/-- A list of width 64 or less fits the map register file. -/
theorem offsetMapOf_fits (m : Mask) {w : Nat} (hw : w ≤ 64) :
    (offsetMapOf m w).length ≤ 64 ∧ ∀ i ∈ offsetMapOf m w, i < 64 :=
  ⟨Nat.le_trans (length_offsetMapOf_le m w) hw,
    fun _ hi => Nat.lt_of_lt_of_le (mem_offsetMapOf.mp hi).1 hw⟩

section

variable (m : Mask) {w : Nat} (hw : w ≤ 64) (s : State)

include hw

theorem mapEntry_storeMap_offsetMapOf (k : Nat) :
    mapEntry (storeMap (offsetMapOf m w) s) k = (offsetMapOf m w).getD k 0 :=
  mapEntry_storeMap (offsetMapOf_fits m hw).1 (offsetMapOf_fits m hw).2 s k

theorem mapK_storeMap_offsetMapOf :
    mapK (storeMap (offsetMapOf m w) s) = (offsetMapOf m w).length :=
  mapK_storeMap (offsetMapOf_fits m hw).1 s

theorem mapOk_storeMap_offsetMapOf (hne : offsetMapOf m w ≠ []) :
    MapOk (storeMap (offsetMapOf m w) s) :=
  mapOk_storeMap hne (offsetMapOf_fits m hw).1 (offsetMapOf_fits m hw).2
    (pairwise_offsetMapOf m w) s

end

section

variable {s : State} {l : Snapshot} (hl : s.seq = .busy l)

include hl

theorem execMapBuild_wide (hw : 64 < l.mapWidth.toNat) :
    execMapBuild s = .next (finish l .paramInvalid 1 (invalidateMap s)) := by
  rcases execMapBuild_cases hl with ⟨-, e⟩ | ⟨hle, -⟩ | ⟨hle, -⟩
  · exact e
  · omega
  · omega

theorem execMapBuild_empty (hw : l.mapWidth.toNat ≤ 64)
    (hM : offsetMapOf l.mask l.mapWidth.toNat = []) :
    execMapBuild s = .next (finish l .emptyOffsetMap (l.mapWidth.setWidth 32) (invalidateMap s)) := by
  rcases execMapBuild_cases hl with ⟨hlt, -⟩ | ⟨-, -, e⟩ | ⟨-, hne, -⟩
  · omega
  · rwa [BitVec.ofNat_toNat] at e
  · exact absurd hM hne

theorem execMapBuild_stored (hw : l.mapWidth.toNat ≤ 64)
    (hM : offsetMapOf l.mask l.mapWidth.toNat ≠ []) :
    execMapBuild s =
      .next (finish l .none 0 (storeMap (offsetMapOf l.mask l.mapWidth.toNat) s)) := by
  rcases execMapBuild_cases hl with ⟨hlt, -⟩ | ⟨-, hnil, -⟩ | ⟨-, -, e⟩
  · omega
  · exact absurd hnil hM
  · exact e

end

/-- Settles O27: the stored map holds the list and 0 behind it. -/
theorem mapBuildStoresTheMap : Obligations.MapBuildStoresTheMap := by
  intro s l hl hw ⟨i, hi, hbit⟩ M
  have hmem : i ∈ M := mem_offsetMapOf.mpr ⟨hi, hbit⟩
  have hK := mapK_storeMap_offsetMapOf l.mask hw s
  have hentry := mapEntry_storeMap_offsetMapOf l.mask hw s
  refine ⟨_, execMapBuild_stored hl hw (List.ne_nil_of_mem hmem), rfl, hK,
    hK.symm ▸ List.length_pos_of_mem hmem, fun k hk => ?_, fun k hk => ?_, rfl⟩
  · rw [List.getElem?_eq_getElem hk, ← List.getD_eq_getElem M 0 hk]
    exact congrArg some (hentry k).symm
  · exact (hentry k).trans (List.getD_eq_default _ _ hk)

/-- Settles O28, by the two errors; the list is empty when none of the mask bits it reads is 1. -/
theorem mapBuildFailureInvalidates : Obligations.MapBuildFailureInvalidates := by
  intro s l hl cleared
  have hcleared : ∀ code info, cleared (finish l code info (invalidateMap s)) :=
    fun _ _ => ⟨rfl, rfl, mapEntry_invalidateMap s⟩
  refine ⟨fun hw => ⟨_, execMapBuild_wide hl hw, hcleared _ _, rfl⟩,
    fun hw hM => ⟨_, execMapBuild_empty hl hw hM, hcleared _ _, rfl⟩, fun hw => ?_⟩
  rw [offsetMapOf_eq_nil hw]
  constructor
  · exact .inr
  · rintro (hzero | hbits)
    · intro b hlo hhi
      omega
    · exact hbits

/-! The identity map (R116). -/

theorem allBits_getLsbD {st b : Nat} (hst : st ≤ 8) (hb : b < 64) :
    (allBits st).getLsbD b = decide (64 - 8 * st ≤ b) := by
  rw [allBits, BitVec.getLsbD_ofNat, Nat.testBit_mul_two_pow, Nat.testBit_two_pow_sub_one]
  by_cases h : 64 - 8 * st ≤ b
  · have hrun : b - (64 - 8 * st) < 8 * st := by omega
    simp [h, hb, hrun]
  · simp [h]

/-- Every index below the width is flagged. -/
theorem offsetMapOf_allBits {st : Nat} (hst : st ≤ 8) :
    offsetMapOf (allBits st) (8 * st) = List.range (8 * st) :=
  List.filter_eq_self.mpr fun i hi => by
    rw [List.mem_range] at hi
    rw [allBits_getLsbD hst (by omega), decide_eq_true_eq]
    omega

/-- Settles O29: the list of the all-bits mask is the range of its width. -/
theorem allBitsMaskBuildsIdentity : Obligations.AllBitsMaskBuildsIdentity := by
  refine ⟨by decide, by decide, fun st hpos hst => ⟨fun b hb => ?_, fun s l hl hmask hwidth => ?_⟩⟩
  · rw [allBits_getLsbD hst hb, decide_eq_true_eq]
  · have hw : l.mapWidth.toNat ≤ 64 := by omega
    have hM : offsetMapOf l.mask l.mapWidth.toNat = List.range (8 * st) := by
      rw [hmask, hwidth, offsetMapOf_allBits hst]
    have hne : offsetMapOf l.mask l.mapWidth.toNat ≠ [] := by
      rw [hM, Ne, List.range_eq_nil]
      omega
    refine ⟨_, execMapBuild_stored hl hw hne, rfl,
      (mapK_storeMap_offsetMapOf l.mask hw s).trans ?_,
      fun k hk => (mapEntry_storeMap_offsetMapOf l.mask hw s k).trans ?_⟩
    · rw [hM, List.length_range]
    · rw [hM, List.getD_eq_getElem _ _ (by simpa using hk), List.getElem_range]

/-! The frames of the commands without a pixel buffer (R115, spec/42_crc.md R164, R165, R166). -/

theorem feedDb_faults {c : Word} {l : Snapshot} {s t : State} (h : feedDb c l s = .next t) :
    t.faults = s.faults ∨ RecordsReads s t l.dbAddr.toNat l.nbytes.toNat := by
  rcases feedDb_cases c l s with ⟨-, e⟩ | ⟨-, e⟩ <;> cases e.symm.trans h
  · exact .inl rfl
  · exact .inr (.of_faults rfl)

/-- CRC_UPDATE and CRC_COMPUTE feed DB, each from its own state. -/
theorem exec_feedDb {i : Instr} {s : State} {l : Snapshot} (hl : s.seq = .busy l)
    (hi : i = .crcUpdate ∨ i = .crcCompute) : ∃ c, exec i s = feedDb c l s := by
  rcases hi with rfl | rfl
  · exact ⟨s.crcState, execCrcUpdate_eq hl⟩
  · exact ⟨crcInitValue, execCrcCompute_eq hl⟩

theorem exec_crc_frame {i : Instr} {s t : State} {l : Snapshot} (hl : s.seq = .busy l)
    (hi : i = .crcInit ∨ i = .crcUpdate ∨ i = .crcCompute) (h : exec i s = .next t) :
    t = { s with
      crcState := t.crcState, faults := t.faults, draws := t.draws, seq := .idle, done := true,
      errcode := t.errcode, errInfo := t.errInfo, lastCmd := l.cmd } := by
  rcases hi with rfl | hi
  · cases (execCrcInit_eq hl).symm.trans h
    rfl
  · obtain ⟨c, e⟩ := exec_feedDb hl hi
    exact feedDb_frame (e.symm.trans h)

/-- The commands that work on no pixel buffer leave DB and system memory alone. -/
theorem exec_sameMemories {i : Instr} {s t : State} {l : Snapshot} (hl : s.seq = .busy l)
    (hread : i ≠ .readBits) (hwrite : i ≠ .writeBits) (h : exec i s = .next t) :
    t.db = s.db ∧ t.mem = s.mem := by
  cases i with
  | mapBuild => rw [execMapBuild_frame hl h]; exact ⟨rfl, rfl⟩
  | readBits => exact absurd rfl hread
  | writeBits => exact absurd rfl hwrite
  | crcInit => rw [exec_crc_frame hl (.inl rfl) h]; exact ⟨rfl, rfl⟩
  | crcUpdate => rw [exec_crc_frame hl (.inr (.inl rfl)) h]; exact ⟨rfl, rfl⟩
  | crcCompute => rw [exec_crc_frame hl (.inr (.inr rfl)) h]; exact ⟨rfl, rfl⟩

/-- Settles O52, frame by frame. -/
theorem mapAndCrcCommandFrame : Obligations.MapAndCrcCommandFrame := by
  intro s t l i hl h
  refine ⟨?_, fun hi => exec_crc_frame hl hi h, ?_, fun hi => ?_, fun hread hwrite => ?_⟩
  · rintro rfl
    exact execMapBuild_frame hl h
  · rintro rfl
    cases (execCrcInit_eq hl).symm.trans h
    exact ⟨rfl, rfl⟩
  · obtain ⟨c, e⟩ := exec_feedDb hl hi
    exact feedDb_faults (e.symm.trans h)
  · obtain ⟨hdb, hmem⟩ := exec_sameMemories hl hread hwrite h
    exact ⟨fun k => by rw [hdb], fun a => by rw [hmem]⟩

end Sys2Proof.Machine
end

section
/-! The invariant of the block (`BlockInv`): every command's completion, every reset and every act of
the host keeps the memories canonical, the map good and the error registers of one completion
(spec/40_offset_map.md R113, spec/60_exceptions.md R180, R181, R186). -/

namespace Sys2Proof.Machine

/-! The error registers a completion leaves (R180, R181). -/

/-- The information word of DATA_BOUNDS saturates far above `DB_SIZE`. -/
theorem dbSize_lt_dbEndInfo {s : State} {l : Snapshot} (h : dbSize s < dbEnd l) :
    dbSize s < (dbEndInfo l).toNat := by
  have hle := dbSize_le s
  rw [dbEndInfo, saturate32_toNat]
  omega

theorem errorOk_finish_none {s : State} {l : Snapshot} {i : Instr} (hcmd : l.cmd = encode i) :
    ErrorOk (finish l .none 0 s) := ⟨rfl, .inr ⟨i, hcmd⟩⟩

/-- Each error of `check_channel()` has its information word. -/
theorem errorOk_finish_checkChannel {s : State} {l : Snapshot} {code : ErrCode} {info : Word}
    (hcmd : l.cmd = encode .readBits ∨ l.cmd = encode .writeBits)
    (h : checkChannel s l = .error code info) : ErrorOk (finish l code info s) := by
  rcases checkChannel_error h with ⟨rfl, hinfo⟩ | ⟨rfl, rfl⟩ | ⟨rfl, rfl, hsize⟩ | ⟨rfl, rfl⟩
  · exact .inr ⟨hinfo, hcmd⟩
  · exact ⟨Nat.zero_le 64, .inr ⟨rfl, hcmd⟩⟩
  · exact ⟨dbSize_lt_dbEndInfo hsize, hcmd.imp_right .inl⟩
  · exact hcmd

theorem errorOk_finish_illegal {s : State} {l : Snapshot} (hcmd : ∀ i, l.cmd ≠ encode i) :
    ErrorOk (finish l .illegalCommand l.cmd s) := by
  refine ⟨rfl, eq_false_of_ne_true fun hlegal => ?_⟩
  obtain ⟨i, hi⟩ := legalWord_iff_encode.mp hlegal
  exact hcmd i hi.symm

/-! Completions (R186). -/

/-- A completion leaves the block IDLE; what is left to show is about memories, map and error. -/
theorem BlockInv.of_finish {s : State} {l : Snapshot} {code : ErrCode} {info : Word}
    (hmem : Memory.wf (some sysUnlisted) sysSize s.mem) (hdb : Memory.wf dbUnlisted (dbSize s) s.db)
    (hmap : MapOk s) (herror : ErrorOk (finish l code info s)) :
    BlockInv (finish l code info s) :=
  ⟨hmem, hdb, hmap, nofun, herror⟩

/-- The write loop of a command that passes the checks stays inside the address space. -/
theorem BlockInv.wf_writeStream {s : State} {l : Snapshot} (h : BlockInv s) (hr : ChannelReady s l)
    (d : Nat → Bool) : Memory.wf (some sysUnlisted) sysSize (writeStream s l d (nbits l)) :=
  Machine.wf_writeStream h.mem fun _ hj => hr.addr_lt h.map hj

theorem feedDb_blockInv {c : Word} {l : Snapshot} {s t : State} (h : BlockInv s)
    (hcmd : l.cmd = encode .crcUpdate ∨ l.cmd = encode .crcCompute)
    (ht : feedDb c l s = .next t) : BlockInv t := by
  rcases feedDb_cases c l s with ⟨hsize, e⟩ | ⟨-, e⟩ <;> cases e.symm.trans ht
  · exact .of_finish h.mem h.db h.map ⟨dbSize_lt_dbEndInfo hsize, .inr (.inr hcmd)⟩
  · exact .of_finish h.mem h.db h.map (hcmd.elim errorOk_finish_none errorOk_finish_none)

section

variable {s t : State} {l : Snapshot} (h : BlockInv s) (hl : s.seq = .busy l)

include h hl

theorem execMapBuild_blockInv (hcmd : l.cmd = encode .mapBuild) (ht : execMapBuild s = .next t) :
    BlockInv t := by
  rcases execMapBuild_cases hl with ⟨-, e⟩ | ⟨hw, -, e⟩ | ⟨hw, hne, e⟩ <;> cases e.symm.trans ht
  · exact .of_finish h.mem h.db (mapOk_invalidateMap s) (.inl ⟨rfl, hcmd⟩)
  · refine .of_finish h.mem h.db (mapOk_invalidateMap s) ⟨?_, .inl hcmd⟩
    rw [finish_errInfo, BitVec.toNat_ofNat]
    omega
  · exact .of_finish h.mem h.db (mapOk_storeMap_offsetMapOf l.mask hw s hne)
      (errorOk_finish_none hcmd)

theorem execReadBits_blockInv (hcmd : l.cmd = encode .readBits) (ht : execReadBits s = .next t) :
    BlockInv t := by
  rcases execReadBits_cases hl with ⟨code, info, hc, e⟩ | ⟨-, e⟩ | ⟨hr, -, e⟩ | ⟨-, j, -, -, e⟩ <;>
    cases e.symm.trans ht
  · exact .of_finish h.mem h.db h.map (errorOk_finish_checkChannel (.inl hcmd) hc)
  · exact .of_finish h.mem h.db h.map (errorOk_finish_none hcmd)
  · exact .of_finish h.mem (wf_dbFill h.db (.inr hr.dbFits)) h.map (errorOk_finish_none hcmd)
  · exact .of_finish h.mem (wf_scrambleDb h.db) h.map (.inl hcmd)

theorem execWriteBits_blockInv (hcmd : l.cmd = encode .writeBits)
    (ht : execWriteBits s = .next t) : BlockInv t := by
  rcases execWriteBits_cases hl with
      ⟨code, info, hc, e⟩ | ⟨-, e⟩ | ⟨hr, -, -, e⟩ | ⟨hr, j, -, -, e⟩ <;> cases e.symm.trans ht
  · exact .of_finish h.mem h.db h.map (errorOk_finish_checkChannel (.inr hcmd) hc)
  · exact .of_finish h.mem h.db h.map (errorOk_finish_none hcmd)
  · exact .of_finish (h.wf_writeStream hr _) h.db h.map (errorOk_finish_none hcmd)
  · exact .of_finish (h.wf_writeStream hr _) h.db h.map (.inr hcmd)

theorem exec_blockInv {i : Instr} (hcmd : l.cmd = encode i) (ht : exec i s = .next t) :
    BlockInv t := by
  cases i with
  | mapBuild => exact execMapBuild_blockInv h hl hcmd ht
  | readBits => exact execReadBits_blockInv h hl hcmd ht
  | writeBits => exact execWriteBits_blockInv h hl hcmd ht
  | crcInit =>
    cases (execCrcInit_eq hl).symm.trans ht
    exact .of_finish h.mem h.db h.map (errorOk_finish_none hcmd)
  | crcUpdate => exact feedDb_blockInv h (.inl hcmd) ((execCrcUpdate_eq hl).symm.trans ht)
  | crcCompute => exact feedDb_blockInv h (.inr hcmd) ((execCrcCompute_eq hl).symm.trans ht)

end

/-- The block's turn: nothing, a command's completion, or that of an illegal word. -/
theorem blockStep_blockInv {s t : State} (h : BlockInv s) (ht : blockStep s = .next t) :
    BlockInv t := by
  rcases blockStep_cases s with ⟨-, e⟩ | ⟨l, i, hl, hcmd, e⟩ | ⟨l, -, hcmd, e⟩ <;> rw [e] at ht
  · cases ht
    exact h
  · exact exec_blockInv h hl hcmd ht
  · cases ht
    exact .of_finish h.mem h.db h.map (errorOk_finish_illegal hcmd)

/-! Resets (spec/70_reset_and_hazards.md R210, R211). -/

/-- An abort keeps both memories canonical. -/
theorem abortEffect_wf {s : State} (h : BlockInv s) :
    Memory.wf (some sysUnlisted) sysSize (abortEffect s).mem ∧
      Memory.wf dbUnlisted (dbSize (abortEffect s)) (abortEffect s).db := by
  rcases abortEffect_cases s with e | ⟨l, -, -, e⟩ | ⟨l, hl, -, hr, e⟩ <;> rw [e]
  · exact ⟨h.mem, h.db⟩
  · exact ⟨h.mem, wf_scrambleDb h.db⟩
  · exact ⟨h.wf_writeStream hr _, h.db⟩

/-- Cleared block state over canonical memories meets the invariant. -/
theorem BlockInv.of_clearBlock {s : State} (hmem : Memory.wf (some sysUnlisted) sysSize s.mem)
    (hdb : Memory.wf dbUnlisted (dbSize s) s.db) : BlockInv (clearBlock s) :=
  ⟨hmem, hdb, mapOk_reset, nofun, ⟨rfl, .inl rfl⟩⟩

theorem softReset_blockInv {s : State} (h : BlockInv s) : BlockInv (softReset s) :=
  .of_clearBlock (abortEffect_wf h).1 (abortEffect_wf h).2

theorem powerOnReset_blockInv {s : State} (h : BlockInv s) : BlockInv (powerOnReset s) :=
  let ⟨hmem, _, hmap, hbusy, herror⟩ := softReset_blockInv h
  ⟨hmem, Memory.wf_nil _ _, hmap, hbusy, herror⟩

/-! The acts of the host and the platform. -/

/-- The invariant does not speak of the model's own record. -/
theorem BlockInv.withRecord {s : State} (h : BlockInv s) (inputs : List Event)
    (replies : List Reply) (faults : List Fault) (draws : Nat) :
    BlockInv { s with inputs := inputs, replies := replies, faults := faults, draws := draws } :=
  ⟨h.mem, h.db, h.map, h.busy, h.error⟩

/-- Of the register writes SOFT_RESET, the acknowledgement and the issue touch what the invariant
speaks of. -/
theorem writeRegister_blockInv {s : State} (h : BlockInv s) (r : Reg) (v : Word) :
    BlockInv (writeRegister r v s) := by
  cases r with
  | ctrl =>
    rw [writeRegister, writeCtrl]
    split
    · exact softReset_blockInv h
    · exact ⟨h.mem, h.db, h.map, h.busy, h.error⟩
  | status =>
    refine ⟨h.mem, h.db, h.map, fun hb => ?_, h.error⟩
    rw [writeRegister, acknowledge_done, h.busy hb, Bool.false_and]
  | cmd =>
    rw [writeRegister, writeCmd]
    split
    · exact ⟨h.mem, h.db, h.map, h.busy, h.error⟩
    · exact ⟨h.mem, h.db, h.map, fun _ => rfl, h.error⟩
  | _ => exact ⟨h.mem, h.db, h.map, h.busy, h.error⟩

theorem hostWrite_blockInv {s t : State} {w : Width} {off : Offset} {v : Word} (h : BlockInv s)
    (ht : hostWrite w off v s = .next t) : BlockInv t := by
  unfold hostWrite at ht
  split at ht
  · cases ht
    exact h.withRecord _ _ _ _
  · split at ht <;> cases ht
    · exact ⟨h.mem, wf_windowWrite h.db, h.map, h.busy, h.error⟩
    · exact writeRegister_blockInv h _ _

theorem hostMemRead_blockInv {s t : State} {a : Word} (h : BlockInv s)
    (ht : hostMemRead a s = .next t) : BlockInv t := by
  cases howns : ownsAddress s a.toNat with
  | true =>
    cases (hostMemRead_owned howns).symm.trans ht
    exact h.withRecord _ _ _ _
  | false =>
    cases (hostMemRead_free howns).symm.trans ht
    exact h.withRecord _ _ _ _

theorem hostMemWrite_blockInv {s t : State} {a : Word} {v : Byte} (h : BlockInv s)
    (ht : hostMemWrite a v s = .next t) : BlockInv t := by
  cases howns : ownsAddress s a.toNat with
  | true =>
    cases (hostMemWrite_owned v howns).symm.trans ht
    exact ⟨wf_sysWrite h.mem a.isLt, h.db, h.map, h.busy, h.error⟩
  | false =>
    cases (hostMemWrite_free v howns).symm.trans ht
    exact ⟨wf_sysWrite h.mem a.isLt, h.db, h.map, h.busy, h.error⟩

theorem act_blockInv {e : Event} {s t : State} (h : BlockInv s) (ht : act e s = .next t) :
    BlockInv t := by
  cases e with
  | block => exact blockStep_blockInv h ht
  | read w off =>
    obtain ⟨r, new, n, e, -⟩ := hostRead_eq s w off
    cases e.symm.trans ht
    exact h.withRecord _ _ _ _
  | write w off v => exact hostWrite_blockInv h ht
  | memRead a => exact hostMemRead_blockInv h ht
  | memWrite a v => exact hostMemWrite_blockInv h ht
  | powerOn =>
    cases ht
    exact powerOnReset_blockInv h

/-- Settles O60: the block's turn and every act keep the invariant. -/
theorem stepKeepsInvariant : Obligations.StepKeepsInvariant := by
  intro s t h ht
  rcases step_eq s with e | ⟨ev, r, -, -, e⟩ <;> rw [e] at ht
  · exact blockStep_blockInv h ht
  · exact act_blockInv (h.withRecord _ _ _ _) ht

end Sys2Proof.Machine
end

section
/-! The bit channel (spec/41_bit_channel.md R130 to R144): which pixels a stream touches, the checks
in their order, and what READ_BITS and WRITE_BITS do with the bits of the footprint. -/

namespace Sys2Proof.Machine

/-! The pixels of a stream (R131, R132, R133). -/

/-- The first `n` stream bits touch the ceil(n / K) pixels from the start pixel on. -/
theorem exists_pixelAt {s : State} {l : Snapshot} (hK : 0 < mapK s) {n p : Nat} :
    (∃ j, j < n ∧ pixelAt s l j = p) ↔
      l.startPixel.toNat ≤ p ∧ p < l.startPixel.toNat + (n + mapK s - 1) / mapK s := by
  have hceil : ∀ q, q < (n + mapK s - 1) / mapK s ↔ mapK s * q < n := fun q =>
    (gc_mul_ceilDiv hK).lt_iff_lt
  constructor
  · rintro ⟨j, hj, rfl⟩
    have hlast := (hceil (j / mapK s)).mpr (Nat.lt_of_le_of_lt (Nat.mul_div_le ..) hj)
    exact ⟨Nat.le_add_right .., Nat.add_lt_add_left hlast _⟩
  · rintro ⟨hlo, hhi⟩
    refine ⟨mapK s * (p - l.startPixel.toNat), (hceil _).mp (by omega), ?_⟩
    rw [pixelAt, Nat.mul_div_cancel_left _ hK]
    omega

/-- A byte of the footprint lies inside its pixel. -/
theorem offsetAt_in_pixel {s : State} {l : Snapshot} {j : Nat}
    (h : indexAt s j < 8 * l.stride.toNat) :
    pixelAt s l j * l.stride.toNat ≤ offsetAt s l j ∧
      offsetAt s l j < (pixelAt s l j + 1) * l.stride.toNat := by
  rw [offsetAt, Nat.succ_mul]
  omega

theorem offsetAt_le_lastOffset {s : State} {l : Snapshot} (hm : MapOk s) (hv : s.mapValid = true)
    (hf : mapEntry s (mapK s - 1) < 8 * l.stride.toNat) {j : Nat} (hj : j < nbits l) :
    offsetAt s l j ≤ lastOffset s l :=
  offsetAt_mono hm hv hf (Nat.le_sub_one_of_lt hj)

/-- Settles O31, by the order of offsets (`offsetAt_mono`, `place_inj`) and the pixel of a bit. -/
theorem footprintSpansPixelsInOrder : Obligations.FootprintSpansPixelsInOrder := by
  intro s l hm hv hf _ n S
  obtain ⟨hK, -⟩ := hm.2 hv
  exact ⟨fun i j hij _ => offsetAt_mono hm hv hf hij,
    fun j hj => offsetAt_le_lastOffset hm hv hf hj,
    fun i j _ _ ha hb => place_inj hm hv hf ha hb,
    fun j _ => offsetAt_in_pixel (indexAt_lt hm hv hf j), fun p => exists_pixelAt hK⟩

/-! The checks in their order (R134, R136). -/

section

variable {s : State} {l : Snapshot}

theorem checkChannel_stride (h : l.stride.toNat < 1 ∨ 8 < l.stride.toNat) :
    checkChannel s l = .error .paramInvalid 2 := if_pos h

variable (hpos : 1 ≤ l.stride.toNat) (hle : l.stride.toNat ≤ 8)

include hpos hle

theorem checkChannel_noMap (h : s.mapValid = false) :
    checkChannel s l = .error .emptyOffsetMap 0 := by
  unfold checkChannel
  rw [if_neg (by omega), if_pos h]

variable (hvalid : s.mapValid = true)

include hvalid

theorem checkChannel_misfit (h : 8 * l.stride.toNat ≤ mapEntry s (mapK s - 1)) :
    checkChannel s l = .error .paramInvalid 3 := by
  unfold checkChannel
  rw [if_neg (by omega), if_neg (by simp [hvalid]), if_pos h]

variable (hfits : mapEntry s (mapK s - 1) < 8 * l.stride.toNat)

include hfits

theorem checkChannel_wrap (h : 2 ^ 32 < l.pbBase.toNat + l.pbLen.toNat) :
    checkChannel s l = .error .paramInvalid 4 := by
  unfold checkChannel
  rw [if_neg (by omega), if_neg (by simp [hvalid]), if_neg (by omega), if_pos h]

variable (hwrap : l.pbBase.toNat + l.pbLen.toNat ≤ 2 ^ 32)

include hwrap

theorem checkChannel_dataBounds (h : dbSize s < dbEnd l) :
    checkChannel s l = .error .dataBounds (dbEndInfo l) := by
  unfold checkChannel
  rw [if_neg (by omega), if_neg (by simp [hvalid]), if_neg (by omega), if_neg (by omega), if_pos h]

variable (hdb : dbEnd l ≤ dbSize s)

include hdb

theorem checkChannel_noBytes (h : l.nbytes.toNat = 0) : checkChannel s l = .nothing := by
  unfold checkChannel
  rw [if_neg (by omega), if_neg (by simp [hvalid]), if_neg (by omega), if_neg (by omega),
    if_neg (by omega), if_pos h]

theorem checkChannel_outside (h0 : l.nbytes.toNat ≠ 0) (h : l.pbLen.toNat ≤ lastOffset s l) :
    checkChannel s l = .error .boundsExceeded (saturate32 (lastOffset s l)) := by
  unfold checkChannel
  rw [if_neg (by omega), if_neg (by simp [hvalid]), if_neg (by omega), if_neg (by omega),
    if_neg (by omega), if_neg h0, if_pos h]

end

section

variable {s : State} {l : Snapshot} {i : Instr} (hl : s.seq = .busy l)
  (hi : i = .readBits ∨ i = .writeBits)

include hl hi

/-- A failed check ends either command with its error and nothing else. -/
theorem exec_of_check_error {code : ErrCode} {info : Word}
    (hc : checkChannel s l = .error code info) : exec i s = .next (finish l code info s) := by
  rcases hi with rfl | rfl
  · simp only [exec, execReadBits, whenPending_busy hl, hc, raise]
  · simp only [exec, execWriteBits, whenPending_busy hl, hc, raise]

theorem exec_of_check_nothing (hc : checkChannel s l = .nothing) :
    exec i s = .next (finish l .none 0 s) := by
  rcases hi with rfl | rfl
  · simp only [exec, execReadBits, whenPending_busy hl, hc, complete]
  · simp only [exec, execWriteBits, whenPending_busy hl, hc, complete]

/-- Past the checks, only a bus error can fail either command. -/
theorem exec_errcode_of_ready (hr : ChannelReady s l) {t : State} (ht : exec i s = .next t) :
    t.errcode = .none ∨ t.errcode = .busError := by
  have hc := checkChannel_access.mpr hr
  rcases hi with rfl | rfl
  · rcases execReadBits_cases hl with ⟨_, _, h, -⟩ | ⟨h, -⟩ | ⟨-, -, e⟩ | ⟨-, _, -, -, e⟩
    · cases hc.symm.trans h
    · cases hc.symm.trans h
    · cases e.symm.trans ht
      exact .inl rfl
    · cases e.symm.trans ht
      exact .inr rfl
  · rcases execWriteBits_cases hl with ⟨_, _, h, -⟩ | ⟨h, -⟩ | ⟨-, -, -, e⟩ | ⟨-, _, -, -, e⟩
    · cases hc.symm.trans h
    · cases hc.symm.trans h
    · cases e.symm.trans ht
      exact .inl rfl
    · cases e.symm.trans ht
      exact .inr rfl

end

/-- Settles O32, check by check. -/
theorem channelReportsFirstFailure : Obligations.ChannelReportsFirstFailure := by
  intro s l i hl hi ends st n last
  have fails : ∀ {code info}, checkChannel s l = .error code info → ends code info :=
    exec_of_check_error hl hi
  exact ⟨fun h => fails (checkChannel_stride h),
    fun hpos hle => ⟨fun h => fails (checkChannel_noMap hpos hle h),
    fun hvalid => ⟨fun h => fails (checkChannel_misfit hpos hle hvalid h),
    fun hfits => ⟨fun h => fails (checkChannel_wrap hpos hle hvalid hfits h),
    fun hwrap => ⟨fun h => fails (checkChannel_dataBounds hpos hle hvalid hfits hwrap h),
    fun hdb =>
      ⟨fun h => exec_of_check_nothing hl hi
        (checkChannel_noBytes hpos hle hvalid hfits hwrap hdb h),
      fun h0 h => fails (checkChannel_outside hpos hle hvalid hfits hwrap hdb h0 h)⟩⟩⟩⟩⟩⟩

/-- Settles O33: since offsets never decrease, some byte is outside exactly when the last one is. -/
theorem boundsExceededExactlyWhenOutside : Obligations.BoundsExceededExactlyWhenOutside := by
  intro s l i hl hi hm hpos hle hvalid hfits hwrap hdb h0
  have outside : (∃ j, j < nbits l ∧ l.pbLen.toNat ≤ offsetAt s l j) ↔
      l.pbLen.toNat ≤ lastOffset s l := by
    constructor
    · rintro ⟨j, hj, h⟩
      exact Nat.le_trans h (offsetAt_le_lastOffset hm hvalid hfits hj)
    · exact fun h => ⟨nbits l - 1, by simp only [nbits]; omega, h⟩
  have fails : l.pbLen.toNat ≤ lastOffset s l → exec i s =
      .next (finish l .boundsExceeded (saturate32 (lastOffset s l)) s) := fun h =>
    exec_of_check_error hl hi (checkChannel_outside hpos hle hvalid hfits hwrap hdb h0 h)
  rw [outside]
  refine ⟨⟨fun h => ⟨_, fails h, rfl⟩, ?_⟩, fun h => ⟨_, fails h, fun _ => rfl, fun _ => rfl⟩⟩
  rintro ⟨t, ht, hcode⟩
  by_contra hin
  rcases exec_errcode_of_ready hl hi
      ⟨hpos, hle, hvalid, hfits, hwrap, hdb, h0, Nat.lt_of_not_le hin⟩ ht with h | h <;>
    cases hcode.symm.trans h

/-! READ_BITS (R137, R138, R139). -/

/-- Stream bit `j` is bit 7 - (j mod 8) of output byte j / 8. -/
theorem readByte_getLsbD (s : State) (l : Snapshot) (j : Nat) :
    (readByte s l (j / 8)).getLsbD (7 - j % 8) = pixelBit s l j := by
  rw [readByte, packByte_getLsbD _ _ (Nat.mod_lt _ (by decide)), Nat.div_add_mod]

/-- An output byte is made of its eight stream bits. -/
theorem readByte_congr {s s' : State} {l l' : Snapshot} {k k' : Nat}
    (h : ∀ i, i < 8 → pixelBit s l (8 * k + i) = pixelBit s' l' (8 * k' + i)) :
    readByte s l k = readByte s' l' k' := packByte_congr h

theorem dbRead_dbFill_inside {d : Memory} {start n k : Nat} {f : Nat → Byte} (hk : k < n) :
    dbRead (dbFill d start n f) (start + k) = some (f k) := by
  rw [dbRead_dbFill, if_pos (by omega), Nat.add_sub_cancel_left]

/-- Settles O34: output byte j / 8 is filled with stream bit j. -/
theorem readBitsStoresTheStream : Obligations.ReadBitsStoresTheStream := by
  intro s l hl hr hq
  exact ⟨_, execReadBits_ready hl hr hq,
    fun j hj => ⟨readByte s l (j / 8), dbRead_dbFill_inside (by omega), readByte_getLsbD s l j⟩,
    fun k hk => dbRead_dbFill_outside (Nat.le_refl _) hk, fun _ => rfl, rfl⟩

/-- Settles O36: equal footprint bits make equal output bytes. -/
theorem readBitsDependsOnlyOnFootprint : Obligations.ReadBitsDependsOnlyOnFootprint := by
  intro s s' t t' l hl hl' hfile hlen hbits ht ht' hnone hnone'
  rw [execReadBits_none hl ht hnone, execReadBits_none hl' ht' hnone']
  refine ⟨fun _ => rfl, fun k hlo hhi => ?_⟩
  have hpixel : ∀ j, j < nbits l → pixelBit s l j = pixelBit s' l j := fun j hj => by
    rw [pixelBit, hbits j hj, offsetAt_congr hfile hlen, bitAt_congr hfile hlen]
    rfl
  obtain ⟨k, rfl⟩ := Nat.exists_eq_add_of_le hlo
  have hbyte : readByte s l k = readByte s' l k :=
    readByte_congr fun i hi => hpixel _ (by simp only [nbits]; omega)
  have hk : k < l.nbytes.toNat := by omega
  simp only [finish_db, dbRead_dbFill_inside hk, hbyte]

/-! WRITE_BITS (R140, R141). -/

/-- After a WRITE_BITS that ends with NONE every stream bit of the buffer is its data bit. -/
theorem pixelBit_writeBits {s t : State} {l : Snapshot} (h : BlockInv s) (hl : s.seq = .busy l)
    (ht : exec .writeBits s = .next t) (hnone : t.errcode = .none) {j : Nat} (hj : j < nbits l) :
    pixelBit t l j = dataBit s l j := by
  obtain ⟨hready, rfl⟩ := execWriteBits_none hl ht hnone
  have hr := hready (by simp only [nbits] at hj; omega)
  exact writeStream_bit_self h.mem.1 hj fun i _ => place_inj h.map hr.valid hr.fits

/-- So the output bytes of a READ_BITS there are the data bytes, where they are written. -/
theorem readByte_writeBits {s t : State} {l : Snapshot} (h : BlockInv s) (hl : s.seq = .busy l)
    (ht : exec .writeBits s = .next t) (hnone : t.errcode = .none) {k : Nat} {b : Byte}
    (hk : k < l.nbytes.toNat) (hb : dbRead s.db (l.dbAddr.toNat + k) = some b) :
    readByte t l k = b := by
  have hbyte : (dataBytes s l).getD k 0 = b := by
    rw [List.getD_eq_getElem?_getD, dataBytes, dbBytes_getElem? hk, dbByte_of_some hb]
    rfl
  rw [← hbyte, ← packByte_streamBit]
  exact packByte_congr fun i hi => pixelBit_writeBits h hl ht hnone (by simp only [nbits]; omega)

/-- Settles O37, by `pixelBit_writeBits` on the footprint and `writeStream_bit_other` off it. -/
theorem writeBitsSetsExactlyTheFootprint : Obligations.WriteBitsSetsExactlyTheFootprint := by
  intro s l h hl
  refine ⟨fun hr hq hw => ⟨_, execWriteBits_ready hl hr hq hw, rfl⟩, fun t ht hnone => ?_⟩
  have hset := fun j (hj : j < nbits l) => pixelBit_writeBits h hl ht hnone hj
  obtain ⟨-, rfl⟩ := execWriteBits_none hl ht hnone
  refine ⟨fun j hj b hb => (hset j hj).trans (dataBit_of_some hj hb),
    fun a c hc hout => writeStream_bit_other h.mem.1 hc hout, rfl, .of_faults rfl,
    fun hwritten => ?_⟩
  simp [unwritten_eq_nil.mpr hwritten]

/-! A stream and another that starts later in it (R142, R143). -/

/-- The stream of `l2` is that of `l` in the same buffer, from byte `N` on, which starts a pixel. -/
structure StartsBehind (s : State) (l l2 : Snapshot) (N : Nat) : Prop where
  boundary : 8 * N % mapK s = 0
  start : l2.startPixel.toNat = l.startPixel.toNat + 8 * N / mapK s
  stride : l2.stride = l.stride
  base : l2.pbBase = l.pbBase

/-- The same stream, from its first byte on. -/
theorem StartsBehind.of_same (s : State) {l l2 : Snapshot} (hstart : l2.startPixel = l.startPixel)
    (hstride : l2.stride = l.stride) (hbase : l2.pbBase = l.pbBase) : StartsBehind s l l2 0 :=
  ⟨Nat.zero_mod _, by rw [hstart, Nat.mul_zero, Nat.zero_div, Nat.add_zero], hstride, hbase⟩

section

variable {s t : State} {l l2 : Snapshot} {N : Nat} (h : StartsBehind s l l2 N)
  (hfile : t.mapFile = s.mapFile) (hlen : t.mapLen = s.mapLen)

include h hfile hlen

theorem StartsBehind.place (j : Nat) :
    pbAddr l2 (offsetAt t l2 j) = pbAddr l (offsetAt s l (8 * N + j)) ∧
      bitAt t j = bitAt s (8 * N + j) := by
  obtain ⟨ha, hb⟩ := place_shift (j := j) hfile hlen h.boundary h.start h.stride
  exact ⟨by rw [pbAddr, pbAddr, ha, h.base], hb⟩

/-- Over the same system memory its output bytes are the later ones of `l`. -/
theorem StartsBehind.readByte (hmem : ∀ a, sysRead t.mem a = sysRead s.mem a) (k : Nat) :
    readByte t l2 k = readByte s l (N + k) := readByte_congr fun i _ => by
  obtain ⟨ha, hb⟩ := h.place hfile hlen (8 * k + i)
  rw [pixelBit, pixelBit, ha, hb, hmem, Nat.mul_add, Nat.add_assoc]

/-- Over the system memory that `N` bytes of `l` have left, its write loop goes on with that of `l`,
if its data follow in DB. -/
theorem StartsBehind.writeStream (hmem : t.mem = writeStream s l (dataBit s l) (8 * N))
    (hdb : t.db = s.db) (haddr : l2.dbAddr.toNat = l.dbAddr.toNat + N) (hwritten : DbWritten s l)
    (hfit : 8 * N + nbits l2 ≤ nbits l) :
    writeStream t l2 (dataBit t l2) (nbits l2) =
      writeStream s l (dataBit s l) (8 * N + nbits l2) := by
  refine writeStream_append hmem (h.place hfile hlen) fun j hj => ?_
  have hbyte : (8 * N + j) / 8 = N + j / 8 := by omega
  obtain ⟨b, hb⟩ := Option.ne_none_iff_exists'.mp
    (hwritten (N + j / 8) (by simp only [nbits] at hj hfit; omega))
  have hlong : dataBit s l (8 * N + j) = b.getLsbD (7 - (8 * N + j) % 8) :=
    dataBit_of_some (by omega) (by rw [hbyte]; exact hb)
  have hpart : dataBit t l2 j = b.getLsbD (7 - j % 8) :=
    dataBit_of_some hj (by rw [hdb, haddr, Nat.add_assoc]; exact hb)
  rw [hlong, hpart, Nat.mul_add_mod]

end

/-- Settles O39: the READ_BITS sees the stream bits that the WRITE_BITS has set to its data. -/
theorem writeThenReadReturnsTheData : Obligations.WriteThenReadReturnsTheData := by
  intro s t u v l l' h hl ht hnone hl' hfile hlen hmem hstride hstart hbytes hbase hv hvnone
    k b hk hb
  obtain ⟨hfileT, hlenT, -⟩ := (execWriteBits_sameUnits hl ht).toSameMap
  have hbyte : readByte u l' k = readByte t l (0 + k) :=
    (StartsBehind.of_same t hstart hstride hbase).readByte (hfile.trans hfileT.symm)
      (hlen.trans hlenT.symm) hmem k
  rw [execReadBits_none hl' hv hvnone, finish_db, dbRead_dbFill_inside (by rw [hbytes]; exact hk),
    hbyte, Nat.zero_add, readByte_writeBits h hl ht hnone hk hb]

/-- A fill goes on where another has stopped. -/
theorem dbFill_add (d : Memory) (start m n : Nat) (f : Nat → Byte) :
    dbFill d start (m + n) f = dbFill (dbFill d start m f) (start + m) n fun k => f (m + k) := by
  simp only [dbFill, Memory.fill, List.range_add, List.foldl_append, List.foldl_map, Nat.add_assoc]

/-- What a READ_BITS that ends with NONE has done, its command put into the state `s`. -/
theorem readBits_placed {s t : State} {l : Snapshot}
    (ht : exec .readBits { s with seq := .busy l } = .next t) (hnone : t.errcode = .none) :
    t.db = dbFill s.db l.dbAddr.toNat l.nbytes.toNat (readByte s l) ∧ t.mem = s.mem ∧
      SameMap s t := by
  rw [execReadBits_none rfl ht hnone]
  exact ⟨rfl, rfl, rfl, rfl, rfl⟩

theorem writeBits_placed {s t : State} {l : Snapshot}
    (ht : exec .writeBits { s with seq := .busy l } = .next t) (hnone : t.errcode = .none) :
    t.db = s.db ∧ t.mem = writeStream s l (dataBit s l) (nbits l) ∧ SameMap s t := by
  rw [(execWriteBits_none rfl ht hnone).2]
  exact ⟨rfl, rfl, rfl, rfl, rfl⟩

section

variable {s t u v : State} {l l1 l2 : Snapshot} (h1 : StartsBehind s l l1 0)
  (h2 : StartsBehind s l l2 l1.nbytes.toNat)
  (hbytes : l.nbytes.toNat = l1.nbytes.toNat + l2.nbytes.toNat)
  (haddr1 : l1.dbAddr = l.dbAddr) (haddr2 : l2.dbAddr.toNat = l.dbAddr.toNat + l1.nbytes.toNat)
  (htnone : t.errcode = .none) (hunone : u.errcode = .none) (hvnone : v.errcode = .none)

include h1 h2 hbytes haddr1 haddr2 htnone hunone hvnone

/-- Two READ_BITS back to back fill DB as the one of both lengths. -/
theorem readBits_split (ht : exec .readBits { s with seq := .busy l1 } = .next t)
    (hu : exec .readBits { t with seq := .busy l2 } = .next u)
    (hv : exec .readBits { s with seq := .busy l } = .next v) :
    u.db = v.db ∧ u.mem = v.mem := by
  obtain ⟨hdbT, hmemT, hfile, hlen, -⟩ := readBits_placed ht htnone
  obtain ⟨hdbU, hmemU, -⟩ := readBits_placed hu hunone
  obtain ⟨hdbV, hmemV, -⟩ := readBits_placed hv hvnone
  have hfirst : readByte s l1 = readByte s l := funext fun k => by
    rw [h1.readByte rfl rfl (fun _ => rfl), Nat.zero_add]
  have hsecond : readByte t l2 = fun k => readByte s l (l1.nbytes.toNat + k) :=
    funext (h2.readByte hfile hlen fun a => by rw [hmemT])
  refine ⟨?_, by rw [hmemU, hmemT, hmemV]⟩
  rw [hdbU, hdbT, hdbV, hfirst, hsecond, hbytes, dbFill_add, haddr1, haddr2]

/-- Two WRITE_BITS back to back run the write loop of the one of both lengths. -/
theorem writeBits_split (hwritten : DbWritten s l)
    (ht : exec .writeBits { s with seq := .busy l1 } = .next t)
    (hu : exec .writeBits { t with seq := .busy l2 } = .next u)
    (hv : exec .writeBits { s with seq := .busy l } = .next v) :
    u.db = v.db ∧ u.mem = v.mem := by
  obtain ⟨hdbT, hmemT, hfile, hlen, -⟩ := writeBits_placed ht htnone
  obtain ⟨hdbU, hmemU, -⟩ := writeBits_placed hu hunone
  obtain ⟨hdbV, hmemV, -⟩ := writeBits_placed hv hvnone
  have hnbits : nbits l = nbits l1 + nbits l2 := by rw [nbits, hbytes, Nat.mul_add]; rfl
  have hfirst : t.mem = writeStream s l (dataBit s l) (8 * l1.nbytes.toNat) := by
    rw [hmemT, h1.writeStream rfl rfl rfl rfl (by rw [haddr1]; rfl) hwritten (by omega),
      Nat.mul_zero, Nat.zero_add]
    rfl
  refine ⟨by rw [hdbU, hdbT, hdbV], ?_⟩
  rw [hmemU, hmemV, h2.writeStream hfile hlen hfirst hdbT haddr2 hwritten hnbits.ge, hnbits]
  rfl

end

/-- Settles O40, command by command. -/
theorem splitStreamsEqualOne : Obligations.SplitStreamsEqualOne := by
  intro s t u v l i n1 n2 sp2 da2 hi hbytes hpixel hstart haddr hwritten ht htnone hu hunone
    hv hvnone
  have h1 : StartsBehind s l { l with nbytes := n1 } 0 := .of_same s rfl rfl rfl
  have h2 : StartsBehind s l { l with nbytes := n2, startPixel := sp2, dbAddr := da2 } n1.toNat :=
    ⟨hpixel, hstart, rfl, rfl⟩
  have hsame : u.db = v.db ∧ u.mem = v.mem := by
    rcases hi with rfl | rfl
    · exact readBits_split h1 h2 hbytes rfl haddr htnone hunone hvnone ht hu hv
    · exact writeBits_split h1 h2 hbytes rfl haddr htnone hunone hvnone (hwritten rfl) ht hu hv
  obtain ⟨hdb, hmem⟩ := hsame
  exact ⟨fun k => by rw [hdb], fun a => by rw [hmem]⟩

/-! The identity map (R144). -/

section

variable {s : State} {l : Snapshot} (hpos : 1 ≤ l.stride.toNat) (hK : mapK s = 8 * l.stride.toNat)
  (hM : ∀ k, k < 8 * l.stride.toNat → mapEntry s k = k)

include hpos hK hM

theorem identity_addr (j : Nat) : pbAddr l (offsetAt s l j) =
    l.pbBase.toNat + l.startPixel.toNat * l.stride.toNat + j / 8 ∧ bitAt s j = 7 - j % 8 := by
  obtain ⟨ha, hb⟩ := identity_place hpos hK hM j
  exact ⟨by rw [pbAddr, ha, Nat.add_assoc], hb⟩

/-- Output byte `k` is the `k`-th byte from the start pixel on. -/
theorem readByte_identity (k : Nat) : readByte s l k =
    sysRead s.mem (l.pbBase.toNat + l.startPixel.toNat * l.stride.toNat + k) := by
  rw [← packByte_bits (sysRead s.mem _)]
  refine packByte_congr fun i hi => ?_
  obtain ⟨ha, hb⟩ := identity_addr hpos hK hM (8 * k + i)
  rw [pixelBit, ha, hb, Nat.mul_add_div (by decide), Nat.div_eq_of_lt hi, Nat.mul_add_mod,
    Nat.mod_eq_of_lt hi, Nat.add_zero]

end

/-- Settles O41: with the identity map the output bytes of a READ_BITS are buffer bytes, before a
WRITE_BITS and after it. -/
theorem allBitsMapCopiesBytes : Obligations.AllBitsMapCopiesBytes := by
  intro s l h hl hr hK hM hq first
  have hplace := identity_addr hr.stride_pos hK hM
  refine ⟨fun j _ => hplace j, ⟨_, execReadBits_ready hl hr hq, fun k hk => ?_⟩,
    fun D hw hD hholds => ?_⟩
  · rw [finish_db, dbRead_dbFill_inside hk, readByte_identity hr.stride_pos hK hM]
  · obtain ⟨t, ht, hnone⟩ : ∃ t, exec .writeBits s = .next t ∧ t.errcode = .none :=
      ⟨_, execWriteBits_ready hl hr hq hw, rfl⟩
    obtain ⟨hfile, hlen, -⟩ := (execWriteBits_sameUnits hl ht).toSameMap
    obtain ⟨-, -, -, hother⟩ := writeBitsFrame s t l hl ht
    refine ⟨t, ht, fun k hk => ?_, fun a ha => hother a fun j hj => ?_⟩
    · have hb := List.getElem?_eq_getElem (hD.symm ▸ hk : k < D.length)
      have hKt : mapK t = 8 * l.stride.toNat := by rw [← hK, mapK, hlen, mapK]
      rw [hb, ← readByte_identity hr.stride_pos hKt (by rwa [mapEntry_congr hfile]),
        readByte_writeBits h hl ht hnone hk ((hholds k (by omega)).trans hb)]
    · rw [(hplace j).1]
      simp only [nbits] at hj
      omega

end Sys2Proof.Machine
end

section
/-! The CRC unit (spec/42_crc.md R160 to R169): the feed in the ring of remainders, the bytes of a word
fed to a state, what the feed keeps apart, and the three commands. -/

namespace Sys2Proof.Machine

/-! `CrcFeed` as a remainder of polynomials over GF(2) (R160, R161). -/

section

open Polynomial

/-- The polynomial whose coefficients are the bits of a word. -/
noncomputable def bitsPoly {w : Nat} (c : BitVec w) : (ZMod 2)[X] :=
  ∑ i ∈ Finset.range w, if c.getLsbD i then X ^ i else 0

/-- The polynomial of a byte string read MSB-first. -/
noncomputable def streamPoly (D : List Byte) : (ZMod 2)[X] :=
  ∑ j ∈ Finset.range (8 * D.length), if streamBit D j then X ^ (8 * D.length - 1 - j) else 0

/-- x^32 + 0x04C11DB7. -/
noncomputable def crcModulus : (ZMod 2)[X] := X ^ 32 + bitsPoly crcPoly

/-- The class of a polynomial modulo `crcModulus`. -/
noncomputable def crcClass : (ZMod 2)[X] →+* AdjoinRoot crcModulus := AdjoinRoot.mk crcModulus

theorem crcClass_eq_iff (p q : (ZMod 2)[X]) :
    crcClass p = crcClass q ↔ ∃ r, p = q + r * crcModulus := by
  rw [crcClass, AdjoinRoot.mk_eq_mk, dvd_iff_exists_eq_mul_left]
  exact exists_congr fun r => sub_eq_iff_eq_add'

theorem bitsPoly_xor {w : Nat} (a b : BitVec w) : bitsPoly (a ^^^ b) = bitsPoly a + bitsPoly b := by
  rw [bitsPoly, bitsPoly, bitsPoly, ← Finset.sum_add_distrib]
  refine Finset.sum_congr rfl fun i _ => ?_
  rw [BitVec.getLsbD_xor]
  cases a.getLsbD i <;> cases b.getLsbD i <;> simp [CharTwo.add_self_eq_zero]

/-- A byte placed at the top of a word (R161). -/
theorem bitsPoly_top (x : Byte) : bitsPoly (x.setWidth 32 <<< 24) = bitsPoly x * X ^ 24 := by
  rw [bitsPoly, bitsPoly, Finset.sum_mul, Finset.sum_range_add _ 24 8,
    Finset.sum_eq_zero fun i hi => ?_, zero_add]
  · refine Finset.sum_congr rfl fun i hi => ?_
    have hi8 : i < 8 := Finset.mem_range.mp hi
    have hbit : (x.setWidth 32 <<< 24).getLsbD (24 + i) = x.getLsbD i := by
      simp [show 24 + i < 32 by omega]
    rw [hbit, ite_mul, zero_mul, ← pow_add, add_comm]
  · have hi24 : i < 24 := Finset.mem_range.mp hi
    simp [BitVec.getLsbD_shiftLeft, hi24]

/-- Multiplying by x shifts the word; its top bit becomes x^32. -/
theorem bitsPoly_mul_X (c : Word) :
    bitsPoly c * X = bitsPoly (c <<< 1) + if c.getLsbD 31 then X ^ 32 else 0 := by
  have hlow : (c <<< 1).getLsbD 0 = false := by simp
  have hnext : ∀ i ∈ Finset.range 31, (if (c <<< 1).getLsbD (i + 1) then X ^ (i + 1) else 0) =
      (if c.getLsbD i then X ^ (i + 1) else 0 : (ZMod 2)[X]) := fun i hi => by
    have hi31 : i < 31 := Finset.mem_range.mp hi
    rw [BitVec.getLsbD_shiftLeft]
    simp [show i + 1 < 32 by omega]
  rw [bitsPoly, bitsPoly, Finset.sum_mul, Finset.sum_range_succ _ 31, Finset.sum_range_succ' _ 31,
    Finset.sum_congr rfl hnext, hlow]
  simp only [ite_mul, zero_mul, ← pow_succ, Bool.false_eq_true, if_false, add_zero]

/-- A round multiplies by x modulo the polynomial. -/
theorem crcClass_crcRound (c : Word) :
    crcClass (bitsPoly (crcRound c)) = crcClass (bitsPoly c * X) := by
  rw [crcClass_eq_iff, bitsPoly_mul_X, crcRound]
  cases c.getLsbD 31 with
  | false => exact ⟨0, by simp⟩
  | true =>
    refine ⟨1, ?_⟩
    have htwo : (X ^ 32 + X ^ 32 : (ZMod 2)[X]) = 0 := CharTwo.add_self_eq_zero _
    simp only [if_true, bitsPoly_xor, crcModulus]
    linear_combination -htwo

theorem crcClass_crcRounds (n : Nat) (c : Word) :
    crcClass (bitsPoly (crcRounds n c)) = crcClass (bitsPoly c * X ^ n) := by
  induction n generalizing c with
  | zero => rw [crcRounds, pow_zero, mul_one]
  | succ n ih => rw [crcRounds, ih, map_mul, crcClass_crcRound, ← map_mul, mul_assoc, ← pow_succ']

theorem crcClass_crcStep (c : Word) (x : Byte) :
    crcClass (bitsPoly (crcStep c x)) = crcClass (bitsPoly c * X ^ 8 + bitsPoly x * X ^ 32) := by
  rw [crcStep, crcClass_crcRounds, bitsPoly_xor, bitsPoly_top, add_mul, mul_assoc, ← pow_add]

theorem streamBit_cons_head (x : Byte) (D : List Byte) {j : Nat} (hj : j < 8) :
    streamBit (x :: D) j = x.getLsbD (8 - 1 - j) := by
  rw [streamBit, Nat.div_eq_of_lt hj, Nat.mod_eq_of_lt hj, List.getD_cons_zero]

theorem streamBit_cons_tail (x : Byte) (D : List Byte) (j : Nat) :
    streamBit (x :: D) (8 + j) = streamBit D j := by
  rw [streamBit, streamBit, Nat.add_div_left _ (by decide), Nat.add_mod_left, List.getD_cons_succ]

theorem streamPoly_cons (x : Byte) (D : List Byte) :
    streamPoly (x :: D) = bitsPoly x * X ^ (8 * D.length) + streamPoly D := by
  rw [streamPoly, List.length_cons, Nat.mul_succ, Nat.add_comm _ 8, Finset.sum_range_add]
  congr 1
  · rw [bitsPoly, ← Finset.sum_range_reflect (fun i => if x.getLsbD i then X ^ i else 0),
      Finset.sum_mul]
    refine Finset.sum_congr rfl fun j hj => ?_
    have hj8 : j < 8 := Finset.mem_range.mp hj
    rw [streamBit_cons_head x D hj8, ite_mul, zero_mul, ← pow_add]
    congr 2
    omega
  · refine Finset.sum_congr rfl fun j _ => ?_
    rw [streamBit_cons_tail]
    congr 2
    omega

theorem crcClass_crcFeed (c : Word) (D : List Byte) : crcClass (bitsPoly (crcFeed c D)) =
    crcClass (bitsPoly c * X ^ (8 * D.length) + streamPoly D * X ^ 32) := by
  induction D generalizing c with
  | nil => simp [crcFeed_nil, streamPoly]
  | cons x D ih =>
    rw [crcFeed_cons, ih, map_add, map_mul, crcClass_crcStep, ← map_mul, ← map_add, streamPoly_cons,
      List.length_cons, Nat.mul_succ]
    ring_nf

/-- Settles O45: the feed in the ring of classes, by induction on the string. -/
theorem crcIsPolynomialRemainder : Obligations.CrcIsPolynomialRemainder := by
  intro c D
  have h := (crcClass_eq_iff _ _).mp (crcClass_crcFeed c D)
  simp only [bitsPoly, streamPoly, crcModulus, crcPoly] at h
  exact h

end

/-! The bytes of a word fed to a state (R168). -/

/-- A word is its top byte and the rest. -/
theorem word_eq_top_xor (w : Word) :
    w = (w.extractLsb' 24 8).setWidth 32 <<< 24 ^^^ (w.extractLsb' 0 24).setWidth 32 := by
  refine BitVec.eq_of_getLsbD_eq fun i hi => ?_
  rw [BitVec.getLsbD_xor, BitVec.getLsbD_shiftLeft, BitVec.getLsbD_setWidth, BitVec.getLsbD_setWidth,
    BitVec.getLsbD_extractLsb', BitVec.getLsbD_extractLsb']
  by_cases h24 : i < 24
  · simp [h24, hi]
  · simp [h24, hi, show 24 + (i - 24) = i by omega, show i - 24 < 8 by omega,
      show i - 24 < 32 by omega]

/-- Moving a word up by a byte drops its top byte. -/
theorem shiftLeft_eight_eq (w : Word) : (w.extractLsb' 0 24).setWidth 32 <<< 8 = w <<< 8 := by
  refine BitVec.eq_of_getLsbD_eq fun i hi => ?_
  rw [BitVec.getLsbD_shiftLeft, BitVec.getLsbD_shiftLeft, BitVec.getLsbD_setWidth,
    BitVec.getLsbD_extractLsb']
  simp [hi, show i - 8 < 24 by omega, show i - 8 < 32 by omega]

/-- Eight rounds on `c ^^^ w` feed the top byte of `w` to `c` and move up the rest of `w`. -/
theorem crcRounds_eight_xor (c w : Word) :
    crcRounds 8 (c ^^^ w) = crcStep c (w.extractLsb' 24 8) ^^^ w <<< 8 := by
  have hsmall : ((w.extractLsb' 0 24).setWidth 32).toNat < 2 ^ (32 - 8) := by
    rw [BitVec.toNat_setWidth_of_le (by decide)]
    exact BitVec.isLt _
  conv_lhs => rw [word_eq_top_xor w]
  rw [← BitVec.xor_assoc, crcRounds_xor, crcRounds_small 8 (BitVec.setWidth 32 _) (Nat.le_refl 8)
    hsmall, shiftLeft_eight_eq, crcStep]

/-- The four bytes of a word, bits 31:24 first. -/
theorem crcFeed_wordBytes (c w : Word) :
    crcFeed c [w.extractLsb' 24 8, w.extractLsb' 16 8, w.extractLsb' 8 8, w.extractLsb' 0 8] =
      crcRounds 32 (c ^^^ w) := by
  have hbyte : ∀ k, k ≤ 24 → (w <<< k).extractLsb' 24 8 = w.extractLsb' (24 - k) 8 := by
    intro k hk
    refine BitVec.eq_of_getLsbD_eq fun i hi => ?_
    rw [BitVec.getLsbD_extractLsb', BitVec.getLsbD_extractLsb', BitVec.getLsbD_shiftLeft]
    simp [show 24 + i < 32 by omega, show ¬ 24 + i < k by omega,
      show 24 + i - k = 24 - k + i by omega]
  calc crcFeed c [w.extractLsb' 24 8, w.extractLsb' 16 8, w.extractLsb' 8 8, w.extractLsb' 0 8]
      = crcRounds 8 (crcRounds 8 (crcRounds 8 (crcRounds 8 (c ^^^ w)))) := by
        simp only [crcRounds_eight_xor, ← BitVec.shiftLeft_add, Nat.reduceAdd, hbyte,
          Nat.reduceLeDiff, Nat.reduceSub]
        simp [crcFeed]
    _ = crcRounds 32 (c ^^^ w) := by simp only [← crcRounds_add, Nat.reduceAdd]

theorem crcRounds_xorOut : crcRounds 32 crcXorOut = 0xC704DD7B#32 := by
  simp [crcRounds, crcRound, crcPoly, crcXorOut]

/-- Settles O50: behind the string the state is `c`, and its checksum turns it into xorout. -/
theorem checksumBehindItsStringLeavesResidue :
    Obligations.ChecksumBehindItsStringLeavesResidue := by
  intro D v
  have hv : crcFeed crcInitValue D ^^^ v = crcXorOut := by
    rw [show v = crcFeed crcInitValue D ^^^ crcXorOut from rfl, ← BitVec.xor_assoc, BitVec.xor_self,
      BitVec.zero_xor]
  rw [crcFeed_append, crcFeed_wordBytes]
  exact (congrArg (crcRounds 32) hv).trans crcRounds_xorOut

theorem cksum_check :
    cksum [0x31, 0x32, 0x33, 0x34, 0x35, 0x36, 0x37, 0x38, 0x39] = 0x765E7680#32 := by
  simp [cksum, crcFeed, crcStep, crcRounds, crcRound, crcPoly, crcInitValue, crcXorOut]

/-- Settles O44: the check value by running the rounds, its residue as that of every string. -/
theorem crcCatalogueValues : Obligations.CrcCatalogueValues := by
  have hresidue := checksumBehindItsStringLeavesResidue
    [0x31, 0x32, 0x33, 0x34, 0x35, 0x36, 0x37, 0x38, 0x39]
  rw [cksum_check] at hresidue
  exact ⟨cksum_check, hresidue⟩

/-! What the feed keeps apart (R169). -/

theorem crcStep_inj_state {a b : Word} {x : Byte} (h : crcStep a x = crcStep b x) : a = b :=
  (BitVec.xor_left_inj _).mp (crcRounds_inj h)

theorem crcStep_inj_byte {c : Word} {x y : Byte} (h : crcStep c x = crcStep c y) : x = y := by
  have htop : x.setWidth 32 <<< 24 = y.setWidth 32 <<< 24 :=
    (BitVec.xor_right_inj c).mp (crcRounds_inj h)
  bv_omega

theorem crcFeed_inj_state {a b : Word} {D : List Byte} (h : crcFeed a D = crcFeed b D) : a = b := by
  induction D generalizing a b with
  | nil => exact h
  | cons x D ih => exact crcStep_inj_state (ih h)

theorem cksum_inj_byte {A B : List Byte} {x y : Byte} (h : cksum (A ++ x :: B) = cksum (A ++ y :: B)) :
    x = y := by
  have hfeed := (BitVec.xor_left_inj _).mp h
  rw [crcFeed_append, crcFeed_append, crcFeed_cons, crcFeed_cons] at hfeed
  exact crcStep_inj_byte (crcFeed_inj_state hfeed)

/-- Settles O51: a flipped bit is a changed byte. -/
theorem crcDetectsByteChange : Obligations.CrcDetectsByteChange := by
  refine ⟨fun A B x y hne h => hne (cksum_inj_byte h), fun A B x i hi h => ?_⟩
  have hbit := congrArg (BitVec.getLsbD · i) (cksum_inj_byte h)
  simp [hi] at hbit

/-! The commands (R163 to R167). -/

/-- The checksum of nothing (R164). -/
theorem crcValue_init {s : State} (h : s.crcState = crcInitValue) : crcValue s = 0xFFFFFFFF#32 := by
  rw [crcValue, h, crcInitValue, crcXorOut, BitVec.zero_xor]

/-- Settles O46, by `execCrcInit_eq`. -/
theorem crcInitStartsAChecksum : Obligations.CrcInitStartsAChecksum :=
  ⟨by decide, fun _ _ hl => ⟨_, execCrcInit_eq hl, rfl, crcValue_init rfl⟩⟩

/-- The check of R163. -/
theorem feedDb_past {c : Word} {l : Snapshot} {s : State} (h : dbSize s < dbEnd l) :
    feedDb c l s = .next (finish l .dataBounds (dbEndInfo l) s) := by
  rcases feedDb_cases c l s with ⟨-, e⟩ | ⟨hle, -⟩
  · exact e
  · omega

/-- A feed that completes with NONE has passed the check, and leaves its string fed from `c`. -/
theorem feedDb_none {c : Word} {l : Snapshot} {s t : State} {D : List Byte}
    (hD : D.length = l.nbytes.toNat) (hholds : DbHolds s.db l.dbAddr.toNat D)
    (h : feedDb c l s = .next t) (hnone : t.errcode = .none) : t.crcState = crcFeed c D := by
  rcases feedDb_cases c l s with ⟨-, e⟩ | ⟨hle, -⟩
  · cases e.symm.trans h
    cases hnone
  · cases (feedDb_holds hle hD hholds).symm.trans h
    rfl

/-- A byte 0x00 keeps state 0 (R165). -/
theorem crcFeed_zeros (n : Nat) : crcFeed 0 (List.replicate n 0) = 0 := by
  induction n with
  | zero => rfl
  | succ n ih =>
    rw [List.replicate_succ, crcFeed_cons, show crcStep 0 0 = 0 by decide, ih]

/-- Settles O47: the check and the feed of CRC_UPDATE are `feedDb`'s. -/
theorem crcUpdateFeedsDb : Obligations.CrcUpdateFeedsDb := by
  refine ⟨by decide, fun s l hl => ⟨fun hpast => ?_, fun D hle hD hholds => ?_⟩, crcFeed_nil,
    fun n D => by rw [crcFeed_append, crcFeed_zeros]⟩
  · exact (execCrcUpdate_eq hl).trans (feedDb_past hpast)
  · exact (execCrcUpdate_eq hl).trans (feedDb_holds hle hD hholds)

/-- Settles O48: the check and the feed of CRC_COMPUTE are `feedDb`'s; the empty string leaves
the init value. -/
theorem crcComputeFeedsFromInit : Obligations.CrcComputeFeedsFromInit := by
  refine ⟨by decide, fun s l hl => ⟨fun hpast => ?_, fun D hle hD hholds => ?_⟩⟩
  · exact (execCrcCompute_eq hl).trans (feedDb_past hpast)
  · refine ⟨_, (execCrcCompute_eq hl).trans (feedDb_holds hle hD hholds), rfl, rfl, fun h0 => ?_⟩
    obtain rfl : D = [] := List.eq_nil_of_length_eq_zero (hD.trans h0)
    exact crcValue_init rfl

/-- Settles O49: each command's feed (`feedDb_none`), joined by `crcFeed_append`. -/
theorem crcChains : Obligations.CrcChains := by
  refine ⟨fun c A B => (crcFeed_append c A B).symm, ?_⟩
  intro s t u v l l' A B hl hA hholdsA ht htnone hkept hl' hB hholdsB hv hvnone
  have htcrc := feedDb_none hA hholdsA ((execCrcCompute_eq hl).symm.trans ht) htnone
  have hvcrc := feedDb_none hB hholdsB ((execCrcUpdate_eq hl').symm.trans hv) hvnone
  have hjoined : v.crcState = crcFeed crcInitValue (A ++ B) := by
    rw [hvcrc, hkept, htcrc, crcFeed_append]
  exact ⟨hjoined, congrArg (· ^^^ crcXorOut) hjoined⟩

end Sys2Proof.Machine
end

section
/-! Stepping and completion (spec/60_exceptions.md R183 to R190): whose meaning a step is, how a
completion can end, what a bus error leaves behind, and the interrupt output. -/

namespace Sys2Proof.Machine

/-! The step and the pending command (R183, R198). -/

theorem blockStep_decoded {s : State} {l : Snapshot} {i : Instr} (hl : s.seq = .busy l)
    (hd : decode l.cmd = .ok i) : blockStep s = exec i s := by
  simp only [blockStep, hl, hd]

/-- With no act queued the block has the turn. -/
theorem step_noInput {s : State} (hin : s.inputs = []) : step s = blockStep s := by
  simp only [step, turn, hin]

/-- A turn given to the block is taken from the queue first. -/
theorem step_blockEvent {s : State} {r : List Event} (hin : s.inputs = .block :: r) :
    step s = blockStep { s with inputs := r } := by
  simp [step, turn, hin, touchesWindow, act, popInput]

theorem decode_of_decodeTableWord {n w : Nat} {i : Instr} (h : decodeTableWord n w = some i) :
    decode (BitVec.ofNat 32 (w % 2 ^ n)) = .ok i := by
  unfold decodeTableWord at h
  split at h
  · split at h
    · next j hd =>
      cases h
      exact hd
    · cases h
  · cases h

theorem withFetchWord_seq (s : State) (n w : Nat) :
    (s.withFetchWord n w).seq = .busy (latch (BitVec.ofNat 32 (w % 2 ^ n)) s) := rfl

/-- Settles O3: each shape of the queue gives the block the turn, and the turn is the decoded
command. -/
theorem stepRunsDecodedCommand : Obligations.StepRunsDecodedCommand := by
  refine ⟨fun s l i hl hd => ⟨fun hin => ?_, fun r hin => ?_, fun e r hin he => ?_⟩,
    fun s w i hin hw => ?_⟩
  · exact (step_noInput hin).trans (blockStep_decoded hl hd)
  · exact (step_blockEvent hin).trans (blockStep_decoded (s := { s with inputs := r }) hl hd)
  · exact (step_held (isBusy_busy hl) hin he).trans (blockStep_decoded hl hd)
  · have hin' : (s.withFetchWord 32 w).inputs = [] := by simp only [State.withFetchWord, hin]
    exact (step_noInput hin').trans
      (blockStep_decoded (withFetchWord_seq s 32 w) (decode_of_decodeTableWord hw))

/-! How a completion can end (R186, R187). -/

/-- The ways in which the completion of the command `l` on the state `s` can end: normally, with
BUS_ERROR, or with another error that leaves all but an invalidated map as it was. -/
inductive Ending (s : State) (l : Snapshot) : State → Prop where
  | normal (u : State) : Ending s l (finish l .none 0 u)
  | busError (info : Word) (u : State) : Ending s l (finish l .busError info u)
  | failed {code : ErrCode} (info : Word) (hcode : code ≠ .none) :
      Ending s l (finish l code info s)
  | mapFailed {code : ErrCode} (info : Word) (hcode : code ≠ .none)
      (hcmd : l.cmd = encode .mapBuild) : Ending s l (finish l code info (invalidateMap s))

theorem feedDb_ending {c : Word} {l : Snapshot} {s t : State} (h : feedDb c l s = .next t) :
    Ending s l t := by
  rcases feedDb_cases c l s with ⟨-, e⟩ | ⟨-, e⟩ <;> cases e.symm.trans h
  · exact .failed _ nofun
  · exact .normal _

section

variable {s t : State} {l : Snapshot} (hl : s.seq = .busy l)

include hl

theorem execMapBuild_ending (hcmd : l.cmd = encode .mapBuild) (h : execMapBuild s = .next t) :
    Ending s l t := by
  rcases execMapBuild_cases hl with ⟨-, e⟩ | ⟨-, -, e⟩ | ⟨-, -, e⟩ <;> cases e.symm.trans h
  · exact .mapFailed _ nofun hcmd
  · exact .mapFailed _ nofun hcmd
  · exact .normal _

theorem execReadBits_ending (h : execReadBits s = .next t) : Ending s l t := by
  rcases execReadBits_cases hl with ⟨_, _, hc, e⟩ | ⟨-, e⟩ | ⟨-, -, e⟩ | ⟨-, _, -, -, e⟩ <;>
    cases e.symm.trans h
  · exact .failed _ (checkChannel_error_ne_none hc)
  · exact .normal _
  · exact .normal _
  · exact .busError _ _

theorem execWriteBits_ending (h : execWriteBits s = .next t) : Ending s l t := by
  rcases execWriteBits_cases hl with ⟨_, _, hc, e⟩ | ⟨-, e⟩ | ⟨-, -, -, e⟩ | ⟨-, _, -, -, e⟩ <;>
    cases e.symm.trans h
  · exact .failed _ (checkChannel_error_ne_none hc)
  · exact .normal _
  · exact .normal _
  · exact .busError _ _

theorem exec_ending {i : Instr} (hcmd : l.cmd = encode i) (h : exec i s = .next t) :
    Ending s l t := by
  cases i with
  | mapBuild => exact execMapBuild_ending hl hcmd h
  | readBits => exact execReadBits_ending hl h
  | writeBits => exact execWriteBits_ending hl h
  | crcInit =>
    cases (execCrcInit_eq hl).symm.trans h
    exact .normal _
  | crcUpdate => exact feedDb_ending ((execCrcUpdate_eq hl).symm.trans h)
  | crcCompute => exact feedDb_ending ((execCrcCompute_eq hl).symm.trans h)

/-- Every pending word, legal or not, ends in one of these ways. -/
theorem blockStep_ending (h : blockStep s = .next t) : Ending s l t := by
  rcases blockStep_cases s with ⟨hidle, -⟩ | ⟨l', i, hl', hcmd, e⟩ | ⟨l', hl', -, e⟩
  · cases hl.symm.trans hidle
  · cases hl.symm.trans hl'
    exact exec_ending hl hcmd (e.symm.trans h)
  · cases hl.symm.trans hl'
    cases e.symm.trans h
    exact .failed _ nofun

end

theorem Ending.errInfo_of_none {s t : State} {l : Snapshot} (h : Ending s l t)
    (hnone : t.errcode = .none) : t.errInfo = 0 := by
  cases h with
  | normal u => rfl
  | busError info u => cases hnone
  | failed info hcode => exact absurd hnone hcode
  | mapFailed info hcode hcmd => exact absurd hnone hcode

/-- Settles O53: `finish` writes the registers, and `blockStep_ending` says where ERR_INFO is 0. -/
theorem completionWritesTheRegisters : Obligations.CompletionWritesTheRegisters := by
  intro s t l hl h
  have hinfo := (blockStep_ending hl h).errInfo_of_none
  obtain ⟨hbusy, hdone, herr, -⟩ := statusWordWith_bits t.mapValid t
  obtain ⟨code, info, u, rfl, hu⟩ := blockStep_next_finish hl h
  refine ⟨rfl, hbusy, hdone, rfl, rfl, hinfo, ?_, ?_, ?_⟩
  · rw [finish_ie, hu]
  · rw [finish_ovr, hu]
  · rw [statusWord, herr, errFlag_eq_true]

/-- Settles O55, by the ways of ending: those with an error other than BUS_ERROR change the
completion registers alone, or those and the map that a MAP_BUILD has cleared. -/
theorem failedCommandWritesNothing : Obligations.FailedCommandWritesNothing := by
  intro s t l hl h herr hbus
  cases blockStep_ending hl h with
  | normal u => exact absurd rfl herr
  | busError info u => exact absurd rfl hbus
  | failed info hcode => exact ⟨fun _ => rfl, fun _ => rfl, rfl, .inl ⟨rfl, rfl, rfl⟩⟩
  | mapFailed info hcode hcmd =>
    exact ⟨fun _ => rfl, fun _ => rfl, rfl, .inr ⟨hcmd, rfl, rfl, mapEntry_invalidateMap s⟩⟩

/-! BUS_ERROR (R188). -/

/-- A footprint offset of a command that passes the checks fits the information word. -/
theorem ChannelReady.errInfo_offset {s : State} {l : Snapshot} (hr : ChannelReady s l)
    (hm : MapOk s) {j : Nat} (hj : j < nbits l) :
    (BitVec.ofNat 32 (offsetAt s l j)).toNat = offsetAt s l j := by
  have hlt := hr.offset_lt hm hj
  have hlen := l.pbLen.isLt
  rw [BitVec.toNat_ofNat, Nat.mod_eq_of_lt (by omega)]

section

variable {s : State} {l : Snapshot} (hl : s.seq = .busy l) (hr : ChannelReady s l)

include hl hr

/-- A READ_BITS that passes the checks and whose read fails somewhere ends with BUS_ERROR. -/
theorem execReadBits_busError (hfail : ¬ BusQuiet s l .read) :
    ∃ j, j < nbits l ∧ busError s.params (pbAddr l (offsetAt s l j)) .read = true ∧
      execReadBits s = .next (finish l .busError (BitVec.ofNat 32 (offsetAt s l j))
        (scrambleDb l s)) := by
  have hc := checkChannel_access.mpr hr
  rcases execReadBits_cases hl with ⟨_, _, h, -⟩ | ⟨h, -⟩ | ⟨-, hq, -⟩ | ⟨-, hbus⟩
  · cases hc.symm.trans h
  · cases hc.symm.trans h
  · exact absurd hq hfail
  · exact hbus

/-- The same of a WRITE_BITS, whose read or write fails somewhere (log 14). -/
theorem execWriteBits_busError (hfail : ¬ (BusQuiet s l .read ∧ BusQuiet s l .write)) :
    ∃ j, j < nbits l ∧ (busError s.params (pbAddr l (offsetAt s l j)) .read = true ∨
        busError s.params (pbAddr l (offsetAt s l j)) .write = true) ∧
      execWriteBits s = .next (finish l .busError (BitVec.ofNat 32 (offsetAt s l j))
        (scramblePb l s)) := by
  have hc := checkChannel_access.mpr hr
  rcases execWriteBits_cases hl with ⟨_, _, h, -⟩ | ⟨h, -⟩ | ⟨-, hq, hw, -⟩ | ⟨-, hbus⟩
  · cases hc.symm.trans h
  · cases hc.symm.trans h
  · exact absurd ⟨hq, hw⟩ hfail
  · exact hbus

end

/-- Where DB holds the whole output range, a scramble writes all of it and nothing else. -/
theorem dbRead_scrambleDb {s : State} {l : Snapshot}
    (hfits : l.dbAddr.toNat + l.nbytes.toNat ≤ dbSize s) (k : Nat) :
    dbRead (scrambleDb l s).db k =
      if l.dbAddr.toNat ≤ k ∧ k < l.dbAddr.toNat + l.nbytes.toNat then
        some (Config.freeByte s.draws (k - l.dbAddr.toNat)) else dbRead s.db k := by
  rw [scrambleDb_db, dbRead_dbFill, Nat.min_eq_left (by omega)]

/-- A failing access breaks the quiet of its kind. -/
theorem not_busQuiet {s : State} {l : Snapshot} {kind : Config.AccessKind} {j : Nat}
    (hj : j < nbits l) (h : busError s.params (pbAddr l (offsetAt s l j)) kind = true) :
    ¬ BusQuiet s l kind := fun hq => by
  cases h.symm.trans (hq j hj)

/-- Settles O42: what a READ_BITS leaves is `scrambleDb`'s, what a WRITE_BITS leaves
`scramblePb`'s. -/
theorem busErrorLeavesOldOrNew : Obligations.BusErrorLeavesOldOrNew := by
  intro s l hinv hl hr fails
  refine ⟨fun ⟨j₀, hj₀, hfail⟩ => ?_, fun ⟨j₀, hj₀, hfail⟩ => ?_⟩
  · obtain ⟨j, hj, hbus, e⟩ := execReadBits_busError hl hr (not_busQuiet hj₀ hfail)
    refine ⟨_, e, rfl, ⟨j, hj, hbus, hr.errInfo_offset hinv.map hj⟩, fun k hlo hhi => ?_,
      fun k hk => ?_, fun _ => rfl⟩
    · rw [finish_db, dbRead_scrambleDb hr.dbFits, if_pos ⟨hlo, hhi⟩]
      exact Option.some_ne_none _
    · rw [finish_db, dbRead_scrambleDb hr.dbFits, if_neg hk]
  · have hnoisy : ¬ (BusQuiet s l .read ∧ BusQuiet s l .write) := fun ⟨hq, hw⟩ =>
      hfail.elim (fun h => not_busQuiet hj₀ h hq) (fun h => not_busQuiet hj₀ h hw)
    obtain ⟨j, hj, hbus, e⟩ := execWriteBits_busError hl hr hnoisy
    exact ⟨_, e, rfl, ⟨j, hj, hbus, hr.errInfo_offset hinv.map hj⟩,
      footprint_scramblePb hinv.mem.1 hinv.map hr rfl, fun _ => rfl⟩

/-! The interrupt output (R190). -/

theorem irq_of_not_ie {s : State} (h : s.ie = false) : irq s = false := by
  rw [irq, h, Bool.false_and]

theorem irq_of_not_done {s : State} (h : s.done = false) : irq s = false := by
  rw [irq, h, Bool.and_false]

/-- A completion sets DONE and keeps IE. -/
theorem irq_of_completion {s t : State} (hb : isBusy s = true) (h : blockStep s = .next t) :
    irq t = s.ie := by
  obtain ⟨l, hl⟩ := isBusy_eq_true.mp hb
  obtain ⟨code, info, u, rfl, hu⟩ := blockStep_next_finish hl h
  rw [irq, finish_done, Bool.and_true, finish_ie, hu]

/-- Settles O15: a completion by `irq_of_completion`; each register write by what it does to IE or
DONE; a reset clears both. -/
theorem irqFollowsIeAndDone : Obligations.IrqFollowsIeAndDone := by
  intro s
  have hctrl : ∀ v, hostWrite .word 0x004#17 v s = .next (writeCtrl v s) := fun v =>
    hostWrite_register v s (by decide) (by decide)
  have hstatus : ∀ v, hostWrite .word 0x008#17 v s =
      .next (acknowledge (v.getLsbD 1) (v.getLsbD 3) s) := fun v =>
    hostWrite_register v s (by decide) (by decide)
  have hcmd : ∀ w, hostWrite .word 0x00C#17 w s = .next (writeCmd w s) := fun w =>
    hostWrite_register w s (by decide) (by decide)
  have hreset : ∀ v t, v.getLsbD 1 = true → hostWrite .word 0x004#17 v s = .next t →
      irq t = false := fun v t hv h => by
    cases (hctrl v).symm.trans h
    rw [writeCtrl_softReset hv]
    exact irq_of_not_ie rfl
  refine ⟨Bool.and_eq_true_iff, fun t hb h => irq_of_completion hb h, fun v t hdone hset hv h => ?_,
    fun v t hv h => ?_, fun v t hclear h => ?_, hreset, fun w t hidle h => ?_, irq_of_not_ie rfl⟩
  · cases (hctrl v).symm.trans h
    rw [writeCtrl_ie hv, irq, hset, hdone, Bool.and_true]
  · cases (hstatus v).symm.trans h
    exact irq_of_not_done (by rw [hv, acknowledge_done, Bool.not_true, Bool.and_false])
  · cases hv : v.getLsbD 1 with
    | true => exact hreset v t hv h
    | false =>
      cases (hctrl v).symm.trans h
      rw [writeCtrl_ie hv]
      exact irq_of_not_ie hclear
  · cases (hcmd w).symm.trans h
    rw [writeCmd_idle hidle]
    exact irq_of_not_done rfl

end Sys2Proof.Machine
end

section
/-! Resets, reads of unwritten DB bytes and the bounded completion of a pending command
(spec/70_reset_and_hazards.md R210 to R212, R222). -/

namespace Sys2Proof.Machine

/-! Soft reset and power-on reset (R210, R211). -/

theorem abortEffect_params (s : State) : (abortEffect s).params = s.params := by
  rw [abortEffect_frame]

theorem abortEffect_inputs (s : State) : (abortEffect s).inputs = s.inputs := by
  rw [abortEffect_frame]

theorem abortEffect_replies (s : State) : (abortEffect s).replies = s.replies := by
  rw [abortEffect_frame]

/-- A soft reset leaves of the old state the parameters, the memories and the model's own record. -/
theorem softReset_eq (s : State) : softReset s = { State.reset with
    params := s.params, db := (softReset s).db, mem := (softReset s).mem, inputs := s.inputs,
    replies := s.replies, faults := (softReset s).faults, draws := (softReset s).draws } := by
  simp only [softReset, clearBlock, abortEffect_params, abortEffect_inputs, abortEffect_replies]

/-- A power-on reset takes the values of DB away as well. -/
theorem powerOnReset_eq (s : State) : powerOnReset s = { State.reset with
    params := s.params, mem := (powerOnReset s).mem, inputs := s.inputs, replies := s.replies,
    faults := (powerOnReset s).faults, draws := (powerOnReset s).draws } := by
  rw [powerOnReset, softReset_eq]
  rfl

theorem hostWrite_softReset {v : Word} (hv : v.getLsbD 1 = true) (s : State) :
    hostWrite .word 0x004#17 v s = .next (softReset s) := by
  rw [hostWrite_register v s (by decide) (by decide), ← writeCtrl_softReset hv s]
  rfl

/-- A power-on event at the head of the inputs is never held, BUSY or not. -/
theorem step_powerOn {s : State} {r : List Event} (hin : s.inputs = .powerOn :: r) :
    step s = .next (powerOnReset { s with inputs := r }) := by
  simp [step, turn, hin, touchesWindow, act, popInput]

/-- A scramble writes each byte of the output range that exists (R211; log 11). -/
theorem dbRead_scrambleDb_existing {s : State} {l : Snapshot} {k : Nat} (hlo : l.dbAddr.toNat ≤ k)
    (hhi : k < dbEnd l) (hk : k < dbSize s) : dbRead (scrambleDb l s).db k ≠ none := by
  have hin : k < l.dbAddr.toNat + min l.nbytes.toNat (dbSize s - l.dbAddr.toNat) := by
    rw [dbEnd] at hhi
    omega
  rw [scrambleDb_db, dbRead_dbFill, if_pos ⟨hlo, hin⟩]
  exact Option.some_ne_none _

/-- A scramble changes no byte outside the output range. -/
theorem dbRead_scrambleDb_outside {s : State} {l : Snapshot} {k : Nat}
    (hk : ¬ (l.dbAddr.toNat ≤ k ∧ k < dbEnd l)) :
    dbRead (scrambleDb l s).db k = dbRead s.db k := by
  rw [scrambleDb_db]
  exact dbRead_dbFill_outside (Nat.min_le_left ..) hk

/-- Settles O17: the registers by `softReset_eq`, DB, system memory and the faults by
`abortEffect_reads`, the command that was aborted by the command that was pending. -/
theorem softResetClearsAndAborts : Obligations.SoftResetClearsAndAborts := by
  intro s v hinv hv
  obtain ⟨hdb, hmem, hread, hwrite⟩ := abortEffect_reads (s := s) (t := softReset s) rfl rfl rfl
  refine ⟨softReset s, hostWrite_softReset hv s, softReset_eq s, fun hp k => ?_, fun hp => ?_,
    fun l hl hp k => ?_, fun l hl hp => ?_⟩
  · rw [hdb hp]
  · obtain ⟨hm, hf⟩ := hmem hp
    exact ⟨hf, fun a => by rw [hm]⟩
  · rw [hread l hl hp]
    exact ⟨fun ⟨hlo, hhi, hk⟩ => dbRead_scrambleDb_existing hlo hhi hk, dbRead_scrambleDb_outside⟩
  · obtain ⟨hfoot, hf⟩ := hwrite l hl hp
    exact ⟨hfoot hinv.mem.1 hinv.map, hf⟩

/-- Settles O18: the registers and DB by `powerOnReset_eq`, system memory and the faults by
`abortEffect_reads` of the state whose event is taken, which differs from `s` in its inputs only. -/
theorem powerOnResetForgetsDb : Obligations.PowerOnResetForgetsDb := by
  intro s r hin
  obtain ⟨-, hmem, -, hwrite⟩ := abortEffect_reads (s := { s with inputs := r })
    (t := softReset { s with inputs := r }) rfl rfl rfl
  refine ⟨_, step_powerOn hin, powerOnReset_eq _, fun _ => rfl, fun hp => ?_, fun l hl hp => ?_⟩
  · obtain ⟨hm, hf⟩ := hmem hp
    exact ⟨hf, fun a => congrArg (sysRead · a) hm⟩
  · obtain ⟨hfoot, hf⟩ := hwrite l hl hp
    exact ⟨fun hinv => hfoot hinv.mem.1 hinv.map, hf⟩

/-! Commands that read unwritten DB bytes (R212). -/

/-- The written bytes of a command's data are those of DB. -/
theorem dataBytes_getElem?_of_some {s : State} {l : Snapshot} {k : Nat} {b : Byte}
    (hk : k < l.nbytes.toNat) (hb : dbRead s.db (l.dbAddr.toNat + k) = some b) :
    (dataBytes s l)[k]? = some b := by
  rw [dataBytes, dbBytes_getElem? hk, dbByte_of_some hb]

/-- A feed whose range DB holds completes, with its data fed from `c`. -/
theorem feedDb_fits {c : Word} {l : Snapshot} {s : State} (h : dbEnd l ≤ dbSize s) :
    feedDb c l s =
      .next (finish l .none 0 (noteData l { s with crcState := crcFeed c (dataBytes s l) })) := by
  rcases feedDb_cases c l s with ⟨hlt, -⟩ | ⟨-, e⟩
  · omega
  · exact e

/-- A WRITE_BITS past its checks counts its whole data as read, whether or not the platform fails an
access (log 15). -/
theorem execWriteBits_recordsReads {s : State} {l : Snapshot} (hl : s.seq = .busy l)
    (hr : ChannelReady s l) : ∃ t, execWriteBits s = .next t ∧
      (t.errcode = .none ∨ t.errcode = .busError) ∧
      RecordsReads s t l.dbAddr.toNat l.nbytes.toNat := by
  by_cases hquiet : BusQuiet s l .read ∧ BusQuiet s l .write
  · exact ⟨_, execWriteBits_ready hl hr hquiet.1 hquiet.2, .inl rfl, .of_faults rfl⟩
  · obtain ⟨j, -, -, e⟩ := execWriteBits_busError hl hr hquiet
    exact ⟨_, e, .inr rfl, .of_faults rfl⟩

/-- Settles O43: a CRC command feeds `dataBytes`, each command from its own state; a WRITE_BITS by
`execWriteBits_recordsReads`. -/
theorem unwrittenDbByteFaults : Obligations.UnwrittenDbByteFaults := by
  intro s l hl
  refine ⟨fun hfits i c hi => ?_, execWriteBits_recordsReads hl⟩
  have hfeed : exec i s = feedDb c l s := by
    rcases hi with ⟨rfl, rfl⟩ | ⟨rfl, rfl⟩
    · exact execCrcUpdate_eq hl
    · exact execCrcCompute_eq hl
  exact ⟨_, dataBytes s l, hfeed.trans (feedDb_fits hfits), dataBytes_length s l,
    fun k b hk hb => dataBytes_getElem?_of_some hk hb, rfl, .of_faults rfl⟩

/-! The bounded completion (R222). -/

/-- A completion whose data is written records no fault. -/
theorem blockStep_faults_of_written {s t : State} {l : Snapshot} (hl : s.seq = .busy l)
    (hwritten : DbWritten s l) (h : blockStep s = .next t) : t.faults = s.faults := by
  obtain ⟨code, info, u, e, -, hfaults, -⟩ := blockStep_eq_finish hl
  cases e.symm.trans h
  rcases hfaults with hf | ⟨hf, -⟩
  · exact hf
  · rw [finish_faults, hf, unwritten_eq_nil.mpr hwritten]
    rfl

/-- Settles O56: the turn of the block ends every pending word with `finish`, and with no act queued
that turn is the step. -/
theorem pendingCommandCompletes : Obligations.PendingCommandCompletes := by
  intro s l hl
  obtain ⟨code, info, u, e, -⟩ := blockStep_eq_finish hl
  refine ⟨_, e, rfl, rfl, fun hin => ?_⟩
  have hstep := (step_noInput hin).trans e
  exact ⟨⟨_, hstep, rfl⟩, fun hwritten => ⟨_, hstep, blockStep_faults_of_written hl hwritten e⟩⟩

end Sys2Proof.Machine
end
